-- ==== Sys2Proof/Word.lean ====
section
/-! DEFINITION. Word.lean: the types of the CA-Experiment CORE's values and the names of its ALU operations and branch
conditions. A word value (R5) is an `Int`: its bounds `[MIN_NUMBER, MAX_NUMBER]` are launch parameters (R4, C7), so it is a
bounded integer and no bit vector of a fixed width. That every held word lies in the bounds is the invariant
`Sys2Proof.Machine.valuesInRange` of Safety.lean (log 6). Arithmetic on words is in Machine/Ops.lean. -/

namespace Sys2Proof

/-- A register number, the 4-bit fields RB and R1 (R20, R90). -/
abbrev RegIdx := BitVec 4

/-- An instruction word (R90). -/
abbrev InstrWord := BitVec 32

/-- A row number of the microcode ROM, `0..ROM_SIZE-1` with `ROM_SIZE = 30` (R4, R28, R173). -/
abbrev RomRow := Fin 30

/-- The four ALU operations (R127). -/
inductive AluOp where
  | add
  | sub
  | mul
  | and
deriving DecidableEq, Repr

/-- The conditions of the four stride-condition signals (R142). -/
inductive Cond where
  /-- `STRIDE_IF_Z`, used by BEQ -/
  | z
  /-- `STRIDE_IF_NZ`, used by BNE -/
  | nz
  /-- `STRIDE_IF_POS`, used by BGT -/
  | pos
  /-- `STRIDE_IF_NEG`, used by BLT -/
  | neg
deriving DecidableEq, Repr

end Sys2Proof
end

