-- ==== Sys2Proof/Config.lean ====
section
/-! DEFINITION. Config.lean: the parameters of R4 and the launch inputs of R312. The parameters are plain data held in
the state, so that a statement about every state holds for every value of them (log 5). Their defaults are in
Machine/Params.lean. -/

namespace Sys2Proof

/-- How the arithmetic immediate is extended, the parameter `IMM_EXT` (R4, R93, D5, log 8). -/
inductive ImmExt where
  | sext16
  | zext16
deriving DecidableEq, Repr

/-- The closed opcode set (R94). -/
inductive Opcode where
  | nop
  | halt
  | add
  | sub
  | mul
  | and
  | loadWord
  | writeWord
  | beq
  | bne
  | bgt
  | blt
  | jump
deriving DecidableEq, Repr

/-- The parameter `OPC`: the opcode number of each mnemonic, `w[31:25]` (R4, R94, D1, log 7). -/
structure OpcodeNumbers where
  nop : BitVec 7
  halt : BitVec 7
  add : BitVec 7
  sub : BitVec 7
  mul : BitVec 7
  and : BitVec 7
  loadWord : BitVec 7
  writeWord : BitVec 7
  beq : BitVec 7
  bne : BitVec 7
  bgt : BitVec 7
  blt : BitVec 7
  jump : BitVec 7
deriving DecidableEq, Repr

/-- The parameters that a run takes (R4, R312). `W` enters the rules only through the default bounds
(`Params.ofWidth`). -/
structure Params where
  /-- `MIN_NUMBER` -/
  minNumber : Int
  /-- `MAX_NUMBER` -/
  maxNumber : Int
  /-- `IMM_EXT` -/
  immExt : ImmExt
  /-- `DMEM_SIZE`, the number of data cells (R63) -/
  dmemSize : Nat
  /-- `TICK_LIMIT`, the tick budget (R170) -/
  tickLimit : Nat
  /-- `OPC`, which R4 names and R312 does not list among the launch inputs (log 7) -/
  opc : OpcodeNumbers
deriving DecidableEq, Repr

/-- One entry of the instruction image (R312): a string of characters or the equal number (R91). -/
inductive ImageEntry where
  | text (chars : List Char)
  | number (n : Nat)
deriving DecidableEq, Repr

/-- The launch inputs (R312). `preload` gives at most one value for each register number; a value at number 0 names `r0`
and is refused (R313, premise 7). -/
structure Launch where
  image : List ImageEntry
  dataImage : List Int
  input : List Int
  preload : Vector (Option Int) 16
  params : Params
deriving DecidableEq, Repr

end Sys2Proof
end

