-- ==== Sys2Proof/Syntax.lean ====
section
/-! DEFINITION. Syntax.lean: the instruction set, one constructor per row of spec/opcode_table.json (R95). A constructor
carries the fields its instruction uses; the fields that R93 and R96 call ignored are dropped by the decoder and stay
only in the operand register (log 15). -/

namespace Sys2Proof

/-- The 19 instruction forms. `rd`, `rs`, `ra`, `rb` are 4-bit register numbers, `f2` is the 16-bit field F2: a register
index in the register forms of the ALU instructions (above 15 it faults when used, R93), an immediate, a data address
or a branch target in the others. -/
inductive Instr where
  /-- R260 -/
  | nop
  /-- R261 -/
  | halt
  /-- R220 -/
  | addReg (rd rs1 : RegIdx) (f2 : BitVec 16)
  /-- R221 -/
  | addImm (rd rs1 : RegIdx) (f2 : BitVec 16)
  /-- R222 -/
  | subReg (rd rs1 : RegIdx) (f2 : BitVec 16)
  /-- R223 -/
  | subImm (rd rs1 : RegIdx) (f2 : BitVec 16)
  /-- R224 -/
  | mulReg (rd rs1 : RegIdx) (f2 : BitVec 16)
  /-- R225 -/
  | mulImm (rd rs1 : RegIdx) (f2 : BitVec 16)
  /-- R226 -/
  | andReg (rd rs1 : RegIdx) (f2 : BitVec 16)
  /-- R227 -/
  | andImm (rd rs1 : RegIdx) (f2 : BitVec 16)
  /-- R240: `LOAD_WORD rd, [ra]` -/
  | loadReg (rd ra : RegIdx)
  /-- R241: `LOAD_WORD rd, addr` -/
  | loadAddr (rd : RegIdx) (f2 : BitVec 16)
  /-- R242: `WRITE_WORD rs, [ra]` -/
  | writeReg (rs ra : RegIdx)
  /-- R243: `WRITE_WORD rs, addr` -/
  | writeAddr (rs : RegIdx) (f2 : BitVec 16)
  /-- R262 -/
  | beq (ra rb : RegIdx) (f2 : BitVec 16)
  /-- R263 -/
  | bne (ra rb : RegIdx) (f2 : BitVec 16)
  /-- R264 -/
  | bgt (ra rb : RegIdx) (f2 : BitVec 16)
  /-- R265 -/
  | blt (ra rb : RegIdx) (f2 : BitVec 16)
  /-- R266 -/
  | jump (f2 : BitVec 16)
deriving DecidableEq, Repr

end Sys2Proof
end

