-- ==== Sys2Proof/WellFormed.lean ====
section
/-! DEFINITION. WellFormed.lean: which instructions the spec's assembly syntax can write. The 4-bit and 16-bit fields are
bounded by their types; the one check left is that F2, where R98 writes a register, names one of `r0`..`r15`. The machine
decodes and runs the others too (R93, R96): they fault when F2 is used. The checks on a launch are in
Machine/Launch.lean. -/

namespace Sys2Proof

/-- F2 read as a register index names a register (R93). -/
def namesRegister (f2 : BitVec 16) : Bool := f2.toNat < 16

/-- The instruction can be written in the syntax of R98. -/
def Instr.wellFormed : Instr → Bool
  | .nop => true
  | .halt => true
  | .addReg _ _ f2 => namesRegister f2
  | .addImm _ _ _ => true
  | .subReg _ _ f2 => namesRegister f2
  | .subImm _ _ _ => true
  | .mulReg _ _ f2 => namesRegister f2
  | .mulImm _ _ _ => true
  | .andReg _ _ f2 => namesRegister f2
  | .andImm _ _ _ => true
  | .loadReg _ _ => true
  | .loadAddr _ _ => true
  | .writeReg _ _ => true
  | .writeAddr _ _ => true
  | .beq _ _ _ => true
  | .bne _ _ _ => true
  | .bgt _ _ _ => true
  | .blt _ _ _ => true
  | .jump _ => true

end Sys2Proof
end

