-- ==== Sys2Proof/Decode.lean ====
section
/-! DEFINITION. Decode.lean: from a 32-bit word to an instruction by the static table of R95, total on every word and
rejecting by name (R96, R97); the encoder; and the string form of a word (R91). -/

namespace Sys2Proof

/-! ### Fields of a word (R90, R92) -/

/-- `w[31:25]` -/
def opcodeField (w : InstrWord) : BitVec 7 := w.extractLsb' 25 7

/-- RB, `w[24:21]` -/
def rbField (w : InstrWord) : RegIdx := w.extractLsb' 21 4

/-- R1, `w[20:17]` -/
def r1Field (w : InstrWord) : RegIdx := w.extractLsb' 17 4

/-- F2, `w[16:1]` -/
def f2Field (w : InstrWord) : BitVec 16 := w.extractLsb' 1 16

/-- FLAG, `w[0]` -/
def flagField (w : InstrWord) : BitVec 1 := w.extractLsb' 0 1

/-- What LATCH_OPR takes from a word, `w[24:1]` (R92, R146). -/
def oprField (w : InstrWord) : BitVec 24 := w.extractLsb' 1 24

/-! ### Opcode numbers (R94) -/

/-- The opcode number of a mnemonic under the parameter `OPC` (R4, R94). -/
def OpcodeNumbers.number (opc : OpcodeNumbers) : Opcode → BitVec 7
  | .nop => opc.nop
  | .halt => opc.halt
  | .add => opc.add
  | .sub => opc.sub
  | .mul => opc.mul
  | .and => opc.and
  | .loadWord => opc.loadWord
  | .writeWord => opc.writeWord
  | .beq => opc.beq
  | .bne => opc.bne
  | .bgt => opc.bgt
  | .blt => opc.blt
  | .jump => opc.jump

/-- The default `OPC`: the source's order of listing (R94, D1). -/
def OpcodeNumbers.listed : OpcodeNumbers where
  nop := 0#7
  halt := 1#7
  add := 2#7
  sub := 3#7
  mul := 4#7
  and := 5#7
  loadWord := 6#7
  writeWord := 7#7
  beq := 8#7
  bne := 9#7
  bgt := 10#7
  blt := 11#7
  jump := 12#7

/-- No two mnemonics have the same number, so that each (opcode, FLAG) key has one row (log 7). -/
def OpcodeNumbers.Distinct (opc : OpcodeNumbers) : Prop := ∀ a b : Opcode, opc.number a = opc.number b → a = b

/-! ### The decode table (R95) -/

/-- A row of the decode table: its (opcode, FLAG) key, its entry line in the ROM, and the instruction it reads from the
fields RB, R1 and F2. -/
structure DecodeRow where
  opcode : Opcode
  flag : BitVec 1
  entry : RomRow
  build : RegIdx → RegIdx → BitVec 16 → Instr

/-- R95, row by row. -/
def decodeTable : List DecodeRow := [
  ⟨.nop, 0#1, 3, fun _ _ _ => .nop⟩,
  ⟨.halt, 0#1, 4, fun _ _ _ => .halt⟩,
  ⟨.add, 0#1, 5, .addReg⟩,
  ⟨.add, 1#1, 6, .addImm⟩,
  ⟨.sub, 0#1, 7, .subReg⟩,
  ⟨.sub, 1#1, 8, .subImm⟩,
  ⟨.mul, 0#1, 9, .mulReg⟩,
  ⟨.mul, 1#1, 10, .mulImm⟩,
  ⟨.and, 0#1, 11, .andReg⟩,
  ⟨.and, 1#1, 12, .andImm⟩,
  ⟨.loadWord, 0#1, 13, fun rb r1 _ => .loadReg rb r1⟩,
  ⟨.loadWord, 1#1, 14, fun rb _ f2 => .loadAddr rb f2⟩,
  ⟨.writeWord, 0#1, 15, fun rb r1 _ => .writeReg rb r1⟩,
  ⟨.writeWord, 1#1, 16, fun rb _ f2 => .writeAddr rb f2⟩,
  ⟨.beq, 1#1, 17, .beq⟩,
  ⟨.bne, 1#1, 20, .bne⟩,
  ⟨.bgt, 1#1, 23, .bgt⟩,
  ⟨.blt, 1#1, 26, .blt⟩,
  ⟨.jump, 1#1, 29, fun _ _ f2 => .jump f2⟩]

/-- The row with the given key, if the table has one (the first one, where a numbering is not distinct: log 7). -/
def lookupRow (opc : OpcodeNumbers) (opcode : BitVec 7) (flag : BitVec 1) : Option DecodeRow :=
  decodeTable.find? fun r => opc.number r.opcode == opcode && r.flag == flag

/-- Why a word is rejected: its (opcode, FLAG) pair is no row of the table (R96, R97). -/
inductive Reject where
  | notInTable (opcode : BitVec 7) (flag : BitVec 1)
deriving DecidableEq, Repr

/-- `decode` of R96, up to the row it finds. It reads only the opcode and FLAG. -/
def decodeRow (opc : OpcodeNumbers) (w : InstrWord) : Except Reject DecodeRow :=
  match lookupRow opc (opcodeField w) (flagField w) with
  | some r => .ok r
  | none => .error (.notInTable (opcodeField w) (flagField w))

/-- The entry line of a word (R96). -/
def decodeEntry (opc : OpcodeNumbers) (w : InstrWord) : Except Reject RomRow :=
  match decodeRow opc w with
  | .ok r => .ok r.entry
  | .error e => .error e

/-- The instruction of a word: its row, applied to its fields (R93, R95). -/
def decode (opc : OpcodeNumbers) (w : InstrWord) : Except Reject Instr :=
  match decodeRow opc w with
  | .ok r => .ok (r.build (rbField w) (r1Field w) (f2Field w))
  | .error e => .error e

/-- The host's view of the decoder, under the numbers of the opcode table (R94, R95). One 32-bit word is one instruction,
and the table's bit 0 is the word's bit 0 (R90). -/
def decodeTableWord (nbits w : Nat) : Option Instr :=
  match decode OpcodeNumbers.listed (BitVec.ofNat 32 (w % 2 ^ nbits)) with
  | .ok i => some i
  | .error _ => none

/-! ### The encoder (R90, R94, R95, R98) -/

/-- The opcode of an instruction (R94). -/
def Instr.opcode : Instr → Opcode
  | .nop => .nop
  | .halt => .halt
  | .addReg _ _ _ => .add
  | .addImm _ _ _ => .add
  | .subReg _ _ _ => .sub
  | .subImm _ _ _ => .sub
  | .mulReg _ _ _ => .mul
  | .mulImm _ _ _ => .mul
  | .andReg _ _ _ => .and
  | .andImm _ _ _ => .and
  | .loadReg _ _ => .loadWord
  | .loadAddr _ _ => .loadWord
  | .writeReg _ _ => .writeWord
  | .writeAddr _ _ => .writeWord
  | .beq _ _ _ => .beq
  | .bne _ _ _ => .bne
  | .bgt _ _ _ => .bgt
  | .blt _ _ _ => .blt
  | .jump _ => .jump

/-- The FLAG bit of an instruction's form (R95). -/
def Instr.flag : Instr → BitVec 1
  | .nop => 0#1
  | .halt => 0#1
  | .addReg _ _ _ => 0#1
  | .addImm _ _ _ => 1#1
  | .subReg _ _ _ => 0#1
  | .subImm _ _ _ => 1#1
  | .mulReg _ _ _ => 0#1
  | .mulImm _ _ _ => 1#1
  | .andReg _ _ _ => 0#1
  | .andImm _ _ _ => 1#1
  | .loadReg _ _ => 0#1
  | .loadAddr _ _ => 1#1
  | .writeReg _ _ => 0#1
  | .writeAddr _ _ => 1#1
  | .beq _ _ _ => 1#1
  | .bne _ _ _ => 1#1
  | .bgt _ _ _ => 1#1
  | .blt _ _ _ => 1#1
  | .jump _ => 1#1

/-- The entry line of an instruction's form (R95). -/
def Instr.entryLine : Instr → RomRow
  | .nop => 3
  | .halt => 4
  | .addReg _ _ _ => 5
  | .addImm _ _ _ => 6
  | .subReg _ _ _ => 7
  | .subImm _ _ _ => 8
  | .mulReg _ _ _ => 9
  | .mulImm _ _ _ => 10
  | .andReg _ _ _ => 11
  | .andImm _ _ _ => 12
  | .loadReg _ _ => 13
  | .loadAddr _ _ => 14
  | .writeReg _ _ => 15
  | .writeAddr _ _ => 16
  | .beq _ _ _ => 17
  | .bne _ _ _ => 20
  | .bgt _ _ _ => 23
  | .blt _ _ _ => 26
  | .jump _ => 29

/-- The 24 bits `RB ∥ R1 ∥ F2` of an instruction, unused fields written as 0 (R98). -/
def Instr.operands : Instr → BitVec 24
  | .nop => 0#24
  | .halt => 0#24
  | .addReg rd rs1 f2 => rd ++ rs1 ++ f2
  | .addImm rd rs1 f2 => rd ++ rs1 ++ f2
  | .subReg rd rs1 f2 => rd ++ rs1 ++ f2
  | .subImm rd rs1 f2 => rd ++ rs1 ++ f2
  | .mulReg rd rs1 f2 => rd ++ rs1 ++ f2
  | .mulImm rd rs1 f2 => rd ++ rs1 ++ f2
  | .andReg rd rs1 f2 => rd ++ rs1 ++ f2
  | .andImm rd rs1 f2 => rd ++ rs1 ++ f2
  | .loadReg rd ra => rd ++ ra ++ 0#16
  | .loadAddr rd f2 => rd ++ 0#4 ++ f2
  | .writeReg rs ra => rs ++ ra ++ 0#16
  | .writeAddr rs f2 => rs ++ 0#4 ++ f2
  | .beq ra rb f2 => ra ++ rb ++ f2
  | .bne ra rb f2 => ra ++ rb ++ f2
  | .bgt ra rb f2 => ra ++ rb ++ f2
  | .blt ra rb f2 => ra ++ rb ++ f2
  | .jump f2 => 0#4 ++ 0#4 ++ f2

/-- The word of an instruction: `opcode ∥ RB ∥ R1 ∥ F2 ∥ FLAG` (R90). -/
def encode (opc : OpcodeNumbers) (i : Instr) : InstrWord := opc.number i.opcode ++ i.operands ++ i.flag

/-- The 24-bit mask of the fields an instruction's form uses (R93, `operand_use` of the opcode table). -/
def Instr.usedMask : Instr → BitVec 24
  | .nop => 0#24
  | .halt => 0#24
  | .addReg _ _ _ => 0xFFFFFF#24
  | .addImm _ _ _ => 0xFFFFFF#24
  | .subReg _ _ _ => 0xFFFFFF#24
  | .subImm _ _ _ => 0xFFFFFF#24
  | .mulReg _ _ _ => 0xFFFFFF#24
  | .mulImm _ _ _ => 0xFFFFFF#24
  | .andReg _ _ _ => 0xFFFFFF#24
  | .andImm _ _ _ => 0xFFFFFF#24
  | .loadReg _ _ => 0xFF0000#24
  | .loadAddr _ _ => 0xF0FFFF#24
  | .writeReg _ _ => 0xFF0000#24
  | .writeAddr _ _ => 0xF0FFFF#24
  | .beq _ _ _ => 0xFFFFFF#24
  | .bne _ _ _ => 0xFFFFFF#24
  | .bgt _ _ _ => 0xFFFFFF#24
  | .blt _ _ _ => 0xFFFFFF#24
  | .jump _ => 0x00FFFF#24

/-! ### The string form of a word (R91) -/

/-- The bit a character of the image string stands for. -/
def bitOfChar (c : Char) : Option Bool :=
  if c = '0' then some false else if c = '1' then some true else none

/-- The number whose binary digits, most significant first, are the characters; `acc` is the value of those before. -/
def numberOfChars : Nat → List Char → Option Nat
  | acc, [] => some acc
  | acc, c :: cs =>
    match bitOfChar c with
    | some b => numberOfChars (2 * acc + b.toNat) cs
    | none => none

/-- A string is a word when it is exactly 32 characters `0` or `1`; character 0 is bit 31 (R91). -/
def wordOfChars (cs : List Char) : Option InstrWord :=
  if cs.length = 32 then (numberOfChars 0 cs).map (BitVec.ofNat 32) else none

/-- The string of a word: character `i` is bit `31 - i` (R91). -/
def charsOfWord (w : InstrWord) : List Char :=
  (List.range 32).map fun i => if w.getLsbD (31 - i) then '1' else '0'

/-- The word of an image entry, a string or the equal 32-bit number (R91, R312). A number that needs more than 32 bits
equals no 32-bit number, so it is no word (log 14). -/
def ImageEntry.word : ImageEntry → Option InstrWord
  | .text chars => wordOfChars chars
  | .number n => if n < 2 ^ 32 then some (BitVec.ofNat 32 n) else none

end Sys2Proof
end

