-- ==== Sys2Proof/Machine/Params.lean ====
section
/-! DEFINITION. Machine/Params.lean: the default parameters (R4). -/

namespace Sys2Proof

/-- The default bounds of a data word of `width` bits (R4): `-2^(W-1)` and `2^(W-1) - 1`, with the default
`IMM_EXT` and the default `OPC`. -/
def Params.ofWidth (width dmemSize tickLimit : Nat) : Params where
  minNumber := -(2 ^ (width - 1) : Nat)
  maxNumber := (2 ^ (width - 1) : Nat) - 1
  immExt := .sext16
  dmemSize := dmemSize
  tickLimit := tickLimit
  opc := OpcodeNumbers.listed

/-- The parameters of `State.reset`: the defaults of R4 (`W = 32`, `sext_16`, the numbers of R94) and, for the two
that the spec leaves OPEN, the values its own test vectors run with. DESIGN CHOICE (log 5), unsafe: no statement rests on 64 or 100000. -/
def Params.default : Params := Params.ofWidth 32 64 100000

end Sys2Proof
end

