-- ==== Sys2Proof/Machine/State.lean ====
section
/-! DEFINITION. Machine/State.lean: the signals (R148) and fault kinds (R281) that a fault report names, the state of the
block (R20-R38) and its reset value (R38). `none` in an `Option` field is the spec's own marker `⊥`, "no value" (R6): R38
gives it as the reset value of that element, and a rule that reads it raises the fault `UninitialisedRead` (log 1). -/

namespace Sys2Proof.Machine

/-! ### Control values -/

/-- `pc_sel` (R31). -/
inductive PcSel where
  | unset
  | inc
  | addr
deriving DecidableEq, Repr

/-- `data_sel` (R31). -/
inductive DataSel where
  | unset
  | alu
  | mem
deriving DecidableEq, Repr

/-- `mpc_sel` (R31). -/
inductive MpcSel where
  | unset
  | inc
  | ir
  | zero
deriving DecidableEq, Repr

/-- The stride register, 1 or 2 (R32). -/
inductive Stride where
  | one
  | two
deriving DecidableEq, Repr

/-- The number a stride stands for (R32). -/
def Stride.toNat : Stride → Nat
  | .one => 1
  | .two => 2

/-- The ALU flag pair (R26). -/
structure Flags where
  /-- `Z` -/
  z : Bool
  /-- `N` -/
  n : Bool
deriving DecidableEq, Repr

/-! ### Signals -/

/-- The closed signal catalog: 72 concrete signals (R148). -/
inductive Signal where
  /-- `LATCH_R<i>` (R122) -/
  | latchR (i : RegIdx)
  /-- `SEL_LEFT_R<i>` (R120) -/
  | selLeftR (i : RegIdx)
  /-- `SEL_RIGHT_R<i>` (R121) -/
  | selRightR (i : RegIdx)
  /-- `ALU_ADD`, `ALU_SUB`, `ALU_MUL`, `ALU_AND` (R127) -/
  | alu (op : AluOp)
  /-- `SEL_PC_INC` (R135) -/
  | selPcInc
  /-- `SEL_PC_ADDR` (R136) -/
  | selPcAddr
  /-- `LATCH_PC` (R137) -/
  | latchPc
  /-- `SEL_DATA_ALU` (R138) -/
  | selDataAlu
  /-- `SEL_DATA_MEM` (R138) -/
  | selDataMem
  /-- `SEL_MPC_INC` (R140) -/
  | selMpcInc
  /-- `SEL_MPC_IR` (R140) -/
  | selMpcIr
  /-- `SEL_MPC_ZERO` (R140) -/
  | selMpcZero
  /-- `LATCH_MPC` (R141) -/
  | latchMpc
  /-- `STRIDE_IF_Z`, `STRIDE_IF_NZ`, `STRIDE_IF_POS`, `STRIDE_IF_NEG` (R142) -/
  | strideIf (c : Cond)
  /-- `SEL_LEFT_ADDR` (R125) -/
  | selLeftAddr
  /-- `SEL_RIGHT_NUM` (R126) -/
  | selRightNum
  /-- `MEM_READ` (R143) -/
  | memRead
  /-- `MEM_WRITE` (R144) -/
  | memWrite
  /-- `LATCH_IR` (R145) -/
  | latchIr
  /-- `LATCH_OPR` (R146) -/
  | latchOpr
  /-- `HALT` (R147) -/
  | halt
deriving DecidableEq, Repr

/-- An entry of a ROM row: a concrete signal, or one of the three operand-relative forms, which the control unit resolves
through operand field `k` (R124). -/
inductive RomEntry where
  | signal (s : Signal)
  /-- `SEL_LEFT_OP(k)` -/
  | selLeftOp (k : Nat)
  /-- `SEL_RIGHT_OP(k)` -/
  | selRightOp (k : Nat)
  /-- `LATCH_OP(k)` -/
  | latchOp (k : Nat)
deriving DecidableEq, Repr

/-! ### Faults -/

/-- The three selector registers, named in the context of `InvalidMux` (R281). -/
inductive SelectorName where
  | pcSel
  | dataSel
  | mpcSel
deriving DecidableEq, Repr

/-- The access of a data-memory fault (R281). -/
inductive Access where
  | read
  | write
deriving DecidableEq, Repr

/-- The reason of an `InvalidRegisterIndex` (R281). -/
inductive IndexReason where
  | immutable
  | outOfRange
deriving DecidableEq, Repr

/-- The reason of a `MemoryAccessViolation` (R281). -/
inductive CellReason where
  | writeOnlyCell
  | readOnlyCell
deriving DecidableEq, Repr

/-- What an `UninitialisedRead` read: a register, a data cell, a wire or a latch (R281). -/
inductive Element where
  | register (i : RegIdx)
  | cell (address : Int)
  | leftWire
  | rightWire
  | aluResult
  | memOut
  | ir
  /-- the operand register, which R281 does not list and R6 and R38 cover (log 9) -/
  | opr
  | flags
deriving DecidableEq, Repr

/-- The eleven fault kinds with the context each records (R281). Raising one is a NEXT state of this model, whose status
is `Status.faulted` (R280, log 2), so `step` and `exec` never answer `Host.Outcome.fault`; the kinds are the host
interface's fault type because they are what the spec calls faults. Every one is safe: the spec names it. -/
inductive Fault where
  /-- Code 1, raised by LATCH_IR on a pair outside the decode table. Safe: R96. -/
  | decodeError (opcode : BitVec 7) (flag : BitVec 1)
  /-- Code 2, raised by LATCH_PC, LATCH_R<i> and LATCH_MPC on an UNSET selector. Safe: R31. -/
  | invalidMux (signal : Signal) (selector : SelectorName)
  /-- Code 3, raised by LATCH_R0 (immutable) and by operand resolution (out of range). Safe: R122, R124. -/
  | invalidRegisterIndex (index : Nat) (reason : IndexReason)
  /-- Code 4, raised by operand resolution. Safe: R124. -/
  | invalidOperandIndex (index : Nat)
  /-- Code 5, raised by MEM_READ of cell 1 and MEM_WRITE of cell 0. Safe: R65, R66. -/
  | memoryAccessViolation (address : Int) (access : Access) (reason : CellReason)
  /-- Code 6, raised by MEM_READ of cell 0 when the input is used up. Safe: R67. -/
  | inputExhausted
  /-- Code 7, raised by LATCH_IR and LATCH_OPR outside `1..N`. Safe: R62. -/
  | instructionAddressOutOfRange (address : Nat)
  /-- Code 8, raised by MEM_READ and MEM_WRITE outside the data memory. Safe: R65, R66. -/
  | dataAddressOutOfRange (address : Int) (access : Access)
  /-- Code 9, raised by no signal of the closed catalog; kept for completeness as R134 keeps it. Safe. -/
  | unsupportedAluOp (op : Nat)
  /-- Code 10, raised wherever a rule reads an element that holds `⊥`. Safe: R6, R38. -/
  | uninitialisedRead (element : Element)
  /-- Code 11, raised by LATCH_MPC outside the ROM. Safe: R141. -/
  | mpcOutOfRange (mpc : Nat)
deriving DecidableEq, Repr

/-- The report of a fault (R282); its code is `Fault.code`. -/
structure Report where
  kind : Fault
  /-- the ROM entry that raised the fault -/
  signal : RomEntry
  /-- the ROM row that was running -/
  row : RomRow
  /-- `pc` when the fault was raised -/
  pc : BitVec 16
  /-- the rows completed before the faulting one -/
  tick : Nat
deriving DecidableEq, Repr

/-- The premises of a launch (R313), in the order the rule lists them. -/
inductive LaunchPremise where
  | imageLength
  | imageWords
  | dataImageLength
  | valuesInRange
  | boundsAroundZero
  | dmemSizeAtLeastTwo
  | preloadRegisters
deriving DecidableEq, Repr

/-- What the model refuses. -/
inductive Refusal where
  /-- `exec` on an instruction that has no meaning yet. Safe. No arm answers it. -/
  | notModelled (mnemonic : String)
  /-- `launch` on inputs that break a premise of R313: "no run takes place". Safe: R313 refuses them. -/
  | launchRefused (premise : LaunchPremise)
deriving DecidableEq, Repr

/-- The run status (R35). -/
inductive Status where
  | running
  | halted
  | faulted (report : Report)
  | timeout
deriving DecidableEq, Repr

/-! ### The state -/

/-- The general cells of the data memory: (address, value) pairs, addresses strictly rising. An unlisted cell holds `⊥`
(R38, R64), so no entry can equal what an unlisted address reads as. -/
abbrev Memory := List (Nat × Int)

/-- The state of the block (R20-R38). -/
structure State where
  /-- `r1`..`r15`: index `i - 1` holds `ri`; `r0` has no storage (R20, R21) -/
  regs : Vector (Option Int) 15
  /-- the left wire (R23) -/
  left : Option Int
  /-- the right wire (R23) -/
  right : Option Int
  /-- R24 -/
  aluResult : Option Int
  /-- R25 -/
  memOut : Option Int
  /-- `(Z, N)` (R26) -/
  flags : Option Flags
  /-- R27 -/
  pc : BitVec 16
  /-- R28 -/
  mpc : RomRow
  /-- the decoded entry line, not the raw instruction (R29) -/
  ir : Option RomRow
  /-- RB in bits 23-20, R1 in 19-16, F2 in 15-0 (R30) -/
  opr : Option (BitVec 24)
  pcSel : PcSel
  dataSel : DataSel
  mpcSel : MpcSel
  /-- R32 -/
  stride : Stride
  /-- R33 -/
  tick : Nat
  /-- R34 -/
  icount : Nat
  /-- R35 -/
  status : Status
  /-- the instruction image; address `k` is element `k - 1` (R61) -/
  imem : List InstrWord
  /-- the general data cells (R63) -/
  dmem : Memory
  /-- the input FIFO, head first (R67) -/
  inbuf : List Int
  /-- the output buffer, oldest first (R68) -/
  outbuf : List Int
  /-- the launch parameters, which no step changes (R4, R312, log 5) -/
  params : Params
deriving DecidableEq, Repr

/-- The reset value of every element (R38), with no image, data, input or preload placed: the image comes with a launch
(R312, log 12). The input FIFO holds the sentinel. -/
def State.reset : State where
  regs := Vector.replicate 15 none
  left := none
  right := none
  aluResult := none
  memOut := none
  flags := none
  pc := 0#16
  mpc := 0
  ir := none
  opr := none
  pcSel := .unset
  dataSel := .unset
  mpcSel := .unset
  stride := .one
  tick := 0
  icount := 0
  status := .running
  imem := []
  dmem := []
  inbuf := [0]
  outbuf := []
  params := Params.default

end Sys2Proof.Machine
end

