-- ==== Sys2Proof/Machine/Ops.lean ====
section
/-! DEFINITION. Machine/Ops.lean: the named operations over words, registers and memories, raising a fault (the one
exception entry of this hardware, R280), and running a row of signals (R170, R172). -/

namespace Sys2Proof.Machine

/-! ### Arithmetic on words -/

/-- Modulo reduction into `[MIN_NUMBER, MAX_NUMBER]` (R8). `Int.emod` is the mathematical modulus for a positive divisor. -/
def wrap (p : Params) (v : Int) : Int :=
  p.minNumber + (v - p.minNumber) % (p.maxNumber - p.minNumber + 1)

/-- The bitwise AND of the two's-complement representations of two integers (R131). `negSucc a` is the integer `-a - 1`,
whose infinite representation is the complement of `a`'s. -/
def andInt : Int → Int → Int
  | .ofNat a, .ofNat b => .ofNat (a &&& b)
  | .ofNat a, .negSucc b => .ofNat (a ^^^ (a &&& b))
  | .negSucc a, .ofNat b => .ofNat (b ^^^ (b &&& a))
  | .negSucc a, .negSucc b => .negSucc (a ||| b)

/-- The exact integer result of an ALU operation, before `wrap` (R128-R131). -/
def aluExact : AluOp → Int → Int → Int
  | .add, l, r => l + r
  | .sub, l, r => l - r
  | .mul, l, r => l * r
  | .and, l, r => andInt l r

/-- The ALU result: the exact result, wrapped (R127). -/
def aluValue (p : Params) (op : AluOp) (l r : Int) : Int := wrap p (aluExact op l r)

/-! ### Registers -/

/-- What register `i` holds: 0 for `r0`, else its cell, where `none` is `⊥` (R20, R21). -/
def State.reg (s : State) (i : RegIdx) : Option Int :=
  if i = 0#4 then some 0 else s.regs[i.toNat - 1]'(by have := i.isLt; omega)

/-- A register read `x[i]` (R123). -/
def readReg (i : RegIdx) (s : State) : Except Fault Int :=
  match s.reg i with
  | some v => .ok v
  | none => .error (.uninitialisedRead (.register i))

/-- The write of cell `regs[i]` for `i` other than 0 (R122); `r0` has no cell to write. -/
def State.setReg (s : State) (i : RegIdx) (v : Int) : State :=
  if i = 0#4 then s else { s with regs := s.regs.set (i.toNat - 1) (some v) (by have := i.isLt; omega) }

/-! ### Data memory (R63-R68) -/

/-- The general cell at an address, `none` for `⊥`. -/
def Memory.read (a : Nat) : Memory → Option Int
  | [] => none
  | (b, v) :: m => if a = b then some v else Memory.read a m

/-- The memory with a general cell written; the addresses stay strictly rising. -/
def Memory.write (a : Nat) (v : Int) : Memory → Memory
  | [] => [(a, v)]
  | (b, w) :: m =>
    if a < b then (a, v) :: (b, w) :: m
    else if a = b then (a, v) :: m
    else (b, w) :: Memory.write a v m

/-- The addresses rise strictly, and all lie above `low`. -/
def Memory.risingFrom (low : Nat) : Memory → Bool
  | [] => true
  | (a, _) :: m => low < a && Memory.risingFrom a m

/-- The canonical form: only general cells (addresses 2 and up, R63) are listed, in strictly rising order. -/
def Memory.wf (m : Memory) : Bool := Memory.risingFrom 1 m

/-- What the general cell at address `a` holds. -/
def State.cell (s : State) (a : Nat) : Option Int := s.dmem.read a

/-- `IMemRead(a)` (R62). -/
def imemRead (a : Nat) (s : State) : Except Fault InstrWord :=
  if a < 1 then .error (.instructionAddressOutOfRange a)
  else match s.imem[a - 1]? with
    | some w => .ok w
    | none => .error (.instructionAddressOutOfRange a)

/-- `InPop()` (R67). -/
def inPop (s : State) : Except Fault (Int × State) :=
  match s.inbuf with
  | [] => .error .inputExhausted
  | v :: rest => .ok (v, { s with inbuf := rest })

/-- `OutPush(v)` (R68). -/
def outPush (v : Int) (s : State) : State := { s with outbuf := s.outbuf ++ [v] }

/-- `MemRead(a)`, its checks in the order of R65. -/
def memRead (a : Int) (s : State) : Except Fault (Int × State) :=
  if a = 0 then inPop s
  else if a = 1 then .error (.memoryAccessViolation 1 .read .writeOnlyCell)
  else if a < 0 ∨ (s.params.dmemSize : Int) ≤ a then .error (.dataAddressOutOfRange a .read)
  else match s.cell a.toNat with
    | none => .error (.uninitialisedRead (.cell a))
    | some v => .ok (v, s)

/-- `MemWrite(a, v)`, its checks in the order of R66. Cell 1 has no backing cell (C1). -/
def memWrite (a v : Int) (s : State) : Except Fault State :=
  if a = 0 then .error (.memoryAccessViolation 0 .write .readOnlyCell)
  else if a = 1 then .ok (outPush v s)
  else if a < 0 ∨ (s.params.dmemSize : Int) ≤ a then .error (.dataAddressOutOfRange a .write)
  else .ok { s with dmem := s.dmem.write a.toNat v }

/-! ### Signals and rows -/

/-- What a signal does: it completes, or it raises a fault. The state beside a fault is the one its signal leaves, since
a fault undoes nothing (R280). -/
inductive SignalResult where
  | done (s : State)
  | raised (kind : Fault) (s : State)
deriving DecidableEq, Repr

/-- Raising a fault (R280, R282): `status` becomes FAULTED with the report, and nothing else changes. This is the one
exception entry of the hardware; there is no return from it (R288). -/
def takeFault (row : RomRow) (entry : RomEntry) (kind : Fault) (s : State) : State :=
  { s with status := .faulted { kind := kind, signal := entry, row := row, pc := s.pc, tick := s.tick } }

/-- The number of a fault kind (R281, D23). -/
def Fault.code : Fault → Nat
  | .decodeError _ _ => 1
  | .invalidMux _ _ => 2
  | .invalidRegisterIndex _ _ => 3
  | .invalidOperandIndex _ => 4
  | .memoryAccessViolation _ _ _ => 5
  | .inputExhausted => 6
  | .instructionAddressOutOfRange _ => 7
  | .dataAddressOutOfRange _ _ => 8
  | .unsupportedAluOp _ => 9
  | .uninitialisedRead _ => 10
  | .mpcOutOfRange _ => 11

/-- A signal of a row: the ROM entry that asserts it, for the report, and what it does. -/
structure RowOp where
  entry : RomEntry
  run : State → SignalResult

/-- The signals of a row in list order (R170, R172): a fault or HALT ends the row at its signal and leaves `tick`; a row
that runs to its end advances it. -/
def runOps (row : RomRow) : List RowOp → State → State
  | [], s => { s with tick := s.tick + 1 }
  | op :: ops, s =>
    match op.run s with
    | .raised kind t => takeFault row op.entry kind t
    | .done t => if t.status = .halted then t else runOps row ops t

/-- One tick that runs the given row (R170): nothing when the run has ended, TIMEOUT when the budget is used up, else the
row. -/
def runRow (row : RomRow) (ops : List RowOp) (s : State) : State :=
  if s.status ≠ .running then s
  else if s.tick = s.params.tickLimit then { s with status := .timeout }
  else runOps row ops s

end Sys2Proof.Machine
end

