-- ==== Sys2Proof/Machine/Flags.lean ====
section
/-! DEFINITION. Machine/Flags.lean: the flags of a result (R132), the ALU signals (R127) and the stride-condition signals,
the only readers of the flags (R142). -/

namespace Sys2Proof.Machine

/-- The flags of a wrapped result (R132). -/
def flagsOf (v : Int) : Flags where
  z := decide (v = 0)
  n := decide (v < 0)

/-- The condition `c` of a stride-condition signal on the flags (R142). -/
def condHolds : Cond → Flags → Bool
  | .z, f => f.z
  | .nz, f => !f.z
  | .pos, f => !f.z && !f.n
  | .neg, f => f.n

/-- `ALU_ADD`, `ALU_SUB`, `ALU_MUL`, `ALU_AND` (R127). Where both wires hold `⊥` the left one is named (log 10). -/
def alu (op : AluOp) (s : State) : SignalResult :=
  match s.left, s.right with
  | none, _ => .raised (.uninitialisedRead .leftWire) s
  | some _, none => .raised (.uninitialisedRead .rightWire) s
  | some l, some r =>
    .done { s with
      aluResult := some (aluValue s.params op l r)
      flags := some (flagsOf (aluValue s.params op l r)) }

/-- `STRIDE_IF_Z`, `STRIDE_IF_NZ`, `STRIDE_IF_POS`, `STRIDE_IF_NEG` (R142) -/
def strideIf (c : Cond) (s : State) : SignalResult :=
  match s.flags with
  | none => .raised (.uninitialisedRead .flags) s
  | some f => .done { s with stride := if condHolds c f then .two else .one }

end Sys2Proof.Machine
end

