-- ==== Sys2Proof/Machine/Operands.lean ====
section
/-! DEFINITION. Machine/Operands.lean: the operand fields (R30), their extension (R8, R93), the resolution of a field to a
register (R124), and the signals that put an operand on a wire (R120, R121, R125, R126). -/

namespace Sys2Proof.Machine

/-! ### Extension (R8) -/

/-- `zext_16(f)`, in `0..65535` -/
def zext16 (f : BitVec 16) : Int := f.toNat

/-- `sext_16(f)`, in `-32768..32767` -/
def sext16 (f : BitVec 16) : Int := if f.toNat < 2 ^ 15 then f.toNat else f.toNat - 2 ^ 16

/-- `IMM_EXT(f)` (R93) -/
def immExt (p : Params) (f : BitVec 16) : Int :=
  match p.immExt with
  | .sext16 => sext16 f
  | .zext16 => zext16 f

/-! ### Fields of the operand register (R30) -/

/-- RB, `opr[23:20]` -/
def oprRb (o : BitVec 24) : RegIdx := o.extractLsb' 20 4

/-- R1, `opr[19:16]` -/
def oprR1 (o : BitVec 24) : RegIdx := o.extractLsb' 16 4

/-- F2, `opr[15:0]` -/
def oprF2 (o : BitVec 24) : BitVec 16 := o.extractLsb' 0 16

/-- `F(k)` (R30): operand index 0, 1 or 2; another index is `InvalidOperandIndex` (R124). -/
def operandField (k : Nat) (s : State) : Except Fault Nat :=
  if 2 < k then .error (.invalidOperandIndex k)
  else match s.opr with
    | none => .error (.uninitialisedRead .opr)
    | some o => .ok (if k = 0 then (oprRb o).toNat else if k = 1 then (oprR1 o).toNat else (oprF2 o).toNat)

/-! ### Signals that select an operand -/

/-- `SEL_LEFT_R<i>` (R120) -/
def selLeft (i : RegIdx) (s : State) : SignalResult :=
  match readReg i s with
  | .ok v => .done { s with left := some v }
  | .error kind => .raised kind s

/-- `SEL_RIGHT_R<i>` (R121) -/
def selRight (i : RegIdx) (s : State) : SignalResult :=
  match readReg i s with
  | .ok v => .done { s with right := some v }
  | .error kind => .raised kind s

/-- The end of operand resolution (R124): an index above 15 faults, else the concrete signal of that register runs. -/
def withIndex (index : Nat) (signal : RegIdx → State → SignalResult) (s : State) : SignalResult :=
  if 15 < index then .raised (.invalidRegisterIndex index .outOfRange) s
  else signal (BitVec.ofNat 4 index) s

/-- Operand resolution (R124). -/
def resolve (k : Nat) (signal : RegIdx → State → SignalResult) (s : State) : SignalResult :=
  match operandField k s with
  | .ok index => withIndex index signal s
  | .error kind => .raised kind s

/-- `SEL_LEFT_ADDR` with the field F2 (R125) -/
def selLeftAddr (f2 : BitVec 16) (s : State) : SignalResult :=
  .done { s with left := some (zext16 f2) }

/-- `SEL_RIGHT_NUM` with the field F2 (R126) -/
def selRightNum (f2 : BitVec 16) (s : State) : SignalResult :=
  .done { s with right := some (immExt s.params f2) }

/-- A signal that uses F2, run on the field of the operand register (log 9). -/
def withF2 (signal : BitVec 16 → State → SignalResult) (s : State) : SignalResult :=
  match s.opr with
  | some o => signal (oprF2 o) s
  | none => .raised (.uninitialisedRead .opr) s

end Sys2Proof.Machine
end

