-- ==== Sys2Proof/Machine/Latches.lean ====
section
/-! DEFINITION. Machine/Latches.lean: the multiplexer selects and the latches (R122, R135-R141), the memory latch triggers
(R143, R144), the instruction and operand latches (R145, R146) and HALT (R147). -/

namespace Sys2Proof.Machine

/-- `SEL_PC_INC` and `SEL_PC_ADDR` (R135, R136) -/
def selPc (sel : PcSel) (s : State) : SignalResult := .done { s with pcSel := sel }

/-- `SEL_DATA_ALU` and `SEL_DATA_MEM` (R138) -/
def selData (sel : DataSel) (s : State) : SignalResult := .done { s with dataSel := sel }

/-- `SEL_MPC_INC`, `SEL_MPC_IR` and `SEL_MPC_ZERO` (R140) -/
def selMpc (sel : MpcSel) (s : State) : SignalResult := .done { s with mpcSel := sel }

/-- `LATCH_PC` (R137). `f2` is the operand field F(2), `none` where the operand register holds `⊥`; only `ADDR` reads it. -/
def latchPc (f2 : Option (BitVec 16)) (s : State) : SignalResult :=
  match s.pcSel with
  | .inc => .done { s with pc := s.pc + 1#16 }
  | .addr =>
    match f2 with
    | some target => .done { s with pc := target }
    | none => .raised (.uninitialisedRead .opr) s
  | .unset => .raised (.invalidMux .latchPc .pcSel) s

/-- `DataSource()` (R139), read by `LATCH_R<i>` -/
def dataSource (i : RegIdx) (s : State) : Except Fault Int :=
  match s.dataSel with
  | .alu =>
    match s.aluResult with
    | some v => .ok v
    | none => .error (.uninitialisedRead .aluResult)
  | .mem =>
    match s.memOut with
    | some v => .ok v
    | none => .error (.uninitialisedRead .memOut)
  | .unset => .error (.invalidMux (.latchR i) .dataSel)

/-- `LATCH_R<i>` (R122): `r0` rejects the write before the data source is read. -/
def latchReg (i : RegIdx) (s : State) : SignalResult :=
  if i = 0#4 then .raised (.invalidRegisterIndex 0 .immutable) s
  else match dataSource i s with
    | .ok v => .done (s.setReg i v)
    | .error kind => .raised kind s

/-- The last two lines of `LATCH_MPC` (R141): a next row outside the ROM faults. -/
def gotoRow (next : Nat) (s : State) : SignalResult :=
  if h : next < 30 then .done { s with mpc := ⟨next, h⟩ } else .raised (.mpcOutOfRange next) s

/-- `LATCH_MPC` in row `base` (R141). The stride goes back to 1 on an INC latch, before the range check (log 11). -/
def latchMpc (base : RomRow) (s : State) : SignalResult :=
  match s.mpcSel with
  | .inc => gotoRow (base.val + s.stride.toNat) { s with stride := .one }
  | .ir =>
    match s.ir with
    | some row => .done { s with mpc := row }
    | none => .raised (.uninitialisedRead .ir) s
  | .zero => .done { s with mpc := 0 }
  | .unset => .raised (.invalidMux .latchMpc .mpcSel) s

/-- `MEM_READ` (R143): the address is on the left wire. -/
def memReadSignal (s : State) : SignalResult :=
  match s.left with
  | none => .raised (.uninitialisedRead .leftWire) s
  | some a =>
    match memRead a s with
    | .ok (v, t) => .done { t with memOut := some v }
    | .error kind => .raised kind s

/-- `MEM_WRITE` (R144): the address is on the left wire, the value on the right. Where both hold `⊥` the left one is named
(log 10). -/
def memWriteSignal (s : State) : SignalResult :=
  match s.left, s.right with
  | none, _ => .raised (.uninitialisedRead .leftWire) s
  | some _, none => .raised (.uninitialisedRead .rightWire) s
  | some a, some v =>
    match memWrite a v s with
    | .ok t => .done t
    | .error kind => .raised kind s

/-- The fault of a rejected word (R96). -/
def rejectFault : Reject → Fault
  | .notInTable opcode flag => .decodeError opcode flag

/-- `LATCH_IR` (R145): fetch at `pc`, decode, latch the entry line, count the instruction. -/
def latchIr (s : State) : SignalResult :=
  match imemRead s.pc.toNat s with
  | .error kind => .raised kind s
  | .ok w =>
    match decodeEntry s.params.opc w with
    | .error e => .raised (rejectFault e) s
    | .ok entry => .done { s with ir := some entry, icount := s.icount + 1 }

/-- `LATCH_OPR` (R146) -/
def latchOpr (s : State) : SignalResult :=
  match imemRead s.pc.toNat s with
  | .error kind => .raised kind s
  | .ok w => .done { s with opr := some (oprField w) }

/-- `HALT` (R147) -/
def haltSignal (s : State) : SignalResult := .done { s with status := .halted }

/-- `RET`, the two signals that end an instruction's last row, `row` (R173) -/
def ret (row : RomRow) : List RowOp :=
  [⟨.signal .selMpcZero, selMpc .zero⟩, ⟨.signal .latchMpc, latchMpc row⟩]

end Sys2Proof.Machine
end

