-- ==== Sys2Proof/Machine/Alu.lean ====
section
/-! DEFINITION. Machine/Alu.lean: ADD, SUB, MUL and AND in register and immediate form (R220-R227). -/

namespace Sys2Proof.Machine

/-- What follows the operand selects in an ALU row: compute, choose the ALU as the data source, latch `rd`, return. -/
def aluTail (row : RomRow) (op : AluOp) (rd : RegIdx) : List RowOp :=
  [⟨.signal (.alu op), alu op⟩, ⟨.signal .selDataAlu, selData .alu⟩, ⟨.latchOp 0, latchReg rd⟩] ++ ret row

/-- The register form: `L(1), Rt(2), ALU_op, SEL_DATA_ALU, W(0), RET`; F2 is a register index. -/
def aluRegister (row : RomRow) (op : AluOp) (rd rs1 : RegIdx) (f2 : BitVec 16) (s : State) : State :=
  runRow row
    (⟨.selLeftOp 1, selLeft rs1⟩ :: ⟨.selRightOp 2, withIndex f2.toNat selRight⟩ :: aluTail row op rd) s

/-- The immediate form: `L(1), SEL_RIGHT_NUM, ALU_op, SEL_DATA_ALU, W(0), RET`. -/
def aluImmediate (row : RomRow) (op : AluOp) (rd rs1 : RegIdx) (f2 : BitVec 16) (s : State) : State :=
  runRow row
    (⟨.selLeftOp 1, selLeft rs1⟩ :: ⟨.signal .selRightNum, selRightNum f2⟩ :: aluTail row op rd) s

/-- R220 -/
def execAddReg (rd rs1 : RegIdx) (f2 : BitVec 16) (s : State) : Host.Outcome State Fault Refusal :=
  .next (aluRegister 5 .add rd rs1 f2 s)

/-- R221 -/
def execAddImm (rd rs1 : RegIdx) (f2 : BitVec 16) (s : State) : Host.Outcome State Fault Refusal :=
  .next (aluImmediate 6 .add rd rs1 f2 s)

/-- R222 -/
def execSubReg (rd rs1 : RegIdx) (f2 : BitVec 16) (s : State) : Host.Outcome State Fault Refusal :=
  .next (aluRegister 7 .sub rd rs1 f2 s)

/-- R223 -/
def execSubImm (rd rs1 : RegIdx) (f2 : BitVec 16) (s : State) : Host.Outcome State Fault Refusal :=
  .next (aluImmediate 8 .sub rd rs1 f2 s)

/-- R224 -/
def execMulReg (rd rs1 : RegIdx) (f2 : BitVec 16) (s : State) : Host.Outcome State Fault Refusal :=
  .next (aluRegister 9 .mul rd rs1 f2 s)

/-- R225 -/
def execMulImm (rd rs1 : RegIdx) (f2 : BitVec 16) (s : State) : Host.Outcome State Fault Refusal :=
  .next (aluImmediate 10 .mul rd rs1 f2 s)

/-- R226 -/
def execAndReg (rd rs1 : RegIdx) (f2 : BitVec 16) (s : State) : Host.Outcome State Fault Refusal :=
  .next (aluRegister 11 .and rd rs1 f2 s)

/-- R227 -/
def execAndImm (rd rs1 : RegIdx) (f2 : BitVec 16) (s : State) : Host.Outcome State Fault Refusal :=
  .next (aluImmediate 12 .and rd rs1 f2 s)

end Sys2Proof.Machine
end

