-- ==== Sys2Proof/Machine/Control.lean ====
section
/-! DEFINITION. Machine/Control.lean: NOP, HALT, the four conditional branches and JUMP (R260-R267). -/

namespace Sys2Proof.Machine

/-- The row that commits a target: `SEL_PC_ADDR, LATCH_PC, RET` (R173, R177). -/
def commitRow (row : RomRow) (f2 : BitVec 16) (s : State) : State :=
  runRow row ([⟨.signal .selPcAddr, selPc .addr⟩, ⟨.signal .latchPc, latchPc (some f2)⟩] ++ ret row) s

/-- The test row of a branch (R177): compare `x[ra]` with `x[rb]`, set the stride, step the mpc. -/
def testRow (row : RomRow) (c : Cond) (ra rb : RegIdx) (s : State) : State :=
  runRow row
    [⟨.selLeftOp 0, selLeft ra⟩, ⟨.selRightOp 1, selRight rb⟩, ⟨.signal (.alu .sub), alu .sub⟩,
      ⟨.signal (.strideIf c), strideIf c⟩, ⟨.signal .selMpcInc, selMpc .inc⟩, ⟨.signal .latchMpc, latchMpc row⟩] s

/-- A conditional branch (R177): the test row, then the commit row when the stride led there, else the fall-through row.
Where the test row ended the run, the second row does nothing. -/
def branch (test fall take : RomRow) (c : Cond) (ra rb : RegIdx) (f2 : BitVec 16) (s : State) : State :=
  let t := testRow test c ra rb s
  if t.mpc = take then commitRow take f2 t else runRow fall (ret fall) t

/-- R260 -/
def execNop (s : State) : Host.Outcome State Fault Refusal := .next (runRow 3 (ret 3) s)

/-- R261 -/
def execHalt (s : State) : Host.Outcome State Fault Refusal := .next (runRow 4 [⟨.signal .halt, haltSignal⟩] s)

/-- R262 -/
def execBeq (ra rb : RegIdx) (f2 : BitVec 16) (s : State) : Host.Outcome State Fault Refusal :=
  .next (branch 17 18 19 .z ra rb f2 s)

/-- R263 -/
def execBne (ra rb : RegIdx) (f2 : BitVec 16) (s : State) : Host.Outcome State Fault Refusal :=
  .next (branch 20 21 22 .nz ra rb f2 s)

/-- R264 -/
def execBgt (ra rb : RegIdx) (f2 : BitVec 16) (s : State) : Host.Outcome State Fault Refusal :=
  .next (branch 23 24 25 .pos ra rb f2 s)

/-- R265 -/
def execBlt (ra rb : RegIdx) (f2 : BitVec 16) (s : State) : Host.Outcome State Fault Refusal :=
  .next (branch 26 27 28 .neg ra rb f2 s)

/-- R266 -/
def execJump (f2 : BitVec 16) (s : State) : Host.Outcome State Fault Refusal := .next (commitRow 29 f2 s)

end Sys2Proof.Machine
end

