-- ==== Sys2Proof/Machine/LoadStore.lean ====
section
/-! DEFINITION. Machine/LoadStore.lean: LOAD_WORD and WRITE_WORD in register and address form (R240-R243). -/

namespace Sys2Proof.Machine

/-- A load row after its address select: `MEM_READ, SEL_DATA_MEM, W(0), RET`. -/
def loadTail (row : RomRow) (rd : RegIdx) : List RowOp :=
  [⟨.signal .memRead, memReadSignal⟩, ⟨.signal .selDataMem, selData .mem⟩, ⟨.latchOp 0, latchReg rd⟩] ++ ret row

/-- A store row after its address select: `Rt(0), MEM_WRITE, RET`. -/
def storeTail (row : RomRow) (rs : RegIdx) : List RowOp :=
  [⟨.selRightOp 0, selRight rs⟩, ⟨.signal .memWrite, memWriteSignal⟩] ++ ret row

/-- R240: `L(1)`, then the load -/
def execLoadReg (rd ra : RegIdx) (s : State) : Host.Outcome State Fault Refusal :=
  .next (runRow 13 (⟨.selLeftOp 1, selLeft ra⟩ :: loadTail 13 rd) s)

/-- R241: `SEL_LEFT_ADDR`, then the load -/
def execLoadAddr (rd : RegIdx) (f2 : BitVec 16) (s : State) : Host.Outcome State Fault Refusal :=
  .next (runRow 14 (⟨.signal .selLeftAddr, selLeftAddr f2⟩ :: loadTail 14 rd) s)

/-- R242: `L(1)`, then the store -/
def execWriteReg (rs ra : RegIdx) (s : State) : Host.Outcome State Fault Refusal :=
  .next (runRow 15 (⟨.selLeftOp 1, selLeft ra⟩ :: storeTail 15 rs) s)

/-- R243: `SEL_LEFT_ADDR`, then the store -/
def execWriteAddr (rs : RegIdx) (f2 : BitVec 16) (s : State) : Host.Outcome State Fault Refusal :=
  .next (runRow 16 (⟨.signal .selLeftAddr, selLeftAddr f2⟩ :: storeTail 16 rs) s)

end Sys2Proof.Machine
end

