-- ==== Sys2Proof/Machine/Dispatch.lean ====
section
/-! DEFINITION. Machine/Dispatch.lean: the meaning of every instruction, one arm per constructor. -/

namespace Sys2Proof.Machine

/-- The rows of an instruction after its fetch (R180). -/
def exec (i : Instr) (s : State) : Host.Outcome State Fault Refusal :=
  match i with
  | .nop => Sys2Proof.Machine.execNop s
  | .halt => Sys2Proof.Machine.execHalt s
  | .addReg rd rs1 f2 => Sys2Proof.Machine.execAddReg rd rs1 f2 s
  | .addImm rd rs1 f2 => Sys2Proof.Machine.execAddImm rd rs1 f2 s
  | .subReg rd rs1 f2 => Sys2Proof.Machine.execSubReg rd rs1 f2 s
  | .subImm rd rs1 f2 => Sys2Proof.Machine.execSubImm rd rs1 f2 s
  | .mulReg rd rs1 f2 => Sys2Proof.Machine.execMulReg rd rs1 f2 s
  | .mulImm rd rs1 f2 => Sys2Proof.Machine.execMulImm rd rs1 f2 s
  | .andReg rd rs1 f2 => Sys2Proof.Machine.execAndReg rd rs1 f2 s
  | .andImm rd rs1 f2 => Sys2Proof.Machine.execAndImm rd rs1 f2 s
  | .loadReg rd ra => Sys2Proof.Machine.execLoadReg rd ra s
  | .loadAddr rd f2 => Sys2Proof.Machine.execLoadAddr rd f2 s
  | .writeReg rs ra => Sys2Proof.Machine.execWriteReg rs ra s
  | .writeAddr rs f2 => Sys2Proof.Machine.execWriteAddr rs f2 s
  | .beq ra rb f2 => Sys2Proof.Machine.execBeq ra rb f2 s
  | .bne ra rb f2 => Sys2Proof.Machine.execBne ra rb f2 s
  | .bgt ra rb f2 => Sys2Proof.Machine.execBgt ra rb f2 s
  | .blt ra rb f2 => Sys2Proof.Machine.execBlt ra rb f2 s
  | .jump f2 => Sys2Proof.Machine.execJump f2 s

end Sys2Proof.Machine
end

