-- ==== Sys2Proof/Machine/Microcode.lean ====
section
/-! DEFINITION. Machine/Microcode.lean: the microarchitectural level, which R11 calls normative: what each signal does, the
30 rows of the microcode ROM (R173), and the tick (R170). -/

namespace Sys2Proof.Machine

/-- A concrete signal of the catalog (R148), each at its rule. F2 and the running row are taken from the state. -/
def execSignal : Signal → State → SignalResult
  | .latchR i, s => latchReg i s
  | .selLeftR i, s => selLeft i s
  | .selRightR i, s => selRight i s
  | .alu op, s => alu op s
  | .selPcInc, s => selPc .inc s
  | .selPcAddr, s => selPc .addr s
  | .latchPc, s => latchPc (s.opr.map oprF2) s
  | .selDataAlu, s => selData .alu s
  | .selDataMem, s => selData .mem s
  | .selMpcInc, s => selMpc .inc s
  | .selMpcIr, s => selMpc .ir s
  | .selMpcZero, s => selMpc .zero s
  | .latchMpc, s => latchMpc s.mpc s
  | .strideIf c, s => strideIf c s
  | .selLeftAddr, s => withF2 selLeftAddr s
  | .selRightNum, s => withF2 selRightNum s
  | .memRead, s => memReadSignal s
  | .memWrite, s => memWriteSignal s
  | .latchIr, s => latchIr s
  | .latchOpr, s => latchOpr s
  | .halt, s => haltSignal s

/-- A ROM entry: a concrete signal, or an operand-relative form resolved by R124. -/
def execEntry : RomEntry → State → SignalResult
  | .signal sig, s => execSignal sig s
  | .selLeftOp k, s => resolve k selLeft s
  | .selRightOp k, s => resolve k selRight s
  | .latchOp k, s => resolve k latchReg s

/-- The catalog, signal by signal (R148). -/
def signalCatalog : List Signal :=
  (List.range 16).map (fun i => Signal.latchR (BitVec.ofNat 4 i))
    ++ (List.range 16).map (fun i => Signal.selLeftR (BitVec.ofNat 4 i))
    ++ (List.range 16).map (fun i => Signal.selRightR (BitVec.ofNat 4 i))
    ++ [.alu .add, .alu .sub, .alu .mul, .alu .and]
    ++ [.selPcInc, .selPcAddr, .latchPc]
    ++ [.selDataAlu, .selDataMem]
    ++ [.selMpcInc, .selMpcIr, .selMpcZero, .latchMpc]
    ++ [.strideIf .z, .strideIf .nz, .strideIf .pos, .strideIf .neg]
    ++ [.selLeftAddr, .selRightNum]
    ++ [.memRead, .memWrite]
    ++ [.latchIr, .latchOpr]
    ++ [.halt]

/-- `RET` (R173). -/
def romRet : List RomEntry := [.signal .selMpcZero, .signal .latchMpc]

/-- Rows 5, 7, 9 and 11 (R173). -/
def romAluReg (op : AluOp) : List RomEntry :=
  [.selLeftOp 1, .selRightOp 2, .signal (.alu op), .signal .selDataAlu, .latchOp 0] ++ romRet

/-- Rows 6, 8, 10 and 12 (R173). -/
def romAluImm (op : AluOp) : List RomEntry :=
  [.selLeftOp 1, .signal .selRightNum, .signal (.alu op), .signal .selDataAlu, .latchOp 0] ++ romRet

/-- Rows 17, 20, 23 and 26 (R173). -/
def romTest (c : Cond) : List RomEntry :=
  [.selLeftOp 0, .selRightOp 1, .signal (.alu .sub), .signal (.strideIf c), .signal .selMpcInc, .signal .latchMpc]

/-- Rows 19, 22, 25, 28 and 29 (R173). -/
def romTake : List RomEntry := [.signal .selPcAddr, .signal .latchPc] ++ romRet

/-- The microcode ROM, row by row (R173, D9). -/
def romTable : Vector (List RomEntry) 30 := #v[
  [.signal .selPcInc, .signal .latchPc, .signal .selMpcInc, .signal .latchMpc],
  [.signal .latchIr, .signal .latchOpr, .signal .selMpcInc, .signal .latchMpc],
  [.signal .selMpcIr, .signal .latchMpc],
  romRet,
  [.signal .halt],
  romAluReg .add,
  romAluImm .add,
  romAluReg .sub,
  romAluImm .sub,
  romAluReg .mul,
  romAluImm .mul,
  romAluReg .and,
  romAluImm .and,
  [.selLeftOp 1, .signal .memRead, .signal .selDataMem, .latchOp 0] ++ romRet,
  [.signal .selLeftAddr, .signal .memRead, .signal .selDataMem, .latchOp 0] ++ romRet,
  [.selLeftOp 1, .selRightOp 0, .signal .memWrite] ++ romRet,
  [.signal .selLeftAddr, .selRightOp 0, .signal .memWrite] ++ romRet,
  romTest .z,
  romRet,
  romTake,
  romTest .nz,
  romRet,
  romTake,
  romTest .pos,
  romRet,
  romTake,
  romTest .neg,
  romRet,
  romTake,
  romTake]

/-- Row `row` of the ROM. -/
def rom (row : RomRow) : List RomEntry := romTable[row]

/-- The signals of a ROM row, in list order. -/
def romOps (row : RomRow) : List RowOp := (rom row).map fun e => ⟨e, execEntry e⟩

/-- `Tick()` (R170): the row is the mpc at the start of the tick. -/
def runTick (s : State) : State := runRow s.mpc (romOps s.mpc) s

/-- `n` ticks (R171); a state whose run has ended stays as it is. -/
def runTicks : Nat → State → State
  | 0, s => s
  | n + 1, s => runTicks n (runTick s)

/-! ### The states of the source (R181) -/

/-- The state machine view: FETCH, DECODE, EXECUTING(mpc), HALTED, FAULTED and the timeout outcome. -/
inductive Phase where
  | fetch
  | decode
  | executing (row : RomRow)
  | halted
  | faulted
  | timeout
deriving DecidableEq, Repr

/-- R181, D35: a view, no state of its own. -/
def State.phase (s : State) : Phase :=
  match s.status with
  | .running => if s.mpc = 0 then .fetch else if s.mpc ≤ 2 then .decode else .executing s.mpc
  | .halted => .halted
  | .faulted _ => .faulted
  | .timeout => .timeout

end Sys2Proof.Machine
end

