-- ==== Sys2Proof/Machine/Fetch.lean ====
section
/-! DEFINITION. Machine/Fetch.lean: the fetch of an instruction, ROM rows 0 to 2 (R174-R176, R180), and placing a word where
the next fetch reads it. -/

namespace Sys2Proof.Machine

/-- Between two instructions: the next tick runs row 0 with a single stride (R178). -/
def State.atBoundary (s : State) : Bool := s.mpc = 0 && s.stride = .one

/-- The instruction at an instruction address, where there is one and its word decodes (R62, R96). -/
def State.instrAt (s : State) (a : Nat) : Option Instr :=
  match imemRead a s with
  | .error _ => none
  | .ok w =>
    match decode s.params.opc w with
    | .ok i => some i
    | .error _ => none

/-- What a fetch gives: an instruction and the state its rows start in, or the state in which the run ended (a fault in
row 1, or the budget used up). -/
inductive Fetched where
  | instr (i : Instr) (s : State)
  | ended (s : State)
deriving DecidableEq, Repr

/-- Rows 0, 1 and 2 (R174, R175, R176). While they run, `pc` already is the address of the instruction (R27). -/
def fetch (s : State) : Fetched :=
  let t := runTicks 3 s
  match t.status, t.instrAt t.pc.toNat with
  | .running, some i => .instr i t
  | _, _ => .ended t

/-- The ROM rows an instruction runs, its three fetch rows included (R319). HALT runs row 4, though `tick` does not count
it. -/
def rowsOf : Instr → Nat
  | .nop => 4
  | .halt => 4
  | .addReg _ _ _ => 4
  | .addImm _ _ _ => 4
  | .subReg _ _ _ => 4
  | .subImm _ _ _ => 4
  | .mulReg _ _ _ => 4
  | .mulImm _ _ _ => 4
  | .andReg _ _ _ => 4
  | .andImm _ _ _ => 4
  | .loadReg _ _ => 4
  | .loadAddr _ _ => 4
  | .writeReg _ _ => 4
  | .writeAddr _ _ => 4
  | .beq _ _ _ => 5
  | .bne _ _ _ => 5
  | .bgt _ _ _ => 5
  | .blt _ _ _ => 5
  | .jump _ => 4

/-- The ticks of a `step` (R319): from between two instructions the rows of the next one, else one. Where no instruction
can be fetched the run ends in row 1, and the rest of the four ticks do nothing (R182). -/
def stepRows (s : State) : Nat :=
  if s.atBoundary then
    match s.instrAt (s.pc + 1#16).toNat with
    | some i => rowsOf i
    | none => 4
  else 1

/-- The image with `w` as its element `k`, that is at instruction address `k + 1`, padded with NOP words where it is too
short. -/
def placeWord (image : List InstrWord) (k : Nat) (w : InstrWord) : List InstrWord :=
  (image ++ List.replicate (k + 1 - image.length) 0).set k w

/-- The next fetch address: `pc + 1` (R174), where the wrap to the unmapped address 0 is avoided by starting at 0. -/
def pcBeforeFetch (pc : BitVec 16) : BitVec 16 := if pc = 0xFFFF#16 then 0#16 else pc

/-- A budget that does not run out within the five ticks of one instruction (R319). -/
def limitBeyond (tick limit : Nat) : Nat := if tick ≤ limit ∧ limit < tick + 6 then tick + 6 else limit

end Sys2Proof.Machine
end

