-- ==== Sys2Proof/Machine/Step.lean ====
section
/-! DEFINITION. Machine/Step.lean: one step of the machine, and placing the next instruction. -/

namespace Sys2Proof.Machine

/-- One step (log 3, log 4). While the run goes on, from between two instructions: one whole instruction cycle (R180), the
fetch and then the instruction's rows; from inside an instruction, where no step from a boundary leaves a running machine:
one tick. After the end of a run no tick runs (R182), so the state stays as it is. -/
def step (s : State) : Host.Outcome State Fault Refusal :=
  match s.status with
  | .running =>
    if s.atBoundary then
      match fetch s with
      | .instr i t => exec i t
      | .ended t => .next t
    else .next (runTick s)
  | _ => .next s

/-- `s` with the instruction word `w` where `step` fetches its next instruction (log 12): in the image at `pc + 1`, between
two instructions of a run that goes on, with a budget that lasts for one instruction. It stands for a launch. -/
def State.withFetchWord (s : State) (nbits w : Nat) : State :=
  { s with
    status := .running
    mpc := 0
    stride := .one
    pc := pcBeforeFetch s.pc
    imem := placeWord s.imem (pcBeforeFetch s.pc).toNat (BitVec.ofNat 32 (w % 2 ^ nbits))
    params := { s.params with tickLimit := limitBeyond s.tick s.params.tickLimit } }

end Sys2Proof.Machine
end

