-- ==== Sys2Proof/Machine/Launch.lean ====
section
/-! DEFINITION. Machine/Launch.lean: the host's interface (R315): the launch and its premises (R310-R313), and the read-out
after a run (R182, R316). -/

namespace Sys2Proof.Machine

/-- `v` is a word value under the given bounds (R5). -/
def inRange (p : Params) (v : Int) : Bool := decide (p.minNumber ≤ v) && decide (v ≤ p.maxNumber)

/-- An element that holds a value holds a word value. -/
def heldInRange (p : Params) (v : Option Int) : Bool :=
  match v with
  | some v => inRange p v
  | none => true

/-- What each premise of R313 asks of a launch. -/
def premiseHolds (l : Launch) : LaunchPremise → Bool
  | .imageLength => 1 ≤ l.image.length && l.image.length ≤ 65535
  | .imageWords => l.image.all fun e => e.word.isSome
  | .dataImageLength => l.dataImage.length + 2 ≤ l.params.dmemSize
  | .valuesInRange =>
    l.dataImage.all (inRange l.params) && l.input.all (inRange l.params)
      && l.preload.toList.all (heldInRange l.params)
  | .boundsAroundZero => decide (l.params.minNumber ≤ 0) && decide (0 ≤ l.params.maxNumber)
  | .dmemSizeAtLeastTwo => 2 ≤ l.params.dmemSize
  | .preloadRegisters => l.preload[0].isNone

/-- The premises in the order of R313. -/
def launchPremises : List LaunchPremise :=
  [.imageLength, .imageWords, .dataImageLength, .valuesInRange, .boundsAroundZero, .dmemSizeAtLeastTwo, .preloadRegisters]

/-- The data memory of a data image: element `j` at address `2 + j` (R64). -/
def dataCells : Nat → List Int → Memory
  | _, [] => []
  | a, v :: vs => (a, v) :: dataCells (a + 1) vs

/-- Nothing given: no image, no data, no input, no preload. It is no legal launch (R313, premise 1); the state it would
build is `State.reset` (log 12). -/
def Launch.nothing : Launch where
  image := []
  dataImage := []
  input := []
  preload := Vector.replicate 16 none
  params := Params.default

/-- The state a launch builds (R38, R310). -/
def Launch.initial (l : Launch) : State :=
  { State.reset with
    regs := Vector.ofFn fun i => l.preload[i.val + 1]
    imem := l.image.filterMap ImageEntry.word
    dmem := dataCells 2 l.dataImage
    inbuf := l.input ++ [0]
    params := l.params }

/-- A launch (R312, R313): refused at the first premise it breaks, else the reset state. -/
def launch (l : Launch) : Host.Outcome State Fault Refusal :=
  match launchPremises.find? fun p => !premiseHolds l p with
  | some p => .refused (.launchRefused p)
  | none => .next (Launch.initial l)

/-! ### The end of a run -/

/-- The outcome of a run (R182). -/
inductive RunOutcome where
  | halted
  | faulted (report : Report)
  | timeout
deriving DecidableEq, Repr

/-- The outcome, once the run has ended (R182). -/
def State.outcome (s : State) : Option RunOutcome :=
  match s.status with
  | .running => none
  | .halted => some .halted
  | .faulted r => some (.faulted r)
  | .timeout => some .timeout

/-- What the host reads after a run (R316): the outcome, the output buffer, the final state, and the statistics of R185. -/
structure ReadOut where
  outcome : RunOutcome
  output : List Int
  final : State
  ticks : Nat
  instructions : Nat
deriving DecidableEq, Repr

/-- The read-out, which exists only after the end of the run (R315). -/
def State.readOut (s : State) : Option ReadOut :=
  s.outcome.map fun o =>
    { outcome := o, output := s.outbuf, final := s, ticks := s.tick, instructions := s.icount }

end Sys2Proof.Machine
end

