-- ==== Sys2Proof/Safety.lean ====
section
/-! DEFINITION. Safety.lean: the invariants of the machine, and which faults a run of this ROM can raise (R179). -/

namespace Sys2Proof.Machine

/-- The bounds leave room for every value the two immediate selects put on a wire, `-32768..65535` (R93, R125, R126). The
default bounds do from `W = 17` on. -/
def fitsFields (p : Params) : Bool := decide (p.minNumber ≤ -32768) && decide (65535 ≤ p.maxNumber)

/-- Every element that holds a value holds a word value (R5). -/
def valuesInRange (s : State) : Bool :=
  s.regs.toList.all (heldInRange s.params)
    && heldInRange s.params s.left && heldInRange s.params s.right
    && heldInRange s.params s.aluResult && heldInRange s.params s.memOut
    && s.dmem.all (fun c => inRange s.params c.2)
    && s.inbuf.all (inRange s.params) && s.outbuf.all (inRange s.params)

/-- The data memory is in canonical form and lists only addresses below `DMEM_SIZE` (R60, R63). -/
def memoryWf (s : State) : Bool := s.dmem.wf && s.dmem.all fun c => decide (c.1 < s.params.dmemSize)

/-- `Z` and `N` are never both 1 (R26, C8). -/
def flagsExclusive (s : State) : Bool :=
  match s.flags with
  | some f => !(f.z && f.n)
  | none => true

/-- The invariant of the data state: word values in range, memory canonical, flags exclusive. -/
def State.inv (s : State) : Bool :=
  fitsFields s.params && valuesInRange s && memoryWf s && flagsExclusive s

/-- The entry lines of the decode table (R95). -/
def entryLines : List RomRow := decodeTable.map DecodeRow.entry

/-- The invariant of the control state while the run goes on (R174, R177, R179): a single stride, an operand register
once row 1 has run, and a decoded entry line in `ir` when row 2 dispatches on it. -/
def State.romInv (s : State) : Bool :=
  match s.status with
  | .running =>
    decide (s.stride = .one) && (decide (s.mpc < 2) || s.opr.isSome)
      && (decide (s.mpc ≠ 2) ||
        match s.ir with
        | some row => entryLines.contains row
        | none => false)
  | _ => true

/-- The faults that R179 says a run of this ROM can actually raise. -/
def reachableFault : Fault → Bool
  | .decodeError _ _ => true
  | .invalidMux _ _ => false
  | .invalidRegisterIndex _ _ => true
  | .invalidOperandIndex _ => false
  | .memoryAccessViolation _ _ _ => true
  | .inputExhausted => true
  | .instructionAddressOutOfRange _ => true
  | .dataAddressOutOfRange _ _ => true
  | .unsupportedAluOp _ => false
  | .uninitialisedRead (.register i) => i ≠ 0#4
  | .uninitialisedRead (.cell a) => decide (2 ≤ a)
  | .uninitialisedRead _ => false
  | .mpcOutOfRange _ => false

/-- A run that is not, or has not ended in, a fault. -/
def State.notFaulted (s : State) : Bool :=
  match s.status with
  | .faulted _ => false
  | _ => true

/-! ### Names for the forms a statement ranges over -/

/-- The register form of an ALU operation (R220, R222, R224, R226). -/
def aluRegInstr : AluOp → RegIdx → RegIdx → BitVec 16 → Instr
  | .add => .addReg
  | .sub => .subReg
  | .mul => .mulReg
  | .and => .andReg

/-- The immediate form of an ALU operation (R221, R223, R225, R227). -/
def aluImmInstr : AluOp → RegIdx → RegIdx → BitVec 16 → Instr
  | .add => .addImm
  | .sub => .subImm
  | .mul => .mulImm
  | .and => .andImm

/-- The branch with a condition: BEQ, BNE, BGT or BLT (R142, R262-R265). -/
def branchInstr : Cond → RegIdx → RegIdx → BitVec 16 → Instr
  | .z => .beq
  | .nz => .bne
  | .pos => .bgt
  | .neg => .blt

/-- When a branch is taken, on the wrapped difference `d` (R262-R265). -/
def taken : Cond → Int → Bool
  | .z, d => decide (d = 0)
  | .nz, d => decide (d ≠ 0)
  | .pos, d => decide (0 < d)
  | .neg, d => decide (d < 0)

/-- The run goes on and the budget lasts for one more row (R170). -/
abbrev State.canRun (s : State) : Prop := s.status = .running ∧ s.tick ≠ s.params.tickLimit

end Sys2Proof.Machine
end

