-- ==== Sys2Proof/Certificates/Slice0/Obligations.lean ====
section
/-! DEFINITION. Certificates/Slice0/Obligations.lean: the statements for the provers. Each docstring names the rules it
formalises. A fault is a next state whose status is FAULTED (log 2), so a statement about a fault has the form
`… = .next (takeFault …)`. -/

open Sys2Proof Sys2Proof.Machine

/-! ### Encoding -/

/-- R90, R94, R95: no bit of an encoding is dropped, whatever the opcode numbers are (R4: `OPC` is a parameter). -/
def Obligations.DecodeOfEncodeIsIdentity : Prop :=
  ∀ opc : OpcodeNumbers, opc.Distinct → ∀ i : Instr, decode opc (encode opc i) = .ok i

/-- R93, R96, R98: a word that decodes to `i` is the encoding of `i` in the opcode, FLAG and used fields; only bits that
the form ignores can differ. -/
def Obligations.EncodeOfDecodeKeepsUsedBits : Prop :=
  ∀ (opc : OpcodeNumbers) (w : InstrWord) (i : Instr), decode opc w = .ok i →
    encode opc i = w &&& (0xFE000001#32 ||| (0#7 ++ i.usedMask ++ 0#1))

/-- R95, column "match", and its entry lines. -/
def matchTable : List (InstrWord × RomRow) := [
  (0x00000000#32, 3), (0x02000000#32, 4), (0x04000000#32, 5), (0x04000001#32, 6), (0x06000000#32, 7),
  (0x06000001#32, 8), (0x08000000#32, 9), (0x08000001#32, 10), (0x0A000000#32, 11), (0x0A000001#32, 12),
  (0x0C000000#32, 13), (0x0C000001#32, 14), (0x0E000000#32, 15), (0x0E000001#32, 16), (0x10000001#32, 17),
  (0x12000001#32, 20), (0x14000001#32, 23), (0x16000001#32, 26), (0x18000001#32, 29)]

/-- R94, R95, R96: the decode table by match and mask under the default numbers, its rows and only these; under any
distinct numbers the table is read by its mnemonics, so that only the match values change; and under any numbers the
instruction has the key and the entry line of its row. -/
def Obligations.DecodeTableByMatchAndMask : Prop :=
  (∀ w : InstrWord,
    (∀ m row, (m, row) ∈ matchTable → w &&& 0xFE000001#32 = m → decodeEntry OpcodeNumbers.listed w = .ok row) ∧
    ((∀ m row, (m, row) ∈ matchTable → w &&& 0xFE000001#32 ≠ m) →
      decodeEntry OpcodeNumbers.listed w = .error (.notInTable (w.extractLsb' 25 7) (w.extractLsb' 0 1)) ∧
      decode OpcodeNumbers.listed w = .error (.notInTable (w.extractLsb' 25 7) (w.extractLsb' 0 1)))) ∧
  (∀ (opc : OpcodeNumbers) (w : InstrWord) (r : DecodeRow), opc.Distinct → r ∈ decodeTable →
    w.extractLsb' 25 7 = opc.number r.opcode → w.extractLsb' 0 1 = r.flag → decodeEntry opc w = .ok r.entry) ∧
  (∀ (opc : OpcodeNumbers) (w : InstrWord),
    (∀ r ∈ decodeTable, w.extractLsb' 25 7 = opc.number r.opcode → w.extractLsb' 0 1 ≠ r.flag) →
    decodeEntry opc w = .error (.notInTable (w.extractLsb' 25 7) (w.extractLsb' 0 1))) ∧
  (∀ (opc : OpcodeNumbers) (w : InstrWord) (i : Instr), decode opc w = .ok i →
    decodeEntry opc w = .ok i.entryLine ∧ encode opc i &&& 0xFE000001#32 = w &&& 0xFE000001#32)

/-- R97: which (opcode, FLAG) pairs are illegal under the numbers of R94, that there are 237 of them, and that fetching
one faults. -/
def Obligations.IllegalEncodingsFault : Prop :=
  (∀ (w : InstrWord) (s : State), s.params.opc = OpcodeNumbers.listed → imemRead s.pc.toNat s = .ok w →
    (13 ≤ w.toNat / 2 ^ 25 ∨ (w.toNat / 2 ^ 25 ≤ 1 ∧ w.toNat % 2 = 1) ∨
      (8 ≤ w.toNat / 2 ^ 25 ∧ w.toNat / 2 ^ 25 ≤ 12 ∧ w.toNat % 2 = 0)) →
    latchIr s = .raised (.decodeError (w.extractLsb' 25 7) (w.extractLsb' 0 1)) s) ∧
  (∀ w : InstrWord,
    ¬ (13 ≤ w.toNat / 2 ^ 25 ∨ (w.toNat / 2 ^ 25 ≤ 1 ∧ w.toNat % 2 = 1) ∨
      (8 ≤ w.toNat / 2 ^ 25 ∧ w.toNat / 2 ^ 25 ≤ 12 ∧ w.toNat % 2 = 0)) →
    ∃ i, decode OpcodeNumbers.listed w = .ok i) ∧
  ((List.range 256).filter fun n =>
    (lookupRow OpcodeNumbers.listed (BitVec.ofNat 7 (n / 2)) (BitVec.ofNat 1 (n % 2))).isNone).length = 237

/-- R92, with `w[hi:lo]` the unsigned integer of R7; `opr(w)` is the three operand fields in order. -/
def Obligations.FieldsOfAWord : Prop :=
  ∀ w : InstrWord,
    (opcodeField w).toNat = w.toNat / 2 ^ 25 ∧
    (rbField w).toNat = w.toNat / 2 ^ 21 % 2 ^ 4 ∧
    (r1Field w).toNat = w.toNat / 2 ^ 17 % 2 ^ 4 ∧
    (f2Field w).toNat = w.toNat / 2 % 2 ^ 16 ∧
    (flagField w).toNat = w.toNat % 2 ∧
    (oprField w).toNat = w.toNat / 2 % 2 ^ 24 ∧
    oprField w = rbField w ++ r1Field w ++ f2Field w ∧
    oprRb (oprField w) = rbField w ∧ oprR1 (oprField w) = r1Field w ∧ oprF2 (oprField w) = f2Field w

/-- R91: the string form of a word; an entry that is no word makes the launch refused. -/
def Obligations.ImageStringForm : Prop :=
  (∀ (cs : List Char) (w : InstrWord), wordOfChars cs = some w ↔
    cs.length = 32 ∧ ∀ k, k < 32 → cs[k]? = some (if w.getLsbD (31 - k) then '1' else '0')) ∧
  (∀ (cs : List Char) (w : InstrWord), wordOfChars cs = some w ↔ cs = charsOfWord w) ∧
  (∀ cs : List Char, wordOfChars cs = none ↔ cs.length ≠ 32 ∨ ∃ c ∈ cs, c ≠ '0' ∧ c ≠ '1') ∧
  (∀ w : InstrWord, ImageEntry.word (.number w.toNat) = ImageEntry.word (.text (charsOfWord w))) ∧
  (∀ l : Launch, (∃ e ∈ l.image, e.word = none) → ∃ p, launch l = .refused (.launchRefused p))

/-- R100, and words of every mnemonic from the spec's examples and from R90, R94 and R95. -/
def Obligations.WorkedWords : Prop :=
  encode OpcodeNumbers.listed (.addReg 1 2 3) = 0x04240006#32 ∧ decodeEntry OpcodeNumbers.listed 0x04240006#32 = .ok 5 ∧
  wordOfChars "00000100001001000000000000000110".toList = some 0x04240006#32 ∧
  decode OpcodeNumbers.listed 0x04240006#32 = .ok (.addReg 1 2 3) ∧
  decode OpcodeNumbers.listed 0x0421FFF7#32 = .ok (.addImm 1 0 0xFFFB#16) ∧
  decode OpcodeNumbers.listed 0x06220003#32 = .ok (.subImm 1 1 1) ∧
  decode OpcodeNumbers.listed 0x08620004#32 = .ok (.mulReg 3 1 2) ∧
  decode OpcodeNumbers.listed 0x0A25FFFF#32 = .ok (.andImm 1 2 0xFFFF#16) ∧
  decode OpcodeNumbers.listed 0x0CA80000#32 = .ok (.loadReg 5 4) ∧
  decode OpcodeNumbers.listed 0x0C200001#32 = .ok (.loadAddr 1 0) ∧
  decode OpcodeNumbers.listed 0x0E240000#32 = .ok (.writeReg 1 2) ∧
  decode OpcodeNumbers.listed 0x0E200003#32 = .ok (.writeAddr 1 1) ∧
  decode OpcodeNumbers.listed 0x10240005#32 = .ok (.beq 1 2 2) ∧
  decode OpcodeNumbers.listed 0x12200005#32 = .ok (.bne 1 0 2) ∧
  decode OpcodeNumbers.listed 0x14240005#32 = .ok (.bgt 1 2 2) ∧
  decode OpcodeNumbers.listed 0x16240009#32 = .ok (.blt 1 2 4) ∧
  decode OpcodeNumbers.listed 0x18000001#32 = .ok (.jump 0) ∧
  decode OpcodeNumbers.listed 0x00000000#32 = .ok .nop ∧
  decode OpcodeNumbers.listed 0x021FFFFE#32 = .ok .halt

/-! ### Words and arithmetic -/

/-- R8: the two extensions, and `wrap`, which maps any integer into the word range and is two's-complement reduction with
the default bounds. -/
def Obligations.ExtensionAndWrap : Prop :=
  (∀ f : BitVec 16, zext16 f = f.toNat ∧ 0 ≤ zext16 f ∧ zext16 f ≤ 65535) ∧
  (∀ f : BitVec 16, (f.toNat < 2 ^ 15 → sext16 f = f.toNat) ∧ (2 ^ 15 ≤ f.toNat → sext16 f = (f.toNat : Int) - 2 ^ 16) ∧
    -32768 ≤ sext16 f ∧ sext16 f ≤ 32767) ∧
  (∀ (p : Params) (v : Int), p.minNumber ≤ p.maxNumber →
    wrap p v = p.minNumber + (v - p.minNumber) % (p.maxNumber - p.minNumber + 1) ∧
    p.minNumber ≤ wrap p v ∧ wrap p v ≤ p.maxNumber ∧
    (p.minNumber ≤ v → v ≤ p.maxNumber → wrap p v = v) ∧
    ∃ k : Int, v = wrap p v + k * (p.maxNumber - p.minNumber + 1)) ∧
  (∀ (width dmemSize tickLimit : Nat) (v : Int), 0 < width →
    wrap (Params.ofWidth width dmemSize tickLimit) v = (BitVec.ofInt width v).toInt)

/-- R128, R129, R130: ADD, SUB and MUL are the exact result, wrapped; with default bounds the W-bit two's-complement
operation; the examples of the rules; and the test rows subtract `x[R1]` from `x[RB]`. -/
def Obligations.AddSubMulWrapTheExactResult : Prop :=
  (∀ (p : Params) (l r : Int), aluValue p .add l r = wrap p (l + r) ∧ aluValue p .sub l r = wrap p (l - r) ∧
    aluValue p .mul l r = wrap p (l * r)) ∧
  (∀ (width dmemSize tickLimit : Nat) (l r : Int), 0 < width →
    aluValue (Params.ofWidth width dmemSize tickLimit) .add l r = (BitVec.ofInt width l + BitVec.ofInt width r).toInt ∧
    aluValue (Params.ofWidth width dmemSize tickLimit) .sub l r = (BitVec.ofInt width l - BitVec.ofInt width r).toInt ∧
    aluValue (Params.ofWidth width dmemSize tickLimit) .mul l r = (BitVec.ofInt width l * BitVec.ofInt width r).toInt) ∧
  (∀ p : Params, p.minNumber ≤ p.maxNumber →
    aluValue p .add p.maxNumber 1 = p.minNumber ∧ aluValue p .add p.minNumber (-1) = p.maxNumber ∧
    aluValue p .sub p.minNumber 1 = p.maxNumber) ∧
  (∀ width dmemSize tickLimit : Nat, 0 < width →
    aluValue (Params.ofWidth width dmemSize tickLimit) .sub 0 (Params.ofWidth width dmemSize tickLimit).minNumber =
      (Params.ofWidth width dmemSize tickLimit).minNumber ∧
    aluValue (Params.ofWidth width dmemSize tickLimit) .mul (Params.ofWidth width dmemSize tickLimit).minNumber (-1) =
      (Params.ofWidth width dmemSize tickLimit).minNumber) ∧
  aluValue Params.default .mul 65536 65536 = 0 ∧
  aluValue Params.default .mul Params.default.maxNumber 2 = -2 ∧
  ∀ row ∈ ([17, 20, 23, 26] : List RomRow),
    (rom row).take 3 = [.selLeftOp 0, .selRightOp 1, .signal (.alu .sub)]

/-- R131: AND is the bitwise AND of the two's-complement representations, at every width; its sign is the AND of the
signs; with default bounds `wrap` changes nothing. -/
def Obligations.AndIsTwosComplementBitwise : Prop :=
  (∀ (w : Nat) (a b : Int), BitVec.ofInt w (andInt a b) = BitVec.ofInt w a &&& BitVec.ofInt w b) ∧
  (∀ a b : Int, andInt a b < 0 ↔ a < 0 ∧ b < 0) ∧
  (∀ (p : Params) (l r : Int), aluValue p .and l r = wrap p (andInt l r)) ∧
  (∀ (width dmemSize tickLimit : Nat) (l r : Int), 0 < width →
    inRange (Params.ofWidth width dmemSize tickLimit) l = true → inRange (Params.ofWidth width dmemSize tickLimit) r = true →
    aluValue (Params.ofWidth width dmemSize tickLimit) .and l r = andInt l r ∧
    aluValue (Params.ofWidth width dmemSize tickLimit) .and l r = (BitVec.ofInt width l &&& BitVec.ofInt width r).toInt) ∧
  andInt (-1) 5 = 5 ∧ andInt (-2) (-3) = -4 ∧ andInt 6 3 = 2

/-- R133: in range the result is exact and N is its sign; out of range the signal still completes; Z can be 1 with a
nonzero exact result; multiplying by 0; and the same register as both sources. -/
def Obligations.ArithmeticLaws : Prop :=
  (∀ (p : Params) (op : AluOp) (l r : Int), p.minNumber ≤ aluExact op l r → aluExact op l r ≤ p.maxNumber →
    aluValue p op l r = aluExact op l r ∧ ((flagsOf (aluValue p op l r)).n = true ↔ aluExact op l r < 0)) ∧
  (∀ (op : AluOp) (s : State) (l r : Int), s.left = some l → s.right = some r →
    ∃ t, alu op s = .done t ∧ t.aluResult = some (wrap s.params (aluExact op l r))) ∧
  (∀ (p : Params) (x : Int), p.minNumber ≤ 0 → 0 ≤ p.maxNumber →
    aluValue p .mul x 0 = 0 ∧ aluValue p .mul 0 x = 0 ∧ (flagsOf (aluValue p .mul x 0)).z = true ∧
    aluValue p .sub x x = 0) ∧
  (∀ (p : Params) (x : Int), aluValue p .mul x x = wrap p (x ^ 2)) ∧
  (flagsOf (aluValue Params.default .mul 65536 65536)).z = true ∧
  (flagsOf (aluValue Params.default .add Params.default.maxNumber 1)).n = true

/-- R125, R126: the two immediate selects write one wire and nothing else; the values are word values from `W = 17` on. -/
def Obligations.ImmediateSelectsGiveWordValues : Prop :=
  (∀ (s : State) (o : BitVec 24), s.opr = some o →
    execSignal .selLeftAddr s = .done { s with left := some ((o.toNat % 2 ^ 16 : Nat) : Int) }) ∧
  (∀ (s : State) (o : BitVec 24), s.opr = some o → s.params.immExt = .sext16 →
    execSignal .selRightNum s = .done { s with
      right := some (if o.toNat % 2 ^ 16 < 2 ^ 15 then ((o.toNat % 2 ^ 16 : Nat) : Int)
        else ((o.toNat % 2 ^ 16 : Nat) : Int) - 2 ^ 16) }) ∧
  (∀ (s : State) (o : BitVec 24), s.opr = some o → s.params.immExt = .zext16 →
    execSignal .selRightNum s = .done { s with right := some ((o.toNat % 2 ^ 16 : Nat) : Int) }) ∧
  (∀ (p : Params) (width dmemSize tickLimit : Nat) (f : BitVec 16), 17 ≤ width →
    p.minNumber = (Params.ofWidth width dmemSize tickLimit).minNumber →
    p.maxNumber = (Params.ofWidth width dmemSize tickLimit).maxNumber →
    inRange p (zext16 f) = true ∧ inRange p (immExt p f) = true)

/-- R127, R132: an ALU signal needs both wires, stores the wrapped result and flags that describe it, and nothing else. -/
def Obligations.AluStoresResultAndFlags : Prop :=
  ∀ (op : AluOp) (s : State),
    (∀ r, s.left = none → s.right = some r → alu op s = .raised (.uninitialisedRead .leftWire) s) ∧
    (∀ l, s.left = some l → s.right = none → alu op s = .raised (.uninitialisedRead .rightWire) s) ∧
    (s.left = none → s.right = none →
      alu op s = .raised (.uninitialisedRead .leftWire) s ∨ alu op s = .raised (.uninitialisedRead .rightWire) s) ∧
    (∀ l r, s.left = some l → s.right = some r → ∃ f : Flags,
      alu op s = .done { s with aluResult := some (wrap s.params (aluExact op l r)), flags := some f } ∧
      (f.z = true ↔ wrap s.params (aluExact op l r) = 0) ∧
      (f.n = true ↔ wrap s.params (aluExact op l r) < 0) ∧
      ¬ (f.z = true ∧ f.n = true))

/-! ### Registers, operands and latches -/

/-- R21, R120, R121, R122, R123: the register file. `r0` reads 0 and rejects a write before the data source is read; a
write is seen by the next read and changes no other register and nothing else. -/
def Obligations.RegisterFileReadsAndWrites : Prop :=
  (∀ s : State, readReg 0#4 s = .ok 0 ∧ latchReg 0#4 s = .raised (.invalidRegisterIndex 0 .immutable) s) ∧
  (∀ (i : RegIdx) (s : State), i ≠ 0#4 → s.reg i = none →
    readReg i s = .error (.uninitialisedRead (.register i)) ∧
    selLeft i s = .raised (.uninitialisedRead (.register i)) s ∧
    selRight i s = .raised (.uninitialisedRead (.register i)) s) ∧
  (∀ (i : RegIdx) (s : State) (v : Int), s.reg i = some v →
    readReg i s = .ok v ∧ selLeft i s = .done { s with left := some v } ∧
    selRight i s = .done { s with right := some v }) ∧
  (∀ (i : RegIdx) (s : State) (k : Fault), i ≠ 0#4 → dataSource i s = .error k → latchReg i s = .raised k s) ∧
  (∀ (i : RegIdx) (s : State) (v : Int), i ≠ 0#4 → dataSource i s = .ok v →
    ∃ t, latchReg i s = .done t ∧ t.reg i = some v ∧ (∀ j, j ≠ i → t.reg j = s.reg j) ∧
      { t with regs := s.regs } = s)

/-- R124, R30: an operand-relative entry takes the field with its operand index, and faults on an operand index outside
0, 1, 2, which the ROM never uses, and on a register index above 15, which only F2 can hold. -/
def Obligations.OperandResolution : Prop :=
  (∀ (k : Nat) (s : State), 2 < k →
    execEntry (.selLeftOp k) s = .raised (.invalidOperandIndex k) s ∧
    execEntry (.selRightOp k) s = .raised (.invalidOperandIndex k) s ∧
    execEntry (.latchOp k) s = .raised (.invalidOperandIndex k) s) ∧
  (∀ (s : State) (o : BitVec 24) (k n : Nat), s.opr = some o →
    (k = 0 ∧ n = o.toNat / 2 ^ 20) ∨ (k = 1 ∧ n = o.toNat / 2 ^ 16 % 2 ^ 4) ∨ (k = 2 ∧ n = o.toNat % 2 ^ 16) →
    (15 < n →
      k = 2 ∧
      execEntry (.selLeftOp k) s = .raised (.invalidRegisterIndex n .outOfRange) s ∧
      execEntry (.selRightOp k) s = .raised (.invalidRegisterIndex n .outOfRange) s ∧
      execEntry (.latchOp k) s = .raised (.invalidRegisterIndex n .outOfRange) s) ∧
    (n ≤ 15 →
      execEntry (.selLeftOp k) s = execSignal (.selLeftR (BitVec.ofNat 4 n)) s ∧
      execEntry (.selRightOp k) s = execSignal (.selRightR (BitVec.ofNat 4 n)) s ∧
      execEntry (.latchOp k) s = execSignal (.latchR (BitVec.ofNat 4 n)) s)) ∧
  (∀ (row : RomRow) (k : Nat), .selLeftOp k ∈ rom row ∨ .selRightOp k ∈ rom row ∨ .latchOp k ∈ rom row → k ≤ 2)

/-- R135, R136, R137, R138, R139, R140, R141: the selects of the three multiplexers, LATCH_PC, the data source and
LATCH_MPC. What the stride is where LATCH_MPC faults on its range is left open (log 11). -/
def Obligations.MultiplexersAndTheirLatches : Prop :=
  ∀ s : State,
    execSignal .selPcInc s = .done { s with pcSel := .inc } ∧
    execSignal .selPcAddr s = .done { s with pcSel := .addr } ∧
    execSignal .selDataAlu s = .done { s with dataSel := .alu } ∧
    execSignal .selDataMem s = .done { s with dataSel := .mem } ∧
    execSignal .selMpcInc s = .done { s with mpcSel := .inc } ∧
    execSignal .selMpcIr s = .done { s with mpcSel := .ir } ∧
    execSignal .selMpcZero s = .done { s with mpcSel := .zero } ∧
    (s.pcSel = .inc → ∃ t, execSignal .latchPc s = .done t ∧ t.pc.toNat = (s.pc.toNat + 1) % 2 ^ 16 ∧
      { t with pc := s.pc } = s) ∧
    (∀ o, s.pcSel = .addr → s.opr = some o → ∃ t, execSignal .latchPc s = .done t ∧ t.pc.toNat = o.toNat % 2 ^ 16 ∧
      { t with pc := s.pc } = s) ∧
    (s.pcSel = .unset → execSignal .latchPc s = .raised (.invalidMux .latchPc .pcSel) s) ∧
    (∀ i v, s.dataSel = .alu → s.aluResult = some v → dataSource i s = .ok v) ∧
    (∀ i, s.dataSel = .alu → s.aluResult = none → dataSource i s = .error (.uninitialisedRead .aluResult)) ∧
    (∀ i v, s.dataSel = .mem → s.memOut = some v → dataSource i s = .ok v) ∧
    (∀ i, s.dataSel = .mem → s.memOut = none → dataSource i s = .error (.uninitialisedRead .memOut)) ∧
    (∀ i, s.dataSel = .unset → dataSource i s = .error (.invalidMux (.latchR i) .dataSel)) ∧
    (s.mpcSel = .inc → s.mpc.val + s.stride.toNat < 30 → ∃ t, execSignal .latchMpc s = .done t ∧
      t.mpc.val = s.mpc.val + s.stride.toNat ∧ t.stride = .one ∧ { t with mpc := s.mpc, stride := s.stride } = s) ∧
    (s.mpcSel = .inc → 30 ≤ s.mpc.val + s.stride.toNat →
      ∃ t, execSignal .latchMpc s = .raised (.mpcOutOfRange (s.mpc.val + s.stride.toNat)) t ∧
        { t with stride := s.stride } = s) ∧
    (∀ row, s.mpcSel = .ir → s.ir = some row → execSignal .latchMpc s = .done { s with mpc := row }) ∧
    (s.mpcSel = .ir → s.ir = none → execSignal .latchMpc s = .raised (.uninitialisedRead .ir) s) ∧
    (s.mpcSel = .zero → execSignal .latchMpc s = .done { s with mpc := 0 }) ∧
    (s.mpcSel = .unset → execSignal .latchMpc s = .raised (.invalidMux .latchMpc .mpcSel) s)

/-- R142: the four stride conditions. -/
def Obligations.StrideConditions : Prop :=
  ∀ s : State,
    (s.flags = none → ∀ c, execSignal (.strideIf c) s = .raised (.uninitialisedRead .flags) s) ∧
    (∀ f : Flags, s.flags = some f →
      execSignal (.strideIf .z) s = .done { s with stride := if f.z = true then .two else .one } ∧
      execSignal (.strideIf .nz) s = .done { s with stride := if f.z = false then .two else .one } ∧
      execSignal (.strideIf .pos) s = .done { s with stride := if f.z = false ∧ f.n = false then .two else .one } ∧
      execSignal (.strideIf .neg) s = .done { s with stride := if f.n = true then .two else .one })

/-- R143, R65, R67: MEM_READ, its checks in order; a read of cell 0 pops the input. -/
def Obligations.MemReadSignal : Prop :=
  ∀ s : State,
    (s.left = none → execSignal .memRead s = .raised (.uninitialisedRead .leftWire) s) ∧
    (∀ v rest, s.left = some 0 → s.inbuf = v :: rest →
      execSignal .memRead s = .done { s with inbuf := rest, memOut := some v }) ∧
    (s.left = some 0 → s.inbuf = [] → execSignal .memRead s = .raised .inputExhausted s) ∧
    (s.left = some 1 → execSignal .memRead s = .raised (.memoryAccessViolation 1 .read .writeOnlyCell) s) ∧
    (∀ a, s.left = some a → a ≠ 0 → a ≠ 1 → a < 0 ∨ (s.params.dmemSize : Int) ≤ a →
      execSignal .memRead s = .raised (.dataAddressOutOfRange a .read) s) ∧
    (∀ a, s.left = some a → 2 ≤ a → a < s.params.dmemSize → s.cell a.toNat = none →
      execSignal .memRead s = .raised (.uninitialisedRead (.cell a)) s) ∧
    (∀ a v, s.left = some a → 2 ≤ a → a < s.params.dmemSize → s.cell a.toNat = some v →
      execSignal .memRead s = .done { s with memOut := some v })

/-- R144, R66, R68: MEM_WRITE, its checks in order; a write of cell 1 appends to the output; a write of a general cell
changes that cell and nothing else. -/
def Obligations.MemWriteSignal : Prop :=
  ∀ s : State,
    (∀ v, s.left = none → s.right = some v → execSignal .memWrite s = .raised (.uninitialisedRead .leftWire) s) ∧
    (∀ a, s.left = some a → s.right = none → execSignal .memWrite s = .raised (.uninitialisedRead .rightWire) s) ∧
    (s.left = none → s.right = none → execSignal .memWrite s = .raised (.uninitialisedRead .leftWire) s ∨
      execSignal .memWrite s = .raised (.uninitialisedRead .rightWire) s) ∧
    (∀ v, s.left = some 0 → s.right = some v →
      execSignal .memWrite s = .raised (.memoryAccessViolation 0 .write .readOnlyCell) s) ∧
    (∀ v, s.left = some 1 → s.right = some v →
      execSignal .memWrite s = .done { s with outbuf := s.outbuf ++ [v] }) ∧
    (∀ a v, s.left = some a → s.right = some v → a ≠ 0 → a ≠ 1 → a < 0 ∨ (s.params.dmemSize : Int) ≤ a →
      execSignal .memWrite s = .raised (.dataAddressOutOfRange a .write) s) ∧
    (∀ a v, s.left = some a → s.right = some v → 2 ≤ a → a < s.params.dmemSize →
      ∃ t, execSignal .memWrite s = .done t ∧ t.cell a.toNat = some v ∧
        (∀ b, b ≠ a.toNat → t.cell b = s.cell b) ∧ { t with dmem := s.dmem } = s)

/-- R73: a read of a general cell returns the last value written to it, a write leaves every other cell as it was, and a
read of a general cell changes nothing. -/
def Obligations.LoadSeesLastStore : Prop :=
  ∀ (a v : Int) (s t : State), 2 ≤ a → memWrite a v s = .ok t →
    memRead a t = .ok (v, t) ∧
    ∀ b x, 2 ≤ b → b ≠ a → (memRead b t = .ok (x, t) ↔ memRead b s = .ok (x, s))

/-- R62, R145, R146: instruction memory is read at `1..N` only; LATCH_IR latches the entry line of the word at `pc` and
counts the instruction; LATCH_OPR latches its operand fields. -/
def Obligations.InstructionLatches : Prop :=
  (∀ (a : Nat) (s : State) (_ : 1 ≤ a) (h : a ≤ s.imem.length), imemRead a s = .ok (s.imem[a - 1]'(by omega))) ∧
  (∀ (a : Nat) (s : State), a < 1 ∨ s.imem.length < a → imemRead a s = .error (.instructionAddressOutOfRange a)) ∧
  (∀ (s : State) (k : Fault), imemRead s.pc.toNat s = .error k →
    execSignal .latchIr s = .raised k s ∧ execSignal .latchOpr s = .raised k s) ∧
  (∀ (s : State) (w : InstrWord) (row : RomRow), imemRead s.pc.toNat s = .ok w →
    decodeEntry s.params.opc w = .ok row →
    execSignal .latchIr s = .done { s with ir := some row, icount := s.icount + 1 }) ∧
  (∀ (s : State) (w : InstrWord) (op : BitVec 7) (f : BitVec 1), imemRead s.pc.toNat s = .ok w →
    decodeEntry s.params.opc w = .error (.notInTable op f) → execSignal .latchIr s = .raised (.decodeError op f) s) ∧
  (∀ (s : State) (w : InstrWord), imemRead s.pc.toNat s = .ok w →
    execSignal .latchOpr s = .done { s with opr := some (w.extractLsb' 1 24) })

/-- R148: the catalog is exactly 72 signals, each once. -/
def Obligations.SignalCatalogIsClosed : Prop :=
  (∀ sig : Signal, sig ∈ signalCatalog) ∧ signalCatalog.Nodup ∧ signalCatalog.length = 72

/-! ### The control unit -/

/-- R174, R175, R176: what rows 0, 1 and 2 do, each as one tick. -/
def Obligations.FetchRows : Prop :=
  (∀ s : State, s.canRun → s.mpc = 0 → s.stride = .one →
    runTick s = { s with pcSel := .inc, pc := s.pc + 1#16, mpcSel := .inc, mpc := 1, tick := s.tick + 1 }) ∧
  (∀ (s : State) (w : InstrWord) (row : RomRow), s.canRun → s.mpc = 1 → s.stride = .one →
    imemRead s.pc.toNat s = .ok w → decodeEntry s.params.opc w = .ok row →
    runTick s = { s with
      ir := some row, icount := s.icount + 1, opr := some (w.extractLsb' 1 24), mpcSel := .inc, mpc := 2,
      tick := s.tick + 1 }) ∧
  (∀ (s : State) (row : RomRow), s.canRun → s.mpc = 2 → s.ir = some row →
    runTick s = { s with mpcSel := .ir, mpc := row, tick := s.tick + 1 })

/-- R180, R27, R30: when the word at `pc + 1` decodes to `i`, one step is `exec i` in the state that rows 0, 1 and 2
leave: `pc` moved to the instruction's own address, its entry line and operand fields latched, three ticks counted. -/
def Obligations.StepRunsTheDecodedInstruction : Prop :=
  ∀ (s : State) (w : InstrWord) (i : Instr), s.status = .running → s.mpc = 0 → s.stride = .one →
    s.tick ≠ s.params.tickLimit → s.tick + 1 ≠ s.params.tickLimit → s.tick + 2 ≠ s.params.tickLimit →
    imemRead (s.pc + 1#16).toNat s = .ok w → decode s.params.opc w = .ok i →
    step s = exec i { s with
      pc := s.pc + 1#16, pcSel := .inc, mpcSel := .ir, mpc := i.entryLine, ir := some i.entryLine,
      opr := some (w.extractLsb' 1 24), icount := s.icount + 1, tick := s.tick + 3 }

/-- R175, R281: a fetch outside `1..N` and a fetch of an undecodable word end the run in row 1, with `pc` at the address
fetched and the instruction not counted; a budget used up before row 1 or row 2 ends it there (R284). -/
def Obligations.FetchFaults : Prop :=
  ∀ s : State, s.status = .running → s.mpc = 0 → s.stride = .one → s.tick ≠ s.params.tickLimit →
    (s.tick + 1 = s.params.tickLimit →
      step s = .next { s with
        pcSel := .inc, pc := s.pc + 1#16, mpcSel := .inc, mpc := 1, tick := s.tick + 1, status := .timeout }) ∧
    (s.tick + 1 ≠ s.params.tickLimit →
      ((s.pc + 1#16).toNat < 1 ∨ s.imem.length < (s.pc + 1#16).toNat →
        step s = .next (takeFault 1 (.signal .latchIr) (.instructionAddressOutOfRange (s.pc + 1#16).toNat)
          { s with pcSel := .inc, pc := s.pc + 1#16, mpcSel := .inc, mpc := 1, tick := s.tick + 1 })) ∧
      (∀ w op f, imemRead (s.pc + 1#16).toNat s = .ok w →
        decode s.params.opc w = .error (.notInTable op f) →
        step s = .next (takeFault 1 (.signal .latchIr) (.decodeError op f)
          { s with pcSel := .inc, pc := s.pc + 1#16, mpcSel := .inc, mpc := 1, tick := s.tick + 1 })) ∧
      (∀ w i, imemRead (s.pc + 1#16).toNat s = .ok w → decode s.params.opc w = .ok i →
        s.tick + 2 = s.params.tickLimit →
        step s = .next { s with
          pcSel := .inc, pc := s.pc + 1#16, ir := some i.entryLine, opr := some (w.extractLsb' 1 24),
          icount := s.icount + 1, mpcSel := .inc, mpc := 2, tick := s.tick + 2, status := .timeout }))

/-- R11: the instruction level agrees with the microarchitectural level. A step is as many ticks of the ROM as its
instruction has rows. That a step is a whole instruction cycle at a boundary and one tick elsewhere is the model's choice
(log 4), and so is that a step after the end of a run answers the same state, as ticks do (log 3): on these two the clause
"from every state" rests. -/
def Obligations.StepIsTheMicrocode : Prop := ∀ s : State, step s = .next (runTicks (stepRows s) s)

/-- R178: every last row of an instruction ends with RET, and what a completed instruction leaves. The rows named are the
fetch rows, HALT and the four test rows. -/
def Obligations.CompletedInstructionReturnsToFetch : Prop :=
  (∀ row : RomRow, row ∉ ([0, 1, 2, 4, 17, 20, 23, 26] : List RomRow) →
    [.signal .selMpcZero, .signal .latchMpc] <:+ rom row) ∧
  (∀ (i : Instr) (s t : State), s.status = .running → s.stride = .one → exec i s = .next t → t.status = .running →
    t.mpc = 0 ∧ t.stride = .one ∧ t.mpcSel = .zero ∧
      (t.tick ≠ t.params.tickLimit → (runTick t).pc = t.pc + 1#16)) ∧
  (∀ s t : State, s.status = .running → s.mpc = 0 → s.stride = .one → step s = .next t → t.status = .running →
    t.mpc = 0 ∧ t.stride = .one ∧ t.mpcSel = .zero ∧
      (t.tick ≠ t.params.tickLimit → (runTick t).pc = t.pc + 1#16))

/-- R174, R177, R179: the invariant of the control state, kept by every tick and by every step, from every state that
has it. -/
def Obligations.ControlInvariantIsKept : Prop :=
  (∀ s : State, s.romInv = true → (runTick s).romInv = true) ∧
  (∀ s t : State, s.romInv = true → step s = .next t → t.romInv = true)

/-- R179: the faults a run of this ROM can actually raise. -/
def Obligations.OnlyListedFaultsAreRaised : Prop :=
  ∀ (s t : State) (r : Report), s.romInv = true → s.status = .running → step s = .next t → t.status = .faulted r →
    reachableFault r.kind = true

/-- R170, R147, R182: how a tick can end. -/
def Obligations.OutcomeOfATick : Prop :=
  ∀ s : State,
    (s.status ≠ .running → runTick s = s) ∧
    (s.status = .running → s.tick = s.params.tickLimit → runTick s = { s with status := .timeout }) ∧
    (s.status = .running → s.tick ≠ s.params.tickLimit →
      (runTick s).status ≠ .timeout ∧ ((runTick s).status = .halted ↔ s.mpc = 4) ∧
      ((runTick s).status = .running → (runTick s).tick = s.tick + 1) ∧
      ((runTick s).status ≠ .running → (runTick s).tick = s.tick))

/-- The state after the given ROM entries when each of them completes, `none` where one raises a fault (R172). -/
def entriesCompleted : List RomEntry → State → Option State
  | [], s => some s
  | e :: es, s =>
    match execEntry e s with
    | .done t => entriesCompleted es t
    | .raised _ _ => none

/-- R280, R282: the report of a fault names the row, the entry of that row that raised the fault (those before it
complete, and it raises the reported kind), the `pc` and the tick count; the faulted state is the one that entry left, with
the report as its status. R281: the code of each kind. -/
def Obligations.FaultReportNamesItsPlace : Prop :=
  (∀ (s : State) (r : Report), s.status = .running → (runTick s).status = .faulted r →
    r.row = s.mpc ∧ r.pc = (runTick s).pc ∧ r.tick = s.tick ∧ (runTick s).tick = s.tick ∧
    ∃ (before rest : List RomEntry) (u v : State), rom s.mpc = before ++ r.signal :: rest ∧
      entriesCompleted before s = some u ∧ execEntry r.signal u = .raised r.kind v ∧
      runTick s = { v with status := .faulted r }) ∧
  (∀ opcode flag, (Fault.decodeError opcode flag).code = 1) ∧
  (∀ signal selector, (Fault.invalidMux signal selector).code = 2) ∧
  (∀ index reason, (Fault.invalidRegisterIndex index reason).code = 3) ∧
  (∀ index, (Fault.invalidOperandIndex index).code = 4) ∧
  (∀ address access reason, (Fault.memoryAccessViolation address access reason).code = 5) ∧
  Fault.inputExhausted.code = 6 ∧
  (∀ address, (Fault.instructionAddressOutOfRange address).code = 7) ∧
  (∀ address access, (Fault.dataAddressOutOfRange address access).code = 8) ∧
  (∀ op, (Fault.unsupportedAluOp op).code = 9) ∧
  (∀ element, (Fault.uninitialisedRead element).code = 10) ∧
  (∀ mpc, (Fault.mpcOutOfRange mpc).code = 11)

/-- R182, R294: after HALTED, FAULTED or TIMEOUT nothing changes, and the host reads the outcome, which is that status,
the output and the statistics of that state (R316); before the end there is nothing to read (R315). That `step` and `exec`
answer that same state is the model's choice (log 3). -/
def Obligations.EndedRunStaysAsItIs : Prop :=
  (∀ s : State, s.status ≠ .running →
    (∀ n, runTicks n s = s) ∧ step s = .next s ∧ (∀ i, exec i s = .next s) ∧
    ∃ r, s.readOut = some r ∧ r.output = s.outbuf ∧ r.final = s ∧ r.ticks = s.tick ∧ r.instructions = s.icount ∧
      (r.outcome = .halted ↔ s.status = .halted) ∧
      (∀ report, r.outcome = .faulted report ↔ s.status = .faulted report) ∧
      (r.outcome = .timeout ↔ s.status = .timeout)) ∧
  ∀ s : State, s.status = .running → s.outcome = none ∧ s.readOut = none

/-- R184: every state of a run that goes on has a next state, and it is nearer to the end of the budget or the end of
the run. -/
def Obligations.StepNeverSticks : Prop :=
  ∀ s : State, s.status = .running → ∃ t, step s = .next t ∧ (t.status ≠ .running ∨ s.tick < t.tick)

/-- R170, R171: no run outlasts its budget. -/
def Obligations.EveryRunEndsWithinItsBudget : Prop :=
  ∀ s : State, s.tick ≤ s.params.tickLimit → (runTicks (s.params.tickLimit - s.tick + 1) s).status ≠ .running

/-- R284: the budget is checked before the first signal of an instruction's row, so nothing of the row happens; and again
before the second row of a branch. -/
def Obligations.BudgetIsCheckedBeforeTheRow : Prop :=
  (∀ (i : Instr) (s : State), s.status = .running → s.tick = s.params.tickLimit →
    exec i s = .next { s with status := .timeout }) ∧
  (∀ (c : Cond) (ra rb : RegIdx) (f2 : BitVec 16) (s : State) (a b : Int), s.canRun →
    s.tick + 1 = s.params.tickLimit → s.reg ra = some a → s.reg rb = some b →
    exec (branchInstr c ra rb f2) s = .next { s with
      left := some a, right := some b, aluResult := some (wrap s.params (a - b)),
      flags := some (flagsOf (wrap s.params (a - b))), stride := .one, mpcSel := .inc,
      mpc := (branchInstr c ra rb f2).entryLine + (if taken c (wrap s.params (a - b)) then 2 else 1),
      tick := s.tick + 1, status := .timeout })

/-! ### ALU instructions -/

/-- R220, R222, R224, R226: ADD, SUB, MUL and AND in register form. -/
def Obligations.AluRegisterFormRuns : Prop :=
  ∀ (op : AluOp) (rd rs1 : RegIdx) (f2 : BitVec 16) (s : State) (a b : Int), s.canRun → rd ≠ 0#4 → f2.toNat ≤ 15 →
    s.reg rs1 = some a → s.reg (BitVec.ofNat 4 f2.toNat) = some b →
    exec (aluRegInstr op rd rs1 f2) s = .next { s.setReg rd (wrap s.params (aluExact op a b)) with
      left := some a, right := some b, aluResult := some (wrap s.params (aluExact op a b)),
      flags := some { z := decide (wrap s.params (aluExact op a b) = 0), n := decide (wrap s.params (aluExact op a b) < 0) },
      dataSel := .alu, mpcSel := .zero, mpc := 0, tick := s.tick + 1 }

/-- R221, R223, R225, R227: ADD, SUB, MUL and AND in immediate form. -/
def Obligations.AluImmediateFormRuns : Prop :=
  ∀ (op : AluOp) (rd rs1 : RegIdx) (f2 : BitVec 16) (s : State) (a : Int), s.canRun → rd ≠ 0#4 → s.reg rs1 = some a →
    exec (aluImmInstr op rd rs1 f2) s =
      .next { s.setReg rd (wrap s.params (aluExact op a (immExt s.params f2))) with
        left := some a, right := some (immExt s.params f2),
        aluResult := some (wrap s.params (aluExact op a (immExt s.params f2))),
        flags := some {
          z := decide (wrap s.params (aluExact op a (immExt s.params f2)) = 0)
          n := decide (wrap s.params (aluExact op a (immExt s.params f2)) < 0) },
        dataSel := .alu, mpcSel := .zero, mpc := 0, tick := s.tick + 1 }

/-- R220 to R227, "Exceptions, in order": the four faults of a register form and the two of an immediate form, each with
what the signals before it left. -/
def Obligations.AluFaults : Prop :=
  (∀ (op : AluOp) (rd rs1 : RegIdx) (f2 : BitVec 16) (s : State), s.canRun →
      (s.reg rs1 = none → exec (aluRegInstr op rd rs1 f2) s =
        .next (takeFault (aluRegInstr op rd rs1 f2).entryLine (.selLeftOp 1) (.uninitialisedRead (.register rs1)) s)) ∧
      (∀ a, s.reg rs1 = some a → 15 < f2.toNat → exec (aluRegInstr op rd rs1 f2) s =
        .next (takeFault (aluRegInstr op rd rs1 f2).entryLine (.selRightOp 2) (.invalidRegisterIndex f2.toNat .outOfRange)
          { s with left := some a })) ∧
      (∀ a, s.reg rs1 = some a → f2.toNat ≤ 15 → s.reg (BitVec.ofNat 4 f2.toNat) = none →
        exec (aluRegInstr op rd rs1 f2) s =
          .next (takeFault (aluRegInstr op rd rs1 f2).entryLine (.selRightOp 2)
            (.uninitialisedRead (.register (BitVec.ofNat 4 f2.toNat))) { s with left := some a })) ∧
      (∀ a b, s.reg rs1 = some a → f2.toNat ≤ 15 → s.reg (BitVec.ofNat 4 f2.toNat) = some b → rd = 0#4 →
        exec (aluRegInstr op rd rs1 f2) s =
          .next (takeFault (aluRegInstr op rd rs1 f2).entryLine (.latchOp 0) (.invalidRegisterIndex 0 .immutable)
            { s with
              left := some a, right := some b, aluResult := some (wrap s.params (aluExact op a b)),
              flags := some (flagsOf (wrap s.params (aluExact op a b))), dataSel := .alu }))) ∧
  (∀ (op : AluOp) (rd rs1 : RegIdx) (f2 : BitVec 16) (s : State), s.canRun →
      (s.reg rs1 = none → exec (aluImmInstr op rd rs1 f2) s =
        .next (takeFault (aluImmInstr op rd rs1 f2).entryLine (.selLeftOp 1) (.uninitialisedRead (.register rs1)) s)) ∧
      (∀ a, s.reg rs1 = some a → rd = 0#4 → exec (aluImmInstr op rd rs1 f2) s =
        .next (takeFault (aluImmInstr op rd rs1 f2).entryLine (.latchOp 0) (.invalidRegisterIndex 0 .immutable)
          { s with
            left := some a, right := some (immExt s.params f2),
            aluResult := some (wrap s.params (aluExact op a (immExt s.params f2))),
            flags := some (flagsOf (wrap s.params (aluExact op a (immExt s.params f2)))), dataSel := .alu })))

/-- R22, R127: what an ALU instruction leaves unchanged, whether it completes, faults or finds no budget. -/
def Obligations.AluFrame : Prop :=
  ∀ (op : AluOp) (rd rs1 : RegIdx) (f2 : BitVec 16) (s t : State),
    exec (aluRegInstr op rd rs1 f2) s = .next t ∨ exec (aluImmInstr op rd rs1 f2) s = .next t →
    (∀ j, j ≠ rd → t.reg j = s.reg j) ∧ (∀ a, t.cell a = s.cell a) ∧ t.dmem = s.dmem ∧
    t.memOut = s.memOut ∧ t.pc = s.pc ∧ t.ir = s.ir ∧ t.opr = s.opr ∧ t.pcSel = s.pcSel ∧ t.stride = s.stride ∧
    t.icount = s.icount ∧ t.imem = s.imem ∧ t.inbuf = s.inbuf ∧ t.outbuf = s.outbuf ∧ t.params = s.params

/-! ### Memory instructions -/

/-- R240, R241: LOAD_WORD of a general cell, in both forms. -/
def Obligations.LoadWordOfACellRuns : Prop :=
  (∀ (rd ra : RegIdx) (s : State) (a v : Int), s.canRun → rd ≠ 0#4 → s.reg ra = some a → 2 ≤ a →
    a < s.params.dmemSize → s.cell a.toNat = some v →
    exec (.loadReg rd ra) s = .next { s.setReg rd v with
      left := some a, memOut := some v, dataSel := .mem, mpcSel := .zero, mpc := 0, tick := s.tick + 1 }) ∧
  (∀ (rd : RegIdx) (f2 : BitVec 16) (s : State) (v : Int), s.canRun → rd ≠ 0#4 → 2 ≤ f2.toNat →
    f2.toNat < s.params.dmemSize → s.cell f2.toNat = some v →
    exec (.loadAddr rd f2) s = .next { s.setReg rd v with
      left := some f2.toNat, memOut := some v, dataSel := .mem, mpcSel := .zero, mpc := 0, tick := s.tick + 1 })

/-- R240, R241, R67: LOAD_WORD of the input cell takes the next input value, in both forms. -/
def Obligations.LoadWordOfInputRuns : Prop :=
  (∀ (rd ra : RegIdx) (s : State) (v : Int) (rest : List Int), s.canRun → rd ≠ 0#4 → s.reg ra = some 0 →
    s.inbuf = v :: rest →
    exec (.loadReg rd ra) s = .next { s.setReg rd v with
      left := some 0, memOut := some v, inbuf := rest, dataSel := .mem, mpcSel := .zero, mpc := 0,
      tick := s.tick + 1 }) ∧
  (∀ (rd : RegIdx) (s : State) (v : Int) (rest : List Int), s.canRun → rd ≠ 0#4 → s.inbuf = v :: rest →
    exec (.loadAddr rd 0#16) s = .next { s.setReg rd v with
      left := some 0, memOut := some v, inbuf := rest, dataSel := .mem, mpcSel := .zero, mpc := 0,
      tick := s.tick + 1 })

/-- R240, R241, "Exceptions, in order": the address register, then the faults of MemRead, then `r0` as the destination,
which faults after the read has taken effect. -/
def Obligations.LoadWordFaults : Prop :=
  (∀ (rd ra : RegIdx) (s : State), s.canRun →
    (s.reg ra = none → exec (.loadReg rd ra) s =
      .next (takeFault 13 (.selLeftOp 1) (.uninitialisedRead (.register ra)) s)) ∧
    (∀ a k, s.reg ra = some a → memRead a s = .error k → exec (.loadReg rd ra) s =
      .next (takeFault 13 (.signal .memRead) k { s with left := some a })) ∧
    (∀ a v u, s.reg ra = some a → memRead a s = .ok (v, u) → rd = 0#4 → exec (.loadReg rd ra) s =
      .next (takeFault 13 (.latchOp 0) (.invalidRegisterIndex 0 .immutable)
        { s with left := some a, inbuf := u.inbuf, memOut := some v, dataSel := .mem }))) ∧
  (∀ (rd : RegIdx) (f2 : BitVec 16) (s : State), s.canRun →
    (∀ k, memRead f2.toNat s = .error k → exec (.loadAddr rd f2) s =
      .next (takeFault 14 (.signal .memRead) k { s with left := some f2.toNat })) ∧
    (∀ v u, memRead f2.toNat s = .ok (v, u) → rd = 0#4 → exec (.loadAddr rd f2) s =
      .next (takeFault 14 (.latchOp 0) (.invalidRegisterIndex 0 .immutable)
        { s with left := some f2.toNat, inbuf := u.inbuf, memOut := some v, dataSel := .mem })))

/-- R242, R243: WRITE_WORD to a general cell, in both forms: the cell at the address holds the value. -/
def Obligations.WriteWordToACellRuns : Prop :=
  (∀ (rs ra : RegIdx) (s : State) (a v : Int), s.canRun → s.reg ra = some a → s.reg rs = some v → 2 ≤ a →
    a < s.params.dmemSize → ∃ t, exec (.writeReg rs ra) s = .next t ∧ t.cell a.toNat = some v ∧
      (∀ b, b ≠ a.toNat → t.cell b = s.cell b) ∧
      { t with dmem := s.dmem } = { s with
        left := some a, right := some v, mpcSel := .zero, mpc := 0, tick := s.tick + 1 }) ∧
  (∀ (rs : RegIdx) (f2 : BitVec 16) (s : State) (v : Int), s.canRun → s.reg rs = some v → 2 ≤ f2.toNat →
    f2.toNat < s.params.dmemSize → ∃ t, exec (.writeAddr rs f2) s = .next t ∧ t.cell f2.toNat = some v ∧
      (∀ b, b ≠ f2.toNat → t.cell b = s.cell b) ∧
      { t with dmem := s.dmem } = { s with
        left := some f2.toNat, right := some v, mpcSel := .zero, mpc := 0, tick := s.tick + 1 })

/-- R242, R243, R68: WRITE_WORD to the output cell appends the whole word value, in both forms. -/
def Obligations.WriteWordToOutputRuns : Prop :=
  (∀ (rs ra : RegIdx) (s : State) (v : Int), s.canRun → s.reg ra = some 1 → s.reg rs = some v →
    exec (.writeReg rs ra) s = .next { s with
      left := some 1, right := some v, outbuf := s.outbuf ++ [v], mpcSel := .zero, mpc := 0, tick := s.tick + 1 }) ∧
  (∀ (rs : RegIdx) (s : State) (v : Int), s.canRun → s.reg rs = some v →
    exec (.writeAddr rs 1#16) s = .next { s with
      left := some 1, right := some v, outbuf := s.outbuf ++ [v], mpcSel := .zero, mpc := 0, tick := s.tick + 1 })

/-- R242, R243, "Exceptions, in order": the address register, the value register, then the faults of MemWrite. -/
def Obligations.WriteWordFaults : Prop :=
  (∀ (rs ra : RegIdx) (s : State), s.canRun →
    (s.reg ra = none → exec (.writeReg rs ra) s =
      .next (takeFault 15 (.selLeftOp 1) (.uninitialisedRead (.register ra)) s)) ∧
    (∀ a, s.reg ra = some a → s.reg rs = none → exec (.writeReg rs ra) s =
      .next (takeFault 15 (.selRightOp 0) (.uninitialisedRead (.register rs)) { s with left := some a })) ∧
    (∀ a v k, s.reg ra = some a → s.reg rs = some v → memWrite a v s = .error k → exec (.writeReg rs ra) s =
      .next (takeFault 15 (.signal .memWrite) k { s with left := some a, right := some v }))) ∧
  (∀ (rs : RegIdx) (f2 : BitVec 16) (s : State), s.canRun →
    (s.reg rs = none → exec (.writeAddr rs f2) s =
      .next (takeFault 16 (.selRightOp 0) (.uninitialisedRead (.register rs)) { s with left := some f2.toNat })) ∧
    (∀ v k, s.reg rs = some v → memWrite f2.toNat v s = .error k → exec (.writeAddr rs f2) s =
      .next (takeFault 16 (.signal .memWrite) k { s with left := some f2.toNat, right := some v })))

/-- R22, R26, R71: what a load leaves unchanged on every outcome. Only an address 0 takes input; no cell of data memory
changes. -/
def Obligations.LoadFrame : Prop :=
  ∀ (rd ra : RegIdx) (f2 : BitVec 16) (s t : State),
    exec (.loadReg rd ra) s = .next t ∨ exec (.loadAddr rd f2) s = .next t →
    (∀ j, j ≠ rd → t.reg j = s.reg j) ∧ (∀ a, t.cell a = s.cell a) ∧ t.dmem = s.dmem ∧
    (exec (.loadReg rd ra) s = .next t → s.reg ra ≠ some 0 → t.inbuf = s.inbuf) ∧
    (exec (.loadAddr rd f2) s = .next t → f2 ≠ 0#16 → t.inbuf = s.inbuf) ∧
    t.right = s.right ∧ t.aluResult = s.aluResult ∧ t.flags = s.flags ∧ t.pc = s.pc ∧ t.ir = s.ir ∧ t.opr = s.opr ∧
    t.pcSel = s.pcSel ∧ t.stride = s.stride ∧ t.icount = s.icount ∧ t.imem = s.imem ∧ t.outbuf = s.outbuf ∧
    t.params = s.params

/-- R22, R26, R66, R71: what a store leaves unchanged on every outcome: every register, and every cell of data memory
other than the one at its address; only an address 1 appends output. -/
def Obligations.StoreFrame : Prop :=
  ∀ (rs ra : RegIdx) (f2 : BitVec 16) (s t : State),
    (exec (.writeReg rs ra) s = .next t →
      (∀ b : Nat, s.reg ra ≠ some (b : Int) → t.cell b = s.cell b) ∧
      (s.reg ra ≠ some 1 → t.outbuf = s.outbuf) ∧
      { t with dmem := s.dmem, outbuf := s.outbuf, left := s.left, right := s.right, mpcSel := s.mpcSel, mpc := s.mpc,
               tick := s.tick, status := s.status } = s) ∧
    (exec (.writeAddr rs f2) s = .next t →
      (∀ b : Nat, b ≠ f2.toNat → t.cell b = s.cell b) ∧
      (f2 ≠ 1#16 → t.outbuf = s.outbuf) ∧
      { t with dmem := s.dmem, outbuf := s.outbuf, left := s.left, right := s.right, mpcSel := s.mpcSel, mpc := s.mpc,
               tick := s.tick, status := s.status } = s)

/-! ### Control instructions -/

/-- R262, R263, R264, R265, R177: BEQ, BNE, BGT and BLT, taken or not. A taken branch sets `pc` to F2 itself. -/
def Obligations.BranchesRun : Prop :=
  ∀ (c : Cond) (ra rb : RegIdx) (f2 : BitVec 16) (s : State) (a b : Int), s.canRun →
    s.tick + 1 ≠ s.params.tickLimit → s.reg ra = some a → s.reg rb = some b →
    exec (branchInstr c ra rb f2) s = .next { s with
      left := some a, right := some b, aluResult := some (wrap s.params (a - b)),
      flags := some { z := decide (wrap s.params (a - b) = 0), n := decide (wrap s.params (a - b) < 0) },
      pc := if taken c (wrap s.params (a - b)) then f2 else s.pc,
      pcSel := if taken c (wrap s.params (a - b)) then .addr else s.pcSel,
      stride := .one, mpcSel := .zero, mpc := 0, tick := s.tick + 2 }

/-- R267, points 4 and 5: with default bounds equality is exact; order is exact without overflow, and with overflow both
order branches give the opposite of the signed comparison. -/
def Obligations.BranchDecisions : Prop :=
  ∀ (width dmemSize tickLimit : Nat) (a b : Int), 0 < width →
    inRange (Params.ofWidth width dmemSize tickLimit) a = true →
    inRange (Params.ofWidth width dmemSize tickLimit) b = true →
    (taken .z (wrap (Params.ofWidth width dmemSize tickLimit) (a - b)) = true ↔ a = b) ∧
    (taken .nz (wrap (Params.ofWidth width dmemSize tickLimit) (a - b)) = true ↔ a ≠ b) ∧
    (inRange (Params.ofWidth width dmemSize tickLimit) (a - b) = true →
      (taken .pos (wrap (Params.ofWidth width dmemSize tickLimit) (a - b)) = true ↔ b < a) ∧
      (taken .neg (wrap (Params.ofWidth width dmemSize tickLimit) (a - b)) = true ↔ a < b)) ∧
    (inRange (Params.ofWidth width dmemSize tickLimit) (a - b) = false →
      (taken .pos (wrap (Params.ofWidth width dmemSize tickLimit) (a - b)) = true ↔ a < b) ∧
      (taken .neg (wrap (Params.ofWidth width dmemSize tickLimit) (a - b)) = true ↔ b < a))

/-- R262, R263, R264, R265, "Exceptions, in order". -/
def Obligations.BranchFaults : Prop :=
  ∀ (c : Cond) (ra rb : RegIdx) (f2 : BitVec 16) (s : State), s.canRun →
    (s.reg ra = none → exec (branchInstr c ra rb f2) s =
      .next (takeFault (branchInstr c ra rb f2).entryLine (.selLeftOp 0) (.uninitialisedRead (.register ra)) s)) ∧
    (∀ a, s.reg ra = some a → s.reg rb = none → exec (branchInstr c ra rb f2) s =
      .next (takeFault (branchInstr c ra rb f2).entryLine (.selRightOp 1) (.uninitialisedRead (.register rb))
        { s with left := some a }))

/-- R260, R261, R266: NOP changes only `mpc_sel` and `mpc`; HALT only the status, and leaves `tick`; JUMP sets `pc` to F2
itself. -/
def Obligations.NopHaltAndJumpRun : Prop :=
  ∀ s : State, s.canRun →
    exec .nop s = .next { s with mpcSel := .zero, mpc := 0, tick := s.tick + 1 } ∧
    exec .halt s = .next { s with status := .halted } ∧
    ∀ f2 : BitVec 16, exec (.jump f2) s = .next { s with
      pcSel := .addr, pc := f2, mpcSel := .zero, mpc := 0, tick := s.tick + 1 }

/-- R22, R26, R260, R261, R266: what the control instructions leave unchanged on every outcome: every register, all of data
memory, and every other piece of state but the ones named. -/
def Obligations.ControlFrame : Prop :=
  (∀ s t : State, exec .nop s = .next t ∨ exec .halt s = .next t →
    { t with mpcSel := s.mpcSel, mpc := s.mpc, tick := s.tick, status := s.status } = s) ∧
  (∀ (f2 : BitVec 16) (s t : State), exec (.jump f2) s = .next t →
    { t with pcSel := s.pcSel, pc := s.pc, mpcSel := s.mpcSel, mpc := s.mpc, tick := s.tick, status := s.status } = s) ∧
  (∀ (c : Cond) (ra rb : RegIdx) (f2 : BitVec 16) (s t : State), exec (branchInstr c ra rb f2) s = .next t →
    { t with
      left := s.left, right := s.right, aluResult := s.aluResult, flags := s.flags, pcSel := s.pcSel, pc := s.pc,
      stride := s.stride, mpcSel := s.mpcSel, mpc := s.mpc, tick := s.tick, status := s.status } = s)

/-- R26: no instruction reads the flags that an earlier instruction left. -/
def Obligations.FlagsOfEarlierInstructionsAreNotRead : Prop :=
  ∀ (i : Instr) (s t u : State) (f : Option Flags), exec i s = .next t → exec i { s with flags := f } = .next u →
    { u with flags := t.flags } = t

/-- R319: the ticks of a completed instruction, its fetch included. -/
def Obligations.TicksOfAnInstruction : Prop :=
  ∀ (s t : State) (i : Instr), s.status = .running → s.mpc = 0 → s.stride = .one →
    s.instrAt (s.pc + 1#16).toNat = some i → step s = .next t →
    (t.status = .running → t.tick = s.tick + rowsOf i ∧ t.icount = s.icount + 1) ∧
    (t.status = .halted → i = .halt ∧ t.tick = s.tick + 3 ∧ t.icount = s.icount + 1)

/-! ### Launch and invariants -/

/-- R313: a launch runs exactly when it meets all seven premises, and is refused otherwise; what R38 gives as `⊥` is `⊥`,
no fault is recorded, nothing is in flight, and the two buffers hold what the rule says. -/
def Obligations.LaunchRefusedExactlyOnABrokenPremise : Prop :=
  ∀ l : Launch,
    ((∃ s, launch l = .next s) ↔
      (1 ≤ l.image.length ∧ l.image.length ≤ 65535) ∧
      (∀ e ∈ l.image, ∃ w, e.word = some w) ∧
      ((l.dataImage.length : Int) ≤ (l.params.dmemSize : Int) - 2) ∧
      ((∀ v ∈ l.dataImage, l.params.minNumber ≤ v ∧ v ≤ l.params.maxNumber) ∧
        (∀ v ∈ l.input, l.params.minNumber ≤ v ∧ v ≤ l.params.maxNumber) ∧
        (∀ (i : Nat) (h : i < 16) (v : Int), l.preload[i] = some v →
          l.params.minNumber ≤ v ∧ v ≤ l.params.maxNumber)) ∧
      (l.params.minNumber ≤ 0 ∧ 0 ≤ l.params.maxNumber) ∧
      2 ≤ l.params.dmemSize ∧
      l.preload[0] = none) ∧
    ((∃ s, launch l = .next s) ∨ ∃ p, launch l = .refused (.launchRefused p)) ∧
    ∀ s, launch l = .next s →
      s.left = none ∧ s.right = none ∧ s.aluResult = none ∧ s.memOut = none ∧ s.flags = none ∧ s.ir = none ∧
      s.opr = none ∧ (∀ i : RegIdx, i ≠ 0#4 → l.preload[i.toNat] = none → s.reg i = none) ∧
      (∀ a : Nat, a < 2 ∨ l.dataImage.length + 2 ≤ a → s.cell a = none) ∧
      s.status = .running ∧ s.mpc = 0 ∧ s.inbuf = l.input ++ [0] ∧ s.outbuf = []

/-- R38, R61, R64, R67, R310, R312: the state a launch builds. -/
def Obligations.LaunchGivesTheResetValues : Prop :=
  ∀ (l : Launch) (s : State), launch l = .next s →
    (∀ i : RegIdx, i ≠ 0#4 → s.reg i = l.preload[i.toNat]) ∧ s.reg 0#4 = some 0 ∧
    s.left = none ∧ s.right = none ∧ s.aluResult = none ∧ s.flags = none ∧ s.memOut = none ∧
    s.pc.toNat = 0 ∧ s.mpc.val = 0 ∧ s.ir = none ∧ s.opr = none ∧
    s.pcSel = .unset ∧ s.dataSel = .unset ∧ s.mpcSel = .unset ∧ s.stride.toNat = 1 ∧
    s.tick = 0 ∧ s.icount = 0 ∧ s.status = .running ∧
    s.imem.length = l.image.length ∧
    (∀ (k : Nat) (e : ImageEntry), l.image[k]? = some e → ∃ w, e.word = some w ∧ imemRead (k + 1) s = .ok w) ∧
    (∀ a : Nat, s.cell a = if 2 ≤ a then l.dataImage[a - 2]? else none) ∧
    s.inbuf = l.input ++ [0] ∧ s.outbuf = [] ∧ s.params = l.params

/-- R5, R26, R60, R63: the invariant of the data state, kept by every step from every state that has it: every held value
is a word value, the data memory is canonical and inside its size, and Z and N are never both 1. -/
def Obligations.DataInvariantIsKept : Prop := ∀ s t : State, s.inv = true → step s = .next t → t.inv = true

/-- Every state a launch builds meets both invariants, where the bounds leave room for the immediates. -/
def Obligations.LaunchMeetsTheInvariants : Prop :=
  ∀ (l : Launch) (s : State), launch l = .next s → fitsFields l.params = true → s.inv = true ∧ s.romInv = true

/-- The reset state meets both invariants. Its parameters are the model's choice (log 5). -/
def Obligations.ResetMeetsTheInvariants : Prop := State.reset.inv = true ∧ State.reset.romInv = true

/-- R61, R75: no step changes the instruction image; nor the launch parameters. -/
def Obligations.ImageAndParametersNeverChange : Prop :=
  (∀ s : State, (runTick s).imem = s.imem ∧ (runTick s).params = s.params) ∧
  (∀ s t : State, step s = .next t → t.imem = s.imem ∧ t.params = s.params)
end

