-- ==== Sys2Proof/Laws/Decode.lean ====
section
/-! SUPPORT. Laws/Decode.lean: what the lookup in the decode table gives (R95, R96), under any opcode numbers. -/

namespace Sys2Proof

/-- Under distinct numbers a row of the table is found by its key. -/
theorem lookupRow_of_mem {opc : OpcodeNumbers} {r : DecodeRow} (hopc : opc.Distinct) (hr : r ∈ decodeTable) :
    lookupRow opc (opc.number r.opcode) r.flag = some r := by
  have hkey : (fun q : DecodeRow => opc.number q.opcode == opc.number r.opcode && q.flag == r.flag) =
      fun q => decide (q.opcode = r.opcode) && q.flag == r.flag := by
    funext q
    rw [Bool.beq_eq_decide_eq, decide_eq_decide.mpr ⟨hopc q.opcode r.opcode, congrArg opc.number⟩]
  rw [lookupRow, hkey]
  fin_cases hr <;> rfl

/-- A row that is found is a row of the table, and has the key. -/
theorem mem_of_lookupRow {opc : OpcodeNumbers} {opcode : BitVec 7} {flag : BitVec 1} {r : DecodeRow}
    (h : lookupRow opc opcode flag = some r) : r ∈ decodeTable ∧ opc.number r.opcode = opcode ∧ r.flag = flag := by
  have hkey := List.find?_some h
  rw [Bool.and_eq_true, beq_iff_eq, beq_iff_eq] at hkey
  exact ⟨List.mem_of_find?_eq_some h, hkey⟩

/-- Nothing is found exactly when no row of the table has the key. -/
theorem lookupRow_eq_none_iff {opc : OpcodeNumbers} {opcode : BitVec 7} {flag : BitVec 1} :
    lookupRow opc opcode flag = none ↔ ∀ r ∈ decodeTable, opc.number r.opcode = opcode → r.flag ≠ flag := by
  simp [lookupRow]

/-- A word of the decoder's row is that row's instruction, with the row's entry line. -/
theorem decode_of_lookupRow {opc : OpcodeNumbers} {w : InstrWord} {r : DecodeRow}
    (h : lookupRow opc (opcodeField w) (flagField w) = some r) :
    decode opc w = .ok (r.build (rbField w) (r1Field w) (f2Field w)) ∧ decodeEntry opc w = .ok r.entry := by
  simp [decode, decodeEntry, decodeRow, h]

/-- A word outside the table is rejected with its key. -/
theorem decode_of_lookupRow_none {opc : OpcodeNumbers} {w : InstrWord}
    (h : lookupRow opc (opcodeField w) (flagField w) = none) :
    decode opc w = .error (.notInTable (opcodeField w) (flagField w)) ∧
    decodeEntry opc w = .error (.notInTable (opcodeField w) (flagField w)) := by
  simp [decode, decodeEntry, decodeRow, h]

end Sys2Proof
end

