-- ==== Sys2Proof/Laws/State.lean ====
section
/-! SUPPORT. Laws/State.lean: what the two named updates of the state leave, field by field, and what a register read finds
after a write. Updates written as records need no lemma: a projection of them reduces. -/

namespace Sys2Proof.Machine

/-! ### setReg -/

theorem setReg_zero (s : State) (v : Int) : s.setReg 0#4 v = s := rfl

theorem setReg_of_ne {i : RegIdx} (h : i ≠ 0#4) (s : State) (v : Int) :
    s.setReg i v = { s with regs := s.regs.set (i.toNat - 1) (some v) (by have := i.isLt; omega) } := by
  simp [State.setReg, h]

@[simp] theorem setReg_left (s : State) (i : RegIdx) (v : Int) : (s.setReg i v).left = s.left := by
  unfold State.setReg; split <;> rfl

@[simp] theorem setReg_right (s : State) (i : RegIdx) (v : Int) : (s.setReg i v).right = s.right := by
  unfold State.setReg; split <;> rfl

@[simp] theorem setReg_aluResult (s : State) (i : RegIdx) (v : Int) : (s.setReg i v).aluResult = s.aluResult := by
  unfold State.setReg; split <;> rfl

@[simp] theorem setReg_memOut (s : State) (i : RegIdx) (v : Int) : (s.setReg i v).memOut = s.memOut := by
  unfold State.setReg; split <;> rfl

@[simp] theorem setReg_flags (s : State) (i : RegIdx) (v : Int) : (s.setReg i v).flags = s.flags := by
  unfold State.setReg; split <;> rfl

@[simp] theorem setReg_pc (s : State) (i : RegIdx) (v : Int) : (s.setReg i v).pc = s.pc := by
  unfold State.setReg; split <;> rfl

@[simp] theorem setReg_mpc (s : State) (i : RegIdx) (v : Int) : (s.setReg i v).mpc = s.mpc := by
  unfold State.setReg; split <;> rfl

@[simp] theorem setReg_ir (s : State) (i : RegIdx) (v : Int) : (s.setReg i v).ir = s.ir := by
  unfold State.setReg; split <;> rfl

@[simp] theorem setReg_opr (s : State) (i : RegIdx) (v : Int) : (s.setReg i v).opr = s.opr := by
  unfold State.setReg; split <;> rfl

@[simp] theorem setReg_pcSel (s : State) (i : RegIdx) (v : Int) : (s.setReg i v).pcSel = s.pcSel := by
  unfold State.setReg; split <;> rfl

@[simp] theorem setReg_dataSel (s : State) (i : RegIdx) (v : Int) : (s.setReg i v).dataSel = s.dataSel := by
  unfold State.setReg; split <;> rfl

@[simp] theorem setReg_mpcSel (s : State) (i : RegIdx) (v : Int) : (s.setReg i v).mpcSel = s.mpcSel := by
  unfold State.setReg; split <;> rfl

@[simp] theorem setReg_stride (s : State) (i : RegIdx) (v : Int) : (s.setReg i v).stride = s.stride := by
  unfold State.setReg; split <;> rfl

@[simp] theorem setReg_tick (s : State) (i : RegIdx) (v : Int) : (s.setReg i v).tick = s.tick := by
  unfold State.setReg; split <;> rfl

@[simp] theorem setReg_icount (s : State) (i : RegIdx) (v : Int) : (s.setReg i v).icount = s.icount := by
  unfold State.setReg; split <;> rfl

@[simp] theorem setReg_status (s : State) (i : RegIdx) (v : Int) : (s.setReg i v).status = s.status := by
  unfold State.setReg; split <;> rfl

@[simp] theorem setReg_imem (s : State) (i : RegIdx) (v : Int) : (s.setReg i v).imem = s.imem := by
  unfold State.setReg; split <;> rfl

@[simp] theorem setReg_dmem (s : State) (i : RegIdx) (v : Int) : (s.setReg i v).dmem = s.dmem := by
  unfold State.setReg; split <;> rfl

@[simp] theorem setReg_inbuf (s : State) (i : RegIdx) (v : Int) : (s.setReg i v).inbuf = s.inbuf := by
  unfold State.setReg; split <;> rfl

@[simp] theorem setReg_outbuf (s : State) (i : RegIdx) (v : Int) : (s.setReg i v).outbuf = s.outbuf := by
  unfold State.setReg; split <;> rfl

@[simp] theorem setReg_params (s : State) (i : RegIdx) (v : Int) : (s.setReg i v).params = s.params := by
  unfold State.setReg; split <;> rfl

theorem toNat_ne_zero {i : RegIdx} (h : i ≠ 0#4) : i.toNat ≠ 0 := fun h' => h (BitVec.eq_of_toNat_eq (by simpa using h'))

@[simp] theorem reg_zero (s : State) : s.reg 0#4 = some 0 := rfl

/-- `latch(i, v)` followed by `select(i)` yields `v` (R122). -/
theorem reg_setReg_self {i : RegIdx} (h : i ≠ 0#4) (s : State) (v : Int) : (s.setReg i v).reg i = some v := by
  simp [State.reg, State.setReg, h]

/-- A register write changes no other register (R122). -/
theorem reg_setReg_of_ne {i j : RegIdx} (h : j ≠ i) (s : State) (v : Int) : (s.setReg i v).reg j = s.reg j := by
  by_cases hi : i = 0#4
  · simp [State.setReg, hi]
  by_cases hj : j = 0#4
  · simp [State.reg, hj]
  have hne : i.toNat - 1 ≠ j.toNat - 1 := by
    have h1 := toNat_ne_zero hi
    have h2 := toNat_ne_zero hj
    have h3 : j.toNat ≠ i.toNat := fun e => h (BitVec.eq_of_toNat_eq e)
    omega
  simp [State.reg, State.setReg, hi, hj, hne]

/-- A register read depends on the register cells alone. -/
theorem reg_congr {s t : State} (h : t.regs = s.regs) (i : RegIdx) : t.reg i = s.reg i := by
  simp [State.reg, h]

/-! ### takeFault (R280, R282) -/

@[simp] theorem takeFault_status (row : RomRow) (e : RomEntry) (k : Fault) (s : State) :
    (takeFault row e k s).status =
      .faulted { kind := k, signal := e, row := row, pc := s.pc, tick := s.tick } := rfl

@[simp] theorem takeFault_regs (row : RomRow) (e : RomEntry) (k : Fault) (s : State) :
    (takeFault row e k s).regs = s.regs := rfl

@[simp] theorem takeFault_left (row : RomRow) (e : RomEntry) (k : Fault) (s : State) :
    (takeFault row e k s).left = s.left := rfl

@[simp] theorem takeFault_right (row : RomRow) (e : RomEntry) (k : Fault) (s : State) :
    (takeFault row e k s).right = s.right := rfl

@[simp] theorem takeFault_aluResult (row : RomRow) (e : RomEntry) (k : Fault) (s : State) :
    (takeFault row e k s).aluResult = s.aluResult := rfl

@[simp] theorem takeFault_memOut (row : RomRow) (e : RomEntry) (k : Fault) (s : State) :
    (takeFault row e k s).memOut = s.memOut := rfl

@[simp] theorem takeFault_flags (row : RomRow) (e : RomEntry) (k : Fault) (s : State) :
    (takeFault row e k s).flags = s.flags := rfl

@[simp] theorem takeFault_pc (row : RomRow) (e : RomEntry) (k : Fault) (s : State) :
    (takeFault row e k s).pc = s.pc := rfl

@[simp] theorem takeFault_mpc (row : RomRow) (e : RomEntry) (k : Fault) (s : State) :
    (takeFault row e k s).mpc = s.mpc := rfl

@[simp] theorem takeFault_ir (row : RomRow) (e : RomEntry) (k : Fault) (s : State) :
    (takeFault row e k s).ir = s.ir := rfl

@[simp] theorem takeFault_opr (row : RomRow) (e : RomEntry) (k : Fault) (s : State) :
    (takeFault row e k s).opr = s.opr := rfl

@[simp] theorem takeFault_pcSel (row : RomRow) (e : RomEntry) (k : Fault) (s : State) :
    (takeFault row e k s).pcSel = s.pcSel := rfl

@[simp] theorem takeFault_dataSel (row : RomRow) (e : RomEntry) (k : Fault) (s : State) :
    (takeFault row e k s).dataSel = s.dataSel := rfl

@[simp] theorem takeFault_mpcSel (row : RomRow) (e : RomEntry) (k : Fault) (s : State) :
    (takeFault row e k s).mpcSel = s.mpcSel := rfl

@[simp] theorem takeFault_stride (row : RomRow) (e : RomEntry) (k : Fault) (s : State) :
    (takeFault row e k s).stride = s.stride := rfl

@[simp] theorem takeFault_tick (row : RomRow) (e : RomEntry) (k : Fault) (s : State) :
    (takeFault row e k s).tick = s.tick := rfl

@[simp] theorem takeFault_icount (row : RomRow) (e : RomEntry) (k : Fault) (s : State) :
    (takeFault row e k s).icount = s.icount := rfl

@[simp] theorem takeFault_imem (row : RomRow) (e : RomEntry) (k : Fault) (s : State) :
    (takeFault row e k s).imem = s.imem := rfl

@[simp] theorem takeFault_dmem (row : RomRow) (e : RomEntry) (k : Fault) (s : State) :
    (takeFault row e k s).dmem = s.dmem := rfl

@[simp] theorem takeFault_inbuf (row : RomRow) (e : RomEntry) (k : Fault) (s : State) :
    (takeFault row e k s).inbuf = s.inbuf := rfl

@[simp] theorem takeFault_outbuf (row : RomRow) (e : RomEntry) (k : Fault) (s : State) :
    (takeFault row e k s).outbuf = s.outbuf := rfl

@[simp] theorem takeFault_params (row : RomRow) (e : RomEntry) (k : Fault) (s : State) :
    (takeFault row e k s).params = s.params := rfl

end Sys2Proof.Machine
end

