-- ==== Sys2Proof/Laws/Memory.lean ====
section
/-! SUPPORT. Laws/Memory.lean: the laws of the data memory (R63, R73) and its canonical form. -/

namespace Sys2Proof.Machine

/-- A read after a write to the same cell gives the value written (R73). -/
@[simp] theorem read_write_self (a : Nat) (v : Int) (m : Memory) : (m.write a v).read a = some v := by
  induction m with
  | nil => simp [Memory.write, Memory.read]
  | cons c m ih =>
    obtain ⟨b, w⟩ := c
    simp only [Memory.write]
    split
    · simp [Memory.read]
    split
    · simp [Memory.read]
    · rename_i h
      simp [Memory.read, h, ih]

/-- A write leaves every other cell alone (R73). -/
theorem read_write_of_ne {a b : Nat} (h : b ≠ a) (v : Int) (m : Memory) : (m.write a v).read b = m.read b := by
  induction m with
  | nil => simp [Memory.write, Memory.read, h]
  | cons c m ih =>
    obtain ⟨k, w⟩ := c
    simp only [Memory.write]
    split
    · simp [Memory.read, h]
    split
    · rename_i e
      subst e
      simp [Memory.read, h]
    · simp [Memory.read, ih]

theorem risingFrom_write {low a : Nat} (v : Int) {m : Memory} (h : low < a) (hm : m.risingFrom low = true) :
    (m.write a v).risingFrom low = true := by
  induction m generalizing low with
  | nil => simp [Memory.write, Memory.risingFrom, h]
  | cons c m ih =>
    obtain ⟨b, w⟩ := c
    simp only [Memory.risingFrom, Bool.and_eq_true, decide_eq_true_eq] at hm
    simp only [Memory.write]
    split
    · rename_i hab
      simp [Memory.risingFrom, h, hab, hm.2]
    split
    · rename_i hab
      subst hab
      simp [Memory.risingFrom, h, hm.2]
    · simp [Memory.risingFrom, hm.1, ih (by omega) hm.2]

/-- Writing a general cell keeps the canonical form. -/
theorem wf_write {a : Nat} (v : Int) {m : Memory} (h : 2 ≤ a) (hm : m.wf = true) : (m.write a v).wf = true :=
  risingFrom_write v (by omega) hm

/-- Every entry after a write is the written one or was there before. -/
theorem mem_write {a : Nat} {v : Int} {m : Memory} {c : Nat × Int} (h : c ∈ m.write a v) : c = (a, v) ∨ c ∈ m := by
  induction m with
  | nil => simpa [Memory.write] using h
  | cons d m ih =>
    obtain ⟨b, w⟩ := d
    simp only [Memory.write] at h
    split at h
    · simpa using h
    split at h
    · simp only [List.mem_cons] at h ⊢
      tauto
    · simp only [List.mem_cons] at h ⊢
      rcases h with h | h
      · exact .inr (.inl h)
      · rcases ih h with h | h
        · exact .inl h
        · exact .inr (.inr h)

/-- A cell that holds a value is listed. -/
theorem mem_of_read {a : Nat} {v : Int} {m : Memory} (h : m.read a = some v) : (a, v) ∈ m := by
  induction m with
  | nil => simp [Memory.read] at h
  | cons d m ih =>
    obtain ⟨b, w⟩ := d
    simp only [Memory.read] at h
    split at h
    · simp_all
    · exact List.mem_cons_of_mem _ (ih h)

/-- The memory after reset is canonical. -/
theorem reset_wf : State.reset.dmem.wf = true := rfl

end Sys2Proof.Machine
end

