-- ==== Sys2Proof/Laws/Ops.lean ====
section
/-! SUPPORT. Laws/Ops.lean: one lemma for each shared operation that says all it can do, and the laws of running a row. -/

namespace Sys2Proof.Machine

/-! ### Signals -/

/-- A register select completes exactly when the register holds a value, and changes one wire (R120, R123). -/
theorem selLeft_eq (i : RegIdx) (s : State) :
    selLeft i s = match s.reg i with
      | some v => .done { s with left := some v }
      | none => .raised (.uninitialisedRead (.register i)) s := by
  unfold selLeft readReg
  cases s.reg i <;> rfl

theorem selRight_eq (i : RegIdx) (s : State) :
    selRight i s = match s.reg i with
      | some v => .done { s with right := some v }
      | none => .raised (.uninitialisedRead (.register i)) s := by
  unfold selRight readReg
  cases s.reg i <;> rfl

theorem selLeft_of_reg {i : RegIdx} {s : State} {v : Int} (h : s.reg i = some v) :
    selLeft i s = .done { s with left := some v } := by simp [selLeft_eq, h]

theorem selLeft_of_none {i : RegIdx} {s : State} (h : s.reg i = none) :
    selLeft i s = .raised (.uninitialisedRead (.register i)) s := by simp [selLeft_eq, h]

theorem selRight_of_reg {i : RegIdx} {s : State} {v : Int} (h : s.reg i = some v) :
    selRight i s = .done { s with right := some v } := by simp [selRight_eq, h]

theorem selRight_of_none {i : RegIdx} {s : State} (h : s.reg i = none) :
    selRight i s = .raised (.uninitialisedRead (.register i)) s := by simp [selRight_eq, h]

theorem withIndex_of_le {n : Nat} (h : n ≤ 15) (f : RegIdx → State → SignalResult) (s : State) :
    withIndex n f s = f (BitVec.ofNat 4 n) s := by
  have : ¬ 15 < n := by omega
  simp [withIndex, this]

theorem withIndex_of_lt {n : Nat} (h : 15 < n) (f : RegIdx → State → SignalResult) (s : State) :
    withIndex n f s = .raised (.invalidRegisterIndex n .outOfRange) s := by simp [withIndex, h]

/-- A 4-bit field always names a register (R93). -/
@[simp] theorem withIndex_toNat (i : RegIdx) (f : RegIdx → State → SignalResult) (s : State) :
    withIndex i.toNat f s = f i s := by
  have h := i.isLt
  rw [withIndex_of_le (by omega)]
  simp

/-- Operand resolution once the operand register holds a value (R124). -/
theorem resolve_zero {s : State} {o : BitVec 24} (h : s.opr = some o) (f : RegIdx → State → SignalResult) :
    resolve 0 f s = f (oprRb o) s := by simp [resolve, operandField, h]

theorem resolve_one {s : State} {o : BitVec 24} (h : s.opr = some o) (f : RegIdx → State → SignalResult) :
    resolve 1 f s = f (oprR1 o) s := by simp [resolve, operandField, h]

theorem resolve_two {s : State} {o : BitVec 24} (h : s.opr = some o) (f : RegIdx → State → SignalResult) :
    resolve 2 f s = withIndex (oprF2 o).toNat f s := by simp [resolve, operandField, h]

theorem withF2_some {s : State} {o : BitVec 24} (h : s.opr = some o) (f : BitVec 16 → State → SignalResult) :
    withF2 f s = f (oprF2 o) s := by simp [withF2, h]

theorem alu_of_wires {s : State} {l r : Int} (hl : s.left = some l) (hr : s.right = some r) (op : AluOp) :
    alu op s = .done { s with
      aluResult := some (aluValue s.params op l r)
      flags := some (flagsOf (aluValue s.params op l r)) } := by simp [alu, hl, hr]

theorem strideIf_of_flags {s : State} {f : Flags} (h : s.flags = some f) (c : Cond) :
    strideIf c s = .done { s with stride := if condHolds c f then .two else .one } := by simp [strideIf, h]

/-- The selects complete in every state and change one selector or one wire (R125, R126, R135, R138, R140). -/
theorem selPc_eq (sel : PcSel) (s : State) : selPc sel s = .done { s with pcSel := sel } := rfl

theorem selData_eq (sel : DataSel) (s : State) : selData sel s = .done { s with dataSel := sel } := rfl

theorem selMpc_eq (sel : MpcSel) (s : State) : selMpc sel s = .done { s with mpcSel := sel } := rfl

theorem selLeftAddr_eq (f2 : BitVec 16) (s : State) : selLeftAddr f2 s = .done { s with left := some (f2.toNat : Int) } :=
  rfl

theorem selRightNum_eq (f2 : BitVec 16) (s : State) :
    selRightNum f2 s = .done { s with right := some (immExt s.params f2) } := rfl

theorem latchPc_inc {s : State} (h : s.pcSel = .inc) (f2 : Option (BitVec 16)) :
    latchPc f2 s = .done { s with pc := s.pc + 1#16 } := by simp [latchPc, h]

theorem latchPc_addr {s : State} (h : s.pcSel = .addr) (f2 : BitVec 16) :
    latchPc (some f2) s = .done { s with pc := f2 } := by simp [latchPc, h]

theorem latchReg_zero (s : State) : latchReg 0#4 s = .raised (.invalidRegisterIndex 0 .immutable) s := rfl

theorem latchReg_alu {i : RegIdx} {s : State} {v : Int} (hi : i ≠ 0#4) (hd : s.dataSel = .alu) (hv : s.aluResult = some v) :
    latchReg i s = .done (s.setReg i v) := by simp [latchReg, dataSource, hi, hd, hv]

theorem latchReg_mem {i : RegIdx} {s : State} {v : Int} (hi : i ≠ 0#4) (hd : s.dataSel = .mem) (hv : s.memOut = some v) :
    latchReg i s = .done (s.setReg i v) := by simp [latchReg, dataSource, hi, hd, hv]

theorem latchMpc_ir {s : State} {entry : RomRow} (h : s.mpcSel = .ir) (hi : s.ir = some entry) (row : RomRow) :
    latchMpc row s = .done { s with mpc := entry } := by simp [latchMpc, h, hi]

theorem latchMpc_inc {s : State} {row : RomRow} (h : s.mpcSel = .inc) (hn : row.val + s.stride.toNat < 30) :
    latchMpc row s = .done { s with mpc := ⟨row.val + s.stride.toNat, hn⟩, stride := .one } := by
  simp [latchMpc, h, gotoRow, hn]

theorem latchMpc_zero {s : State} (h : s.mpcSel = .zero) (row : RomRow) :
    latchMpc row s = .done { s with mpc := 0 } := by simp [latchMpc, h]

theorem memReadSignal_ok {a v : Int} {s t : State} (ha : s.left = some a) (h : memRead a s = .ok (v, t)) :
    memReadSignal s = .done { t with memOut := some v } := by simp only [memReadSignal, ha, h]

theorem memReadSignal_error {a : Int} {k : Fault} {s : State} (ha : s.left = some a) (h : memRead a s = .error k) :
    memReadSignal s = .raised k s := by simp only [memReadSignal, ha, h]

theorem memWriteSignal_ok {a v : Int} {s t : State} (ha : s.left = some a) (hv : s.right = some v)
    (h : memWrite a v s = .ok t) : memWriteSignal s = .done t := by simp only [memWriteSignal, ha, hv, h]

theorem memWriteSignal_error {a v : Int} {k : Fault} {s : State} (ha : s.left = some a) (hv : s.right = some v)
    (h : memWrite a v s = .error k) : memWriteSignal s = .raised k s := by simp only [memWriteSignal, ha, hv, h]

theorem gotoRow_of_lt {n : Nat} (h : n < 30) (s : State) : gotoRow n s = .done { s with mpc := ⟨n, h⟩ } := by
  simp [gotoRow, h]

/-- A data read that completes either pops the input or reads a general cell, and changes nothing else (R65). -/
theorem memRead_ok {a : Int} {s t : State} {v : Int} (h : memRead a s = .ok (v, t)) :
    (a = 0 ∧ s.inbuf = v :: t.inbuf ∧ t = { s with inbuf := t.inbuf }) ∨
    (2 ≤ a ∧ a < s.params.dmemSize ∧ s.cell a.toNat = some v ∧ t = s) := by
  unfold memRead at h
  split at h
  · rename_i h0
    left
    unfold inPop at h
    cases hb : s.inbuf with
    | nil => simp [hb] at h
    | cons x xs =>
      simp only [hb, Except.ok.injEq, Prod.mk.injEq] at h
      obtain ⟨rfl, rfl⟩ := h
      exact ⟨h0, rfl, rfl⟩
  split at h
  · cases h
  split at h
  · cases h
  · rename_i h0 h1 h2
    right
    cases hc : s.cell a.toNat with
    | none => simp [hc] at h
    | some x =>
      simp only [hc, Except.ok.injEq, Prod.mk.injEq] at h
      obtain ⟨rfl, rfl⟩ := h
      exact ⟨by omega, by omega, rfl, rfl⟩

/-- A data write that completes either pushes the output or writes a general cell, and changes nothing else (R66). -/
theorem memWrite_ok {a v : Int} {s t : State} (h : memWrite a v s = .ok t) :
    (a = 1 ∧ t = { s with outbuf := s.outbuf ++ [v] }) ∨
    (2 ≤ a ∧ a < s.params.dmemSize ∧ t = { s with dmem := s.dmem.write a.toNat v }) := by
  unfold memWrite at h
  split at h
  · cases h
  split at h
  · rename_i h1
    cases h
    exact .inl ⟨h1, rfl⟩
  split at h
  · cases h
  · rename_i h0 h1 h2
    cases h
    exact .inr ⟨by omega, by omega, rfl⟩

/-! ### Rows -/

@[simp] theorem runOps_nil (row : RomRow) (s : State) : runOps row [] s = { s with tick := s.tick + 1 } := rfl

/-- A signal that completes, other than HALT, hands its state to the rest of the row (R172). -/
theorem runOps_cons_done {row : RomRow} {e : RomEntry} {f : State → SignalResult} {ops : List RowOp} {s t : State}
    (h : f s = .done t) (ht : t.status ≠ .halted) : runOps row (⟨e, f⟩ :: ops) s = runOps row ops t := by
  simp [runOps, h, ht]

/-- A signal that raises a fault ends the row (R280). -/
theorem runOps_cons_raised {row : RomRow} {e : RomEntry} {f : State → SignalResult} {ops : List RowOp} {s t : State}
    {k : Fault} (h : f s = .raised k t) : runOps row (⟨e, f⟩ :: ops) s = takeFault row e k t := by
  simp [runOps, h]

/-- A row of a run that has ended does nothing (R182). -/
theorem runRow_of_ended {s : State} (h : s.status ≠ .running) (row : RomRow) (ops : List RowOp) :
    runRow row ops s = s := by simp [runRow, h]

/-- The budget is checked before the row (R284). -/
theorem runRow_of_limit {s : State} (h : s.status = .running) (ht : s.tick = s.params.tickLimit) (row : RomRow)
    (ops : List RowOp) : runRow row ops s = { s with status := .timeout } := by simp [runRow, h, ht]

/-- With budget left a row of a running machine runs its signals (R170). -/
theorem runRow_of_running {s : State} (h : s.status = .running) (ht : s.tick ≠ s.params.tickLimit) (row : RomRow)
    (ops : List RowOp) : runRow row ops s = runOps row ops s := by simp [runRow, h, ht]

/-- The state a signal leaves, whether it completes or raises a fault. -/
def SignalResult.state : SignalResult → State
  | .done s => s
  | .raised _ s => s

@[simp] theorem state_done (s : State) : (SignalResult.done s).state = s := rfl

@[simp] theorem state_raised (k : Fault) (s : State) : (SignalResult.raised k s).state = s := rfl

/-- What every signal of a row, the end of the row, and raising a fault keep, running the row keeps (R170). -/
theorem runOps_keeps {P : State → Prop} {row : RomRow} {ops : List RowOp}
    (hops : ∀ op ∈ ops, ∀ s, P s → P (op.run s).state)
    (hfault : ∀ op ∈ ops, ∀ s k t, P s → op.run s = .raised k t → P t → P (takeFault row op.entry k t))
    (hend : ∀ s, P s → P { s with tick := s.tick + 1 }) {s : State} (hs : P s) : P (runOps row ops s) := by
  induction ops generalizing s with
  | nil => exact hend s hs
  | cons op ops ih =>
    obtain ⟨e, f⟩ := op
    have hrun := hops ⟨e, f⟩ (by simp) s hs
    cases h : f s with
    | raised k t =>
      rw [runOps_cons_raised h]
      rw [show (RowOp.mk e f).run s = _ from h] at hrun
      exact hfault ⟨e, f⟩ (by simp) s k t hs h hrun
    | done t =>
      rw [show (RowOp.mk e f).run s = _ from h] at hrun
      by_cases ht : t.status = .halted
      · simpa [runOps, h, ht, SignalResult.state] using hrun
      · rw [runOps_cons_done h ht]
        exact ih (fun o ho => hops o (by simp [ho])) (fun o ho => hfault o (by simp [ho])) hrun

/-- `runOps_keeps` for a whole tick, which may also end in TIMEOUT. -/
theorem runRow_keeps {P : State → Prop} {row : RomRow} {ops : List RowOp}
    (hops : ∀ op ∈ ops, ∀ s, P s → P (op.run s).state)
    (hfault : ∀ op ∈ ops, ∀ s k t, P s → op.run s = .raised k t → P t → P (takeFault row op.entry k t))
    (hend : ∀ s, P s → P { s with tick := s.tick + 1 })
    (htime : ∀ s, P s → P { s with status := .timeout }) {s : State} (hs : P s) : P (runRow row ops s) := by
  unfold runRow
  split
  · exact hs
  split
  · exact htime s hs
  · exact runOps_keeps hops hfault hend hs

/-- A run that has ended stays as it is (R171, R182). -/
theorem runTicks_of_ended {s : State} (h : s.status ≠ .running) (n : Nat) : runTicks n s = s := by
  induction n with
  | zero => rfl
  | succ n ih => rw [runTicks, runTick, runRow_of_ended h, ih]

end Sys2Proof.Machine
end

