-- ==== Sys2Proof/Laws/PerInstr.lean ====
section
/-! SUPPORT. Laws/PerInstr.lean: the family KeyOfEncoding, one lemma per constructor of Instr: the (opcode, FLAG) key of an
encoded instruction is the key of its row in R95, and its operand bits are its own. -/

namespace Sys2Proof.Laws.KeyOfEncoding

/-- The key and the operand bits that the decoder reads from the word of `i` are those of `i`, under every numbering of
the opcodes. -/
def Statement (i : Instr) : Prop :=
  ∀ opc : OpcodeNumbers, opcodeField (encode opc i) = opc.number i.opcode ∧ flagField (encode opc i) = i.flag ∧
    oprField (encode opc i) = i.operands

/-- The top part of three. -/
theorem top_of_parts {a b c : Nat} (x : BitVec a) (y : BitVec b) (z : BitVec c) :
    (x ++ y ++ z).extractLsb' (b + c) a = x := by
  apply BitVec.eq_of_getLsbD_eq
  intro k hk
  have h1 : ¬ b + c + k < c := by omega
  have h2 : ¬ b + c + k - c < b := by omega
  have h3 : b + c + k - c - b = k := by omega
  simp [BitVec.getLsbD_append, hk, h1, h2, h3]

/-- The middle part of three. -/
theorem middle_of_parts {a b c : Nat} (x : BitVec a) (y : BitVec b) (z : BitVec c) :
    (x ++ y ++ z).extractLsb' c b = y := by
  apply BitVec.eq_of_getLsbD_eq
  intro k hk
  simp [BitVec.getLsbD_append, hk]

/-- The last part of three. -/
theorem last_of_parts {a b c : Nat} (x : BitVec a) (y : BitVec b) (z : BitVec c) :
    (x ++ y ++ z).extractLsb' 0 c = z := by
  apply BitVec.eq_of_getLsbD_eq
  intro k hk
  simp [BitVec.getLsbD_append, hk]

/-- The three parts of a word do not overlap (R90). -/
theorem fields_of_parts (op : BitVec 7) (o : BitVec 24) (f : BitVec 1) :
    opcodeField (op ++ o ++ f) = op ∧ flagField (op ++ o ++ f) = f ∧ oprField (op ++ o ++ f) = o :=
  ⟨top_of_parts op o f, last_of_parts op o f, middle_of_parts op o f⟩

theorem nop : Statement .nop := fun _ => fields_of_parts _ _ _

theorem halt : Statement .halt := fun _ => fields_of_parts _ _ _

theorem addReg (rd rs1 : RegIdx) (f2 : BitVec 16) : Statement (.addReg rd rs1 f2) := fun _ => fields_of_parts _ _ _

theorem addImm (rd rs1 : RegIdx) (f2 : BitVec 16) : Statement (.addImm rd rs1 f2) := fun _ => fields_of_parts _ _ _

theorem subReg (rd rs1 : RegIdx) (f2 : BitVec 16) : Statement (.subReg rd rs1 f2) := fun _ => fields_of_parts _ _ _

theorem subImm (rd rs1 : RegIdx) (f2 : BitVec 16) : Statement (.subImm rd rs1 f2) := fun _ => fields_of_parts _ _ _

theorem mulReg (rd rs1 : RegIdx) (f2 : BitVec 16) : Statement (.mulReg rd rs1 f2) := fun _ => fields_of_parts _ _ _

theorem mulImm (rd rs1 : RegIdx) (f2 : BitVec 16) : Statement (.mulImm rd rs1 f2) := fun _ => fields_of_parts _ _ _

theorem andReg (rd rs1 : RegIdx) (f2 : BitVec 16) : Statement (.andReg rd rs1 f2) := fun _ => fields_of_parts _ _ _

theorem andImm (rd rs1 : RegIdx) (f2 : BitVec 16) : Statement (.andImm rd rs1 f2) := fun _ => fields_of_parts _ _ _

theorem loadReg (rd ra : RegIdx) : Statement (.loadReg rd ra) := fun _ => fields_of_parts _ _ _

theorem loadAddr (rd : RegIdx) (f2 : BitVec 16) : Statement (.loadAddr rd f2) := fun _ => fields_of_parts _ _ _

theorem writeReg (rs ra : RegIdx) : Statement (.writeReg rs ra) := fun _ => fields_of_parts _ _ _

theorem writeAddr (rs : RegIdx) (f2 : BitVec 16) : Statement (.writeAddr rs f2) := fun _ => fields_of_parts _ _ _

theorem beq (ra rb : RegIdx) (f2 : BitVec 16) : Statement (.beq ra rb f2) := fun _ => fields_of_parts _ _ _

theorem bne (ra rb : RegIdx) (f2 : BitVec 16) : Statement (.bne ra rb f2) := fun _ => fields_of_parts _ _ _

theorem bgt (ra rb : RegIdx) (f2 : BitVec 16) : Statement (.bgt ra rb f2) := fun _ => fields_of_parts _ _ _

theorem blt (ra rb : RegIdx) (f2 : BitVec 16) : Statement (.blt ra rb f2) := fun _ => fields_of_parts _ _ _

theorem jump (f2 : BitVec 16) : Statement (.jump f2) := fun _ => fields_of_parts _ _ _

end Sys2Proof.Laws.KeyOfEncoding
end

