-- ==== Sys2Proof/Laws/Rows.lean ====
section
/-! SUPPORT. Laws/Rows.lean: what the shared tails of the instruction rows and the test row of a branch do, and that the data
memory does not see the wires. -/

namespace Sys2Proof.Machine

/-- A data read does not depend on the left wire (R65). -/
theorem memRead_left (a : Int) (s : State) (l : Option Int) :
    memRead a { s with left := l } = match memRead a s with
      | .ok (v, t) => .ok (v, { t with left := l })
      | .error k => .error k := by
  simp only [memRead, inPop, State.cell]
  split
  · cases s.inbuf <;> rfl
  split
  · rfl
  split
  · rfl
  cases s.dmem.read a.toNat <;> rfl

/-- A data write does not depend on the wires (R66). -/
theorem memWrite_wires (a v : Int) (s : State) (l r : Option Int) :
    memWrite a v { s with left := l, right := r } = match memWrite a v s with
      | .ok t => .ok { t with left := l, right := r }
      | .error k => .error k := by
  simp only [memWrite, outPush]
  split
  · rfl
  split
  · rfl
  split <;> rfl

/-- A read of a general cell that holds a value (R65). -/
theorem memRead_cell {s : State} {a v : Int} (h2 : 2 ≤ a) (h3 : a < s.params.dmemSize) (hc : s.cell a.toNat = some v) :
    memRead a s = .ok (v, s) := by
  simp [memRead, show a ≠ 0 by omega, show a ≠ 1 by omega, show ¬ (a < 0 ∨ (s.params.dmemSize : Int) ≤ a) by omega, hc]

/-- A write of a general cell (R66). -/
theorem memWrite_cell {s : State} {a : Int} (v : Int) (h2 : 2 ≤ a) (h3 : a < s.params.dmemSize) :
    memWrite a v s = .ok { s with dmem := s.dmem.write a.toNat v } := by
  simp [memWrite, show a ≠ 0 by omega, show a ≠ 1 by omega, show ¬ (a < 0 ∨ (s.params.dmemSize : Int) ≤ a) by omega]

/-- The state a data read leaves differs from the one before in the input FIFO only (R65, R67). -/
theorem memRead_state {a v : Int} {s t : State} (h : memRead a s = .ok (v, t)) : t = { s with inbuf := t.inbuf } := by
  rcases memRead_ok h with ⟨_, _, h⟩ | ⟨_, _, _, rfl⟩
  · exact h
  · rfl

/-- The condition of a stride signal, on the flags of a difference, is the condition the branch rules give (R142). -/
theorem condHolds_flagsOf (c : Cond) (d : Int) : condHolds c (flagsOf d) = taken c d := by
  cases c <;> simp [condHolds, flagsOf, taken]
  by_cases h : d = 0 <;> simp [h]
  rw [← decide_not]; congr 1; simp; omega

/-! ### Tails of rows -/

/-- The tail of an ALU row on two held wires, with a destination other than `r0`. -/
theorem aluTail_run {s : State} (hs : s.status ≠ .halted) (row : RomRow) (op : AluOp) {rd : RegIdx} {l r : Int}
    (hl : s.left = some l) (hr : s.right = some r) (hd : rd ≠ 0#4) :
    runOps row (aluTail row op rd) s = { s.setReg rd (aluValue s.params op l r) with
      aluResult := some (aluValue s.params op l r)
      flags := some (flagsOf (aluValue s.params op l r))
      dataSel := .alu
      mpcSel := .zero
      mpc := 0
      tick := s.tick + 1 } := by
  simp only [aluTail, ret, List.cons_append, List.nil_append]
  rw [runOps_cons_done (alu_of_wires hl hr op) (by exact hs), runOps_cons_done (selData_eq _ _) (by exact hs),
    runOps_cons_done (latchReg_alu hd rfl rfl) (by simp [hs]), runOps_cons_done (selMpc_eq _ _) (by simp [hs]),
    runOps_cons_done (latchMpc_zero rfl _) (by simp [hs])]
  simp [State.setReg, hd]

/-- The tail of an ALU row with destination `r0`: result and flags are written, then the latch faults. -/
theorem aluTail_zero {s : State} (hs : s.status ≠ .halted) (row : RomRow) (op : AluOp) {l r : Int}
    (hl : s.left = some l) (hr : s.right = some r) :
    runOps row (aluTail row op 0#4) s = takeFault row (.latchOp 0) (.invalidRegisterIndex 0 .immutable) { s with
      aluResult := some (aluValue s.params op l r)
      flags := some (flagsOf (aluValue s.params op l r))
      dataSel := .alu } := by
  simp only [aluTail, ret, List.cons_append, List.nil_append]
  rw [runOps_cons_done (alu_of_wires hl hr op) (by exact hs), runOps_cons_done (selData_eq _ _) (by exact hs),
    runOps_cons_raised (latchReg_zero _)]

/-- The tail of a load row whose read completes, with a destination other than `r0`. -/
theorem loadTail_run {s u : State} (hs : s.status ≠ .halted) (row : RomRow) {rd : RegIdx} {a v : Int}
    (hl : s.left = some a) (hm : memRead a s = .ok (v, u)) (hd : rd ≠ 0#4) :
    runOps row (loadTail row rd) s = { s.setReg rd v with
      inbuf := u.inbuf
      memOut := some v
      dataSel := .mem
      mpcSel := .zero
      mpc := 0
      tick := s.tick + 1 } := by
  have hm' : memReadSignal s = .done { s with inbuf := u.inbuf, memOut := some v } := by
    rw [memReadSignal_ok hl hm, memRead_state hm]
  simp only [loadTail, ret, List.cons_append, List.nil_append]
  rw [runOps_cons_done hm' (by exact hs), runOps_cons_done (selData_eq _ _) (by exact hs),
    runOps_cons_done (latchReg_mem hd rfl rfl) (by simp [hs]), runOps_cons_done (selMpc_eq _ _) (by simp [hs]),
    runOps_cons_done (latchMpc_zero rfl _) (by simp [hs])]
  simp [State.setReg, hd]

/-- The tail of a load row with destination `r0`: the read has taken effect, then the latch faults. -/
theorem loadTail_zero {s u : State} (hs : s.status ≠ .halted) (row : RomRow) {a v : Int} (hl : s.left = some a)
    (hm : memRead a s = .ok (v, u)) :
    runOps row (loadTail row 0#4) s = takeFault row (.latchOp 0) (.invalidRegisterIndex 0 .immutable) { s with
      inbuf := u.inbuf
      memOut := some v
      dataSel := .mem } := by
  have hm' : memReadSignal s = .done { s with inbuf := u.inbuf, memOut := some v } := by
    rw [memReadSignal_ok hl hm, memRead_state hm]
  simp only [loadTail, ret, List.cons_append, List.nil_append]
  rw [runOps_cons_done hm' (by exact hs), runOps_cons_done (selData_eq _ _) (by exact hs),
    runOps_cons_raised (latchReg_zero _)]

/-- The tail of a load row whose read faults. -/
theorem loadTail_error {s : State} (row : RomRow) (rd : RegIdx) {a : Int} {k : Fault} (hl : s.left = some a)
    (hm : memRead a s = .error k) : runOps row (loadTail row rd) s = takeFault row (.signal .memRead) k s := by
  simp only [loadTail, ret, List.cons_append, List.nil_append]
  rw [runOps_cons_raised (memReadSignal_error hl hm)]

/-- The tail of a store row whose write completes. -/
theorem storeTail_run {s u : State} (hs : s.status ≠ .halted) (hu : u.status ≠ .halted) (row : RomRow) {rs : RegIdx}
    {a v : Int} (hl : s.left = some a) (hv : s.reg rs = some v) (hm : memWrite a v { s with right := some v } = .ok u) :
    runOps row (storeTail row rs) s = { u with mpcSel := .zero, mpc := 0, tick := u.tick + 1 } := by
  have hm' : memWriteSignal { s with right := some v } = .done u := memWriteSignal_ok hl rfl hm
  simp only [storeTail, ret, List.cons_append, List.nil_append]
  rw [runOps_cons_done (selRight_of_reg hv) (by exact hs), runOps_cons_done hm' (by exact hu),
    runOps_cons_done (selMpc_eq _ _) (by exact hu), runOps_cons_done (latchMpc_zero rfl _) (by exact hu)]
  rfl

/-- The test row of a branch on two registers that hold values (R177). -/
theorem testRow_run {s : State} (hs : s.status = .running) (ht : s.tick ≠ s.params.tickLimit) {row : RomRow} (c : Cond)
    {ra rb : RegIdx} {a b : Int} (ha : s.reg ra = some a) (hb : s.reg rb = some b) (hrow : row.val + 2 < 30) :
    testRow row c ra rb s = { s with
      left := some a
      right := some b
      aluResult := some (wrap s.params (a - b))
      flags := some (flagsOf (wrap s.params (a - b)))
      stride := .one
      mpcSel := .inc
      mpc := if taken c (wrap s.params (a - b)) then ⟨row.val + 2, hrow⟩ else ⟨row.val + 1, by omega⟩
      tick := s.tick + 1 } := by
  have hn : s.status ≠ .halted := by simp [hs]
  have hb' : ({ s with left := some a } : State).reg rb = some b := hb
  rw [← condHolds_flagsOf]
  simp only [testRow, runRow_of_running hs ht]
  rw [runOps_cons_done (selLeft_of_reg ha) (by exact hn), runOps_cons_done (selRight_of_reg hb') (by exact hn),
    runOps_cons_done (alu_of_wires (l := a) (r := b) rfl rfl .sub) (by exact hn),
    runOps_cons_done (strideIf_of_flags rfl c) (by exact hn), runOps_cons_done (selMpc_eq _ _) (by exact hn)]
  simp only [runOps, latchMpc, gotoRow]
  by_cases h : condHolds c (flagsOf (wrap s.params (a - b))) = true
  · simp [h, aluValue, aluExact, Stride.toNat, hrow, hn]
  · simp [h, aluValue, aluExact, Stride.toNat, show row.val + 1 < 30 by omega, hn]

end Sys2Proof.Machine
end

