-- ==== Sys2Proof/Tests/Slice0.lean ====
section
/-! SUPPORT. Tests/Slice0.lean: words written out from the spec's encoding, refused terms and launches, single steps from
spec/95_test_vectors.md, and a state that meets the hypotheses of each obligation (test_hyp_…). -/

open Sys2Proof Sys2Proof.Machine

/-! ### Helpers -/

/-- A word written out field by field in the layout of R90. -/
def word (opcode : BitVec 7) (rb r1 : BitVec 4) (f2 : BitVec 16) (flag : BitVec 1) : InstrWord :=
  opcode ++ rb ++ r1 ++ f2 ++ flag

/-- The reset state with some registers preloaded and an image placed. -/
def preset (regs : List (Nat × Int)) (image : List InstrWord) : State :=
  { State.reset with regs := Vector.ofFn fun i => regs.lookup (i.val + 1), imem := image }

/-- The state after one step. -/
def after (s : State) : State :=
  match step s with
  | .next t => t
  | .fault _ => s
  | .refused _ => s

/-- The state after `exec`. -/
def ran (i : Instr) (s : State) : State :=
  match exec i s with
  | .next t => t
  | .fault _ => s
  | .refused _ => s

/-- The fault of a state, with its signal and row. -/
def faultOf (s : State) : Option (Fault × RomEntry × RomRow) :=
  match s.status with
  | .faulted r => some (r.kind, r.signal, r.row)
  | _ => none

/-- The decoder's answer, as an option. -/
def decoded (w : InstrWord) : Option Instr :=
  match decode .listed w with
  | .ok i => some i
  | .error _ => none

/-- The rejection of a word, as an option. -/
def rejected (w : InstrWord) : Option Reject :=
  match decode .listed w with
  | .ok _ => none
  | .error e => some e

/-! ### Decoding: words written out bit by bit (R90, R94, R95) -/

theorem test_word_nop : decoded (word 0b0000000 0b0000 0b0000 0b0000000000000000 0b0) = some .nop := by decide

theorem test_word_nop_ignores_fields :
    decoded (word 0b0000000 0b1111 0b1111 0b1111111111111111 0b0) = some .nop := by decide

theorem test_word_halt : decoded (word 0b0000001 0b0000 0b0000 0b0000000000000000 0b0) = some .halt := by decide

theorem test_word_add_register :
    decoded (word 0b0000010 0b0001 0b0010 0b0000000000000011 0b0) = some (.addReg 1 2 3) := by decide

theorem test_word_add_immediate :
    decoded (word 0b0000010 0b0001 0b0010 0b1111111111111111 0b1) = some (.addImm 1 2 0xFFFF) := by decide

theorem test_word_sub_register :
    decoded (word 0b0000011 0b0001 0b0010 0b0000000000000011 0b0) = some (.subReg 1 2 3) := by decide

theorem test_word_sub_immediate :
    decoded (word 0b0000011 0b0001 0b0010 0b1111111111111101 0b1) = some (.subImm 1 2 0xFFFD) := by decide

theorem test_word_mul_register :
    decoded (word 0b0000100 0b1000 0b0100 0b0000000000000010 0b0) = some (.mulReg 8 4 2) := by decide

theorem test_word_mul_immediate :
    decoded (word 0b0000100 0b0001 0b0010 0b0000000000000100 0b1) = some (.mulImm 1 2 4) := by decide

theorem test_word_and_register :
    decoded (word 0b0000101 0b0001 0b0010 0b0000000000000011 0b0) = some (.andReg 1 2 3) := by decide

theorem test_word_and_immediate :
    decoded (word 0b0000101 0b0001 0b0010 0b1000000000000001 0b1) = some (.andImm 1 2 0x8001) := by decide

theorem test_word_load_register :
    decoded (word 0b0000110 0b0101 0b0100 0b0000000000000000 0b0) = some (.loadReg 5 4) := by decide

theorem test_word_load_address :
    decoded (word 0b0000110 0b0001 0b0000 0b0000000001000000 0b1) = some (.loadAddr 1 64) := by decide

theorem test_word_write_register :
    decoded (word 0b0000111 0b0010 0b0001 0b0000000000000000 0b0) = some (.writeReg 2 1) := by decide

theorem test_word_write_address :
    decoded (word 0b0000111 0b0001 0b0000 0b0000000000000001 0b1) = some (.writeAddr 1 1) := by decide

theorem test_word_beq :
    decoded (word 0b0001000 0b0001 0b0010 0b0000000000000010 0b1) = some (.beq 1 2 2) := by decide

theorem test_word_bne :
    decoded (word 0b0001001 0b0001 0b0000 0b0000000000000010 0b1) = some (.bne 1 0 2) := by decide

theorem test_word_bgt :
    decoded (word 0b0001010 0b0001 0b0010 0b0000000000000111 0b1) = some (.bgt 1 2 7) := by decide

theorem test_word_blt :
    decoded (word 0b0001011 0b0001 0b0010 0b0000000000000100 0b1) = some (.blt 1 2 4) := by decide

theorem test_word_jump :
    decoded (word 0b0001100 0b0000 0b0000 0b1111111111111111 0b1) = some (.jump 0xFFFF) := by decide

/-- The words of the spec's examples (spec/95, Encoding and decode). -/
theorem test_words_in_hexadecimal :
    word 0b0000010 0b0001 0b0010 0b0000000000000011 0b0 = 0x04240006#32 ∧
    word 0b0001011 0b0001 0b0010 0b0000000000000100 0b1 = 0x16240009#32 ∧
    encode .listed (.loadReg 5 4) = 0x0CA80000#32 ∧ encode .listed (.writeReg 1 2) = 0x0E240000#32 := by decide

/-- Another value of the parameter `OPC` (R94): ADD and SUB exchange their numbers, JUMP is 127. -/
def renumbered : OpcodeNumbers := { OpcodeNumbers.listed with add := 3, sub := 2, jump := 127 }

theorem test_words_renumbered :
    encode renumbered (.addReg 1 2 3) = 0x06240006#32 ∧ decode renumbered 0x04240006#32 = .ok (.subReg 1 2 3) ∧
    decode renumbered 0xFE00000B#32 = .ok (.jump 5) ∧
    decodeEntry renumbered 0x18000001#32 = .error (.notInTable 12 1) := ⟨by decide, rfl, rfl, rfl⟩

/-- Words that R97 calls illegal. -/
theorem test_words_rejected :
    rejected 0x00000001#32 = some (.notInTable 0 1) ∧ rejected 0x02000001#32 = some (.notInTable 1 1) ∧
    rejected 0x10000000#32 = some (.notInTable 8 0) ∧ rejected 0x18000000#32 = some (.notInTable 12 0) ∧
    rejected 0x1A000000#32 = some (.notInTable 13 0) ∧ rejected 0xFFFFFFFF#32 = some (.notInTable 127 1) := by decide

theorem test_decodeTableWord :
    decodeTableWord 32 0x04240006 = some (.addReg 1 2 3) ∧ decodeTableWord 32 0x18000000 = none := by decide

/-! ### Terms that the checks refuse -/

theorem test_ill_formed_register_index :
    (Instr.addReg 1 0 16).wellFormed = false ∧ (Instr.subReg 1 0 0xFFFF).wellFormed = false ∧
    (Instr.mulReg 1 0 16).wellFormed = false ∧ (Instr.andReg 1 0 16).wellFormed = false := by decide

theorem test_well_formed_boundary :
    (Instr.addReg 1 0 15).wellFormed = true ∧ (Instr.addImm 1 0 0xFFFF).wellFormed = true := by decide

/-- A launch that meets every premise: one HALT word given as a number, one data value, input "A", `r2 = 2`. -/
def goodLaunch : Launch :=
  { Launch.nothing with
    image := [.number 0x02000000], dataImage := [44], input := [65], preload := (Vector.replicate 16 none).set 2 (some 2) }

/-- The premise at which a launch is refused. -/
def refusedAt (l : Launch) : Option LaunchPremise :=
  match launch l with
  | .refused (.launchRefused p) => some p
  | _ => none

theorem test_good_launch : refusedAt goodLaunch = none := by decide

theorem test_launch_refused_imageLength : refusedAt Launch.nothing = some .imageLength := by decide

theorem test_launch_refused_imageWords :
    refusedAt { goodLaunch with image := [.text ['0', '1']] } = some .imageWords ∧
    refusedAt { goodLaunch with image := [.number 4294967296] } = some .imageWords := by decide

theorem test_launch_refused_dataImageLength :
    refusedAt { goodLaunch with params := { Params.default with dmemSize := 2 } } = some .dataImageLength := by decide

theorem test_launch_refused_valuesInRange :
    refusedAt { goodLaunch with input := [2147483648] } = some .valuesInRange := by decide

theorem test_launch_refused_boundsAroundZero :
    refusedAt { goodLaunch with
      params := { Params.default with minNumber := 1 }, dataImage := [], input := [],
      preload := Vector.replicate 16 none } = some .boundsAroundZero := by decide

theorem test_launch_refused_dmemSize :
    premiseHolds { goodLaunch with dataImage := [], params := { Params.default with dmemSize := 1 } }
      .dmemSizeAtLeastTwo = false := by decide

theorem test_launch_refused_preload :
    refusedAt { goodLaunch with preload := (Vector.replicate 16 none).set 0 (some 0) } = some .preloadRegisters := by
  decide

theorem test_reset_is_the_empty_launch : Launch.initial Launch.nothing = State.reset := by decide

/-! ### Single steps (spec/95_test_vectors.md) -/

/-- VA1, VA2, VA8 -/
theorem test_add_register :
    (after (preset [(2, 2), (3, 3)] [0x04240006])).reg 1 = some 5 ∧
    (after (preset [(2, 2147483647), (3, 1)] [0x04240006])).reg 1 = some (-2147483648) ∧
    (after (preset [(2, 21)] [0x04440004])).reg 2 = some 42 := by decide

/-- VF2, VF5 -/
theorem test_add_register_faults :
    faultOf (after (preset [] [0x04200020])) = some (.invalidRegisterIndex 16 .outOfRange, .selRightOp 2, 5) ∧
    faultOf (after (preset [] [0x040A0028])) = some (.uninitialisedRead (.register 5), .selLeftOp 1, 5) := by decide

/-- VA6: F2 = 0x8000 is -32768. -/
theorem test_add_immediate :
    (after (preset [] [0x04210001])).reg 1 = some (-32768) ∧
    (after (preset [] [0x04210001])).flags = some ⟨false, true⟩ := by decide

/-- VF1: the result and the flags are written before the fault. -/
theorem test_add_immediate_to_r0 :
    faultOf (after (preset [] [0x04000003])) = some (.invalidRegisterIndex 0 .immutable, .latchOp 0, 6) ∧
    (after (preset [] [0x04000003])).aluResult = some 1 ∧ (after (preset [] [0x04000003])).tick = 3 := by decide

/-- VA11, VA12 -/
theorem test_sub_register :
    (after (preset [(3, -2147483648)] [0x06200006])).reg 1 = some (-2147483648) ∧
    (after (preset [(2, 5), (3, 7)] [0x06240006])).reg 1 = some (-2) := by decide

/-- VA14 -/
theorem test_sub_immediate : (after (preset [(2, 4)] [0x0625FFFB])).reg 1 = some 7 := by decide

/-- VA15: the wrapped product is 0, so `Z = 1`. -/
theorem test_mul_register :
    (after (preset [(2, 65536)] [0x08240004])).reg 1 = some 0 ∧
    (after (preset [(2, 65536)] [0x08240004])).flags = some ⟨true, false⟩ := by decide

/-- VA18 -/
theorem test_mul_immediate : (after (preset [(2, -3)] [0x08240009])).reg 1 = some (-12) := by decide

/-- VA21 -/
theorem test_and_register : (after (preset [(2, -2), (3, -3)] [0x0A240006])).reg 1 = some (-4) := by decide

/-- VA22, VA20 -/
theorem test_and_immediate :
    (after (preset [(2, -2147483648)] [0x0A25FFFF])).reg 1 = some (-2147483648) ∧
    (after (preset [(2, -1)] [0x0A24000B])).reg 1 = some 5 := by decide

/-- VM6, VM5 -/
theorem test_load_register :
    (after { preset [(2, 2)] [0x0C440000] with dmem := [(2, 44)] }).reg 2 = some 44 ∧
    (after { preset [] [0x0C200000] with inbuf := [90, 0] }).reg 1 = some 90 := by decide

/-- VM23 -/
theorem test_load_register_faults :
    faultOf (after (preset [(2, -1)] [0x0C240000])) = some (.dataAddressOutOfRange (-1) .read, .signal .memRead, 13) := by
  decide

/-- VM1 -/
theorem test_load_address :
    (after { preset [] [0x0C200001] with inbuf := [65, 0] }).reg 1 = some 65 ∧
    (after { preset [] [0x0C200001] with inbuf := [65, 0] }).inbuf = [0] := by decide

/-- VM14, VM17 -/
theorem test_load_address_faults :
    faultOf (after (preset [] [0x0C200003])) =
      some (.memoryAccessViolation 1 .read .writeOnlyCell, .signal .memRead, 14) ∧
    faultOf (after (preset [] [0x0C20007F])) = some (.uninitialisedRead (.cell 63), .signal .memRead, 14) := by decide

/-- VM10, VM12 -/
theorem test_write_register :
    (after (preset [(1, 8), (2, 6)] [0x0E240000])).cell 6 = some 8 ∧
    (after (preset [(2, 7)] [0x0E440000])).dmem = [(7, 7)] := by decide

/-- VM20 -/
theorem test_write_register_faults :
    faultOf (after (preset [(1, 8)] [0x0E200000])) =
      some (.memoryAccessViolation 0 .write .readOnlyCell, .signal .memWrite, 15) := by decide

/-- VM7: the output takes the whole word value, and no cell is written. -/
theorem test_write_address :
    (after (preset [(1, -9)] [0x0E200003])).outbuf = [-9] ∧ (after (preset [(1, -9)] [0x0E200003])).dmem = [] := by decide

/-- VM21 -/
theorem test_write_address_faults :
    faultOf (after (preset [(1, 1)] [0x0E200081])) = some (.dataAddressOutOfRange 64 .write, .signal .memWrite, 16) := by
  decide

/-- VB1, VB3 -/
theorem test_beq :
    (after (preset [(1, 7), (2, 7)] [0x10240005])).pc = 2 ∧
    (after (preset [(1, -2147483648), (2, 2147483647)] [0x10240005])).pc = 1 := by decide

/-- VB4, VB5 -/
theorem test_bne :
    (after (preset [(1, 1), (2, 2)] [0x12240005])).pc = 2 ∧ (after (preset [(1, 3), (2, 3)] [0x12240005])).pc = 1 := by
  decide

/-- VB8, VB9 -/
theorem test_bgt :
    (after (preset [(1, 2147483647), (2, -1)] [0x14240005])).pc = 1 ∧
    (after (preset [(1, -2147483648), (2, 1)] [0x14240005])).pc = 2 := by decide

/-- VB13, VB15 -/
theorem test_blt :
    (after (preset [(1, -2147483648), (2, 1)] [0x16240005])).pc = 1 ∧
    (after (preset [(1, 2), (2, 9)] [0x16240005])).pc = 2 := by decide

/-- VC8 -/
theorem test_beq_faults :
    faultOf (after (preset [(2, 0)] [0x10240005])) = some (.uninitialisedRead (.register 1), .selLeftOp 0, 17) := by decide

/-- VC1: NOP costs 4 ticks. -/
theorem test_nop : (after (preset [] [0])).tick = 4 ∧ (after (preset [] [0])).pc = 1 := by decide

/-- VC2: HALT costs 3 ticks and leaves `mpc = 4`. -/
theorem test_halt :
    (after (preset [] [0x02000000])).status = .halted ∧ (after (preset [] [0x02000000])).tick = 3 ∧
    (after (preset [] [0x02000000])).mpc = 4 := by decide

/-- VC3, VC5: the target is F2 itself, and the fetch after 65535 is at address 0. -/
theorem test_jump :
    (after (preset [] [0x18000005])).pc = 2 ∧
    faultOf (after (after (preset [] [0x1801FFFF]))) = some (.instructionAddressOutOfRange 0, .signal .latchIr, 1) := by
  decide

/-- VT3: the budget is checked before row 4 too. -/
theorem test_timeout :
    (after { preset [] [0x02000000] with params := { Params.default with tickLimit := 3 } }).status = .timeout := by decide

/-- The numbers of the opcodes are a parameter (R94): under `renumbered` the word is a SUB. -/
theorem test_renumbered_opcode :
    (after { preset [(2, 5), (3, 7)] [0x04240006] with params := { Params.default with opc := renumbered } }).reg 1 =
      some (-2) := by decide

/-- A word that fails decode faults in row 1 with one tick counted. -/
theorem test_decode_fault :
    faultOf (after (preset [] [0x1A000000])) = some (.decodeError 13 0, .signal .latchIr, 1) ∧
    (after (preset [] [0x1A000000])).tick = 1 ∧ (after (preset [] [0x1A000000])).icount = 0 := by decide

/-- From reset with nothing placed the first step faults (log 12). -/
theorem test_reset_step :
    faultOf (after State.reset) = some (.instructionAddressOutOfRange 1, .signal .latchIr, 1) := by decide

/-- A word placed by withFetchWord is what the next step runs. -/
theorem test_withFetchWord :
    (after (State.reset.withFetchWord 32 0x0420FFFF)).reg 1 = some 32767 ∧
    (after ({ State.reset with pc := 0xFFFF, tick := 99999 }.withFetchWord 32 0x0420FFFF)).reg 1 = some 32767 := by decide

/-- The canonical form refuses a cell below 2 and cells out of order. -/
theorem test_memory_wf :
    Memory.wf [(2, 5), (3, 0)] = true ∧ Memory.wf [(1, 5)] = false ∧ Memory.wf [(3, 5), (2, 5)] = false ∧
    Memory.write 3 7 [(2, 5), (4, 1)] = [(2, 5), (3, 7), (4, 1)] := by decide

/-! ### States that meet the hypotheses of each obligation

Each `test_hyp_<Name>` lists, clause by clause, the hypotheses of `Obligations.<Name>` at concrete states and operands, at
the boundary values of their ranges. An obligation without hypotheses has none. -/

/-- A running state: `r1 = r2 = 7`, then `r3`..`r8` hold the addresses 0, 1, 2, 63, 64 and -1; `r9`..`r15` hold `⊥`. -/
def ready : State :=
  { preset [(1, 7), (2, 7), (3, 0), (4, 1), (5, 2), (6, 63), (7, 64), (8, -1)] [0x02000000] with
    dmem := [(2, 44), (63, 5)], inbuf := [65, 0] }

/-- The same state inside its first instruction: `pc` and `mpc` at 1. -/
def inFetch : State := { ready with pc := 1, mpc := 1 }

theorem test_hyp_DecodeOfEncodeIsIdentity : OpcodeNumbers.listed.Distinct ∧ renumbered.Distinct := by
  constructor <;> intro a b <;> cases a <;> cases b <;> decide

theorem test_hyp_EncodeOfDecodeKeepsUsedBits :
    decode .listed 0x001FFFFE#32 = .ok .nop ∧ decode .listed 0x0CA9FFFE#32 = .ok (.loadReg 5 4) ∧
    decode renumbered 0xFFFFFFFF#32 = .ok (.jump 0xFFFF#16) := ⟨rfl, rfl, rfl⟩

theorem test_hyp_DecodeTableByMatchAndMask :
    ((0x04000000#32, 5) ∈ matchTable ∧ 0x04240006#32 &&& 0xFE000001#32 = 0x04000000#32) ∧
    ((0x18000001#32, 29) ∈ matchTable ∧ 0x19FFFFFF#32 &&& 0xFE000001#32 = 0x18000001#32) ∧
    (∀ m row, (m, row) ∈ matchTable → 0x1A000000#32 &&& 0xFE000001#32 ≠ m) ∧
    (decodeTable[18] ∈ decodeTable ∧ (0xFE00000B#32).extractLsb' 25 7 = renumbered.number decodeTable[18].opcode ∧
      (0xFE00000B#32).extractLsb' 0 1 = decodeTable[18].flag) ∧
    (∀ r ∈ decodeTable, (0xFE00000A#32).extractLsb' 25 7 = renumbered.number r.opcode →
      (0xFE00000A#32).extractLsb' 0 1 ≠ r.flag) ∧
    decode .listed 0x04240006#32 = .ok (.addReg 1 2 3) :=
  ⟨by decide, by decide,
    fun m row h => (by simp [matchTable] : ∀ e ∈ matchTable, 0x1A000000#32 &&& 0xFE000001#32 ≠ e.1) (m, row) h,
    ⟨List.getElem_mem _, by decide, by decide⟩, by decide, rfl⟩

theorem test_hyp_IllegalEncodingsFault :
    (preset [] [0x1A000000]).params.opc = .listed ∧
    (imemRead 1 (preset [] [0x1A000000]) = .ok 0x1A000000#32 ∧ 13 ≤ (0x1A000000#32).toNat / 2 ^ 25) ∧
    (imemRead 1 (preset [] [0x02000001]) = .ok 0x02000001#32 ∧
      (0x02000001#32).toNat / 2 ^ 25 ≤ 1 ∧ (0x02000001#32).toNat % 2 = 1) ∧
    (imemRead 1 (preset [] [0x10000000]) = .ok 0x10000000#32 ∧
      8 ≤ (0x10000000#32).toNat / 2 ^ 25 ∧ (0x10000000#32).toNat / 2 ^ 25 ≤ 12 ∧ (0x10000000#32).toNat % 2 = 0) ∧
    ¬ (13 ≤ (0x18000001#32).toNat / 2 ^ 25 ∨ ((0x18000001#32).toNat / 2 ^ 25 ≤ 1 ∧ (0x18000001#32).toNat % 2 = 1) ∨
      (8 ≤ (0x18000001#32).toNat / 2 ^ 25 ∧ (0x18000001#32).toNat / 2 ^ 25 ≤ 12 ∧ (0x18000001#32).toNat % 2 = 0)) :=
  ⟨rfl, ⟨rfl, by decide⟩, ⟨rfl, by decide⟩, ⟨rfl, by decide⟩, by decide⟩

theorem test_hyp_ImageStringForm :
    wordOfChars (charsOfWord 0x04240006#32) = some 0x04240006#32 ∧ wordOfChars ['0', '1'] = none ∧
    wordOfChars (List.replicate 32 '2') = none ∧
    ∃ e ∈ ({ goodLaunch with image := [.text ['0', '1']] }).image, e.word = none :=
  ⟨by decide, by decide, by decide, .text ['0', '1'], by decide, by decide⟩

theorem test_hyp_ExtensionAndWrap :
    (0x7FFF#16).toNat < 2 ^ 15 ∧ 2 ^ 15 ≤ (0x8000#16).toNat ∧
    Params.default.minNumber ≤ Params.default.maxNumber ∧
    (Params.default.minNumber ≤ -2147483648 ∧ (2147483647 : Int) ≤ Params.default.maxNumber) ∧ 0 < 1 := by decide

theorem test_hyp_AddSubMulWrapTheExactResult :
    0 < 1 ∧ (Params.ofWidth 1 2 0).minNumber ≤ (Params.ofWidth 1 2 0).maxNumber ∧
    (17 : RomRow) ∈ ([17, 20, 23, 26] : List RomRow) ∧ (26 : RomRow) ∈ ([17, 20, 23, 26] : List RomRow) := by decide

theorem test_hyp_AndIsTwosComplementBitwise :
    0 < 1 ∧ inRange (Params.ofWidth 1 2 0) (-1) = true ∧ inRange (Params.ofWidth 1 2 0) 0 = true ∧
    inRange (Params.ofWidth 32 2 0) (-2147483648) = true ∧ inRange (Params.ofWidth 32 2 0) 2147483647 = true := by decide

theorem test_hyp_ArithmeticLaws :
    (Params.default.minNumber ≤ aluExact .add 2147483646 1 ∧ aluExact .add 2147483646 1 ≤ Params.default.maxNumber) ∧
    (Params.default.minNumber ≤ aluExact .sub (-2147483647) 1 ∧
      aluExact .sub (-2147483647) 1 ≤ Params.default.maxNumber) ∧
    ({ ready with left := some 7, right := some 0 }.left = some 7 ∧
      { ready with left := some 7, right := some 0 }.right = some 0) ∧
    Params.default.minNumber ≤ 0 ∧ 0 ≤ Params.default.maxNumber := by decide

theorem test_hyp_ImmediateSelectsGiveWordValues :
    ({ ready with opr := some 0x128000#24 }.opr = some 0x128000#24 ∧ ready.params.immExt = .sext16) ∧
    { ready with params := { Params.default with immExt := .zext16 } }.params.immExt = .zext16 ∧
    17 ≤ 17 ∧ (Params.ofWidth 17 2 0).minNumber = -65536 ∧ (Params.ofWidth 17 2 0).maxNumber = 65535 := by decide

theorem test_hyp_AluStoresResultAndFlags :
    (∃ s : State, s.left = none ∧ s.right = some 1) ∧ (∃ s : State, s.left = some 1 ∧ s.right = none) ∧
    (∃ s : State, s.left = none ∧ s.right = none) ∧ (∃ s : State, s.left = some 1 ∧ s.right = some 1) :=
  ⟨⟨{ ready with right := some 1 }, by decide⟩, ⟨{ ready with left := some 1 }, by decide⟩, ⟨ready, by decide⟩,
    ⟨{ ready with left := some 1, right := some 1 }, by decide⟩⟩

theorem test_hyp_RegisterFileReadsAndWrites :
    (15#4 ≠ 0#4 ∧ ready.reg 15 = none) ∧ ready.reg 0 = some 0 ∧ ready.reg 1 = some 7 ∧
    (1#4 ≠ 0#4 ∧ dataSource 1 ready = .error (.invalidMux (.latchR 1) .dataSel)) ∧
    (15#4 ≠ 0#4 ∧ dataSource 15 { ready with dataSel := .alu, aluResult := some 3 } = .ok 3) :=
  ⟨by decide, by decide, by decide, ⟨by decide, rfl⟩, by decide, rfl⟩

theorem test_hyp_OperandResolution :
    2 < 3 ∧ { ready with opr := some 0xFF0010#24 }.opr = some 0xFF0010#24 ∧
    (2 = 2 ∧ 16 = (0xFF0010#24).toNat % 2 ^ 16 ∧ 15 < 16) ∧
    (0 = 0 ∧ 15 = (0xFF0010#24).toNat / 2 ^ 20 ∧ 15 ≤ 15) ∧ (1 = 1 ∧ 15 = (0xFF0010#24).toNat / 2 ^ 16 % 2 ^ 4) ∧
    (2 = 2 ∧ 65535 = (0x00FFFF#24).toNat % 2 ^ 16) ∧ (2 = 2 ∧ 15 = (0x00000F#24).toNat % 2 ^ 16) ∧
    .selRightOp 2 ∈ rom 5 ∧ .selLeftOp 1 ∈ rom 5 ∧ .latchOp 0 ∈ rom 5 := by decide

theorem test_hyp_MultiplexersAndTheirLatches :
    { ready with pcSel := .inc }.pcSel = .inc ∧
    ({ ready with pcSel := .addr, opr := some 5 }.pcSel = .addr ∧
      { ready with pcSel := .addr, opr := some 5 }.opr = some 5) ∧
    ready.pcSel = .unset ∧
    ({ ready with dataSel := .alu, aluResult := some 3 }.dataSel = .alu ∧
      { ready with dataSel := .alu, aluResult := some 3 }.aluResult = some 3) ∧
    ({ ready with dataSel := .alu }.dataSel = .alu ∧ { ready with dataSel := .alu }.aluResult = none) ∧
    ({ ready with dataSel := .mem, memOut := some 3 }.dataSel = .mem ∧
      { ready with dataSel := .mem, memOut := some 3 }.memOut = some 3) ∧
    ({ ready with dataSel := .mem }.dataSel = .mem ∧ { ready with dataSel := .mem }.memOut = none) ∧
    ready.dataSel = .unset ∧
    ({ ready with mpcSel := .inc, mpc := 28 }.mpcSel = .inc ∧
      { ready with mpcSel := .inc, mpc := 28 }.mpc.val + { ready with mpcSel := .inc, mpc := 28 }.stride.toNat < 30) ∧
    ({ ready with mpcSel := .inc, mpc := 29 }.mpcSel = .inc ∧
      30 ≤ { ready with mpcSel := .inc, mpc := 29 }.mpc.val + { ready with mpcSel := .inc, mpc := 29 }.stride.toNat) ∧
    ({ ready with mpcSel := .ir, ir := some 4 }.mpcSel = .ir ∧ { ready with mpcSel := .ir, ir := some 4 }.ir = some 4) ∧
    ({ ready with mpcSel := .ir }.mpcSel = .ir ∧ { ready with mpcSel := .ir }.ir = none) ∧
    { ready with mpcSel := .zero }.mpcSel = .zero ∧ ready.mpcSel = .unset := by decide

theorem test_hyp_StrideConditions :
    ready.flags = none ∧ { ready with flags := some ⟨true, false⟩ }.flags = some ⟨true, false⟩ := by decide

theorem test_hyp_MemReadSignal :
    ready.left = none ∧
    ({ ready with left := some 0 }.left = some 0 ∧ { ready with left := some 0 }.inbuf = 65 :: [0]) ∧
    ({ ready with left := some 0, inbuf := [] }.left = some 0 ∧ { ready with left := some 0, inbuf := [] }.inbuf = []) ∧
    { ready with left := some 1 }.left = some 1 ∧
    ({ ready with left := some 64 }.left = some 64 ∧ (64 : Int) ≠ 0 ∧ (64 : Int) ≠ 1 ∧
      (ready.params.dmemSize : Int) ≤ 64) ∧
    ({ ready with left := some (-1) }.left = some (-1) ∧ (-1 : Int) ≠ 0 ∧ (-1 : Int) ≠ 1 ∧ (-1 : Int) < 0) ∧
    ({ ready with left := some 3 }.left = some 3 ∧ (2 : Int) ≤ 3 ∧ (3 : Int) < ready.params.dmemSize ∧
      ready.cell 3 = none) ∧
    ({ ready with left := some 2 }.left = some 2 ∧ (2 : Int) < ready.params.dmemSize ∧ ready.cell 2 = some 44) ∧
    ({ ready with left := some 63 }.left = some 63 ∧ (63 : Int) < ready.params.dmemSize ∧ ready.cell 63 = some 5) := by
  decide

theorem test_hyp_MemWriteSignal :
    ({ ready with right := some 5 }.left = none ∧ { ready with right := some 5 }.right = some 5) ∧
    ({ ready with left := some 2 }.left = some 2 ∧ { ready with left := some 2 }.right = none) ∧
    (ready.left = none ∧ ready.right = none) ∧
    ({ ready with left := some 0, right := some 5 }.left = some 0 ∧
      { ready with left := some 0, right := some 5 }.right = some 5) ∧
    { ready with left := some 1, right := some 5 }.left = some 1 ∧
    ({ ready with left := some 64, right := some 5 }.left = some 64 ∧ (ready.params.dmemSize : Int) ≤ 64) ∧
    ({ ready with left := some (-1), right := some 5 }.left = some (-1) ∧ (-1 : Int) < 0) ∧
    ({ ready with left := some 63, right := some 5 }.left = some 63 ∧ (2 : Int) ≤ 63 ∧
      (63 : Int) < ready.params.dmemSize) ∧
    ({ ready with left := some 2, right := some 5 }.left = some 2 ∧ (2 : Int) < ready.params.dmemSize) := by decide

theorem test_hyp_LoadSeesLastStore :
    (2 : Int) ≤ 2 ∧ memWrite 2 5 ready = .ok { ready with dmem := [(2, 5), (63, 5)] } ∧
    (2 : Int) ≤ 63 ∧ (63 : Int) ≠ 2 ∧ memWrite 63 9 ready = .ok { ready with dmem := [(2, 44), (63, 9)] } :=
  ⟨by decide, rfl, by decide, by decide, rfl⟩

theorem test_hyp_InstructionLatches :
    (1 ≤ 1 ∧ 1 ≤ ready.imem.length) ∧ 0 < 1 ∧ ready.imem.length < 2 ∧
    imemRead ready.pc.toNat ready = .error (.instructionAddressOutOfRange 0) ∧
    (imemRead inFetch.pc.toNat inFetch = .ok 0x02000000#32 ∧ decodeEntry inFetch.params.opc 0x02000000#32 = .ok 4) ∧
    imemRead ({ inFetch with imem := [0x1A000000] }.pc.toNat) { inFetch with imem := [0x1A000000] } = .ok 0x1A000000#32 ∧
    decodeEntry inFetch.params.opc 0x1A000000#32 = .error (.notInTable 13 0) :=
  ⟨by decide, by decide, by decide, rfl, ⟨rfl, rfl⟩, rfl, rfl⟩

theorem test_hyp_FetchRows :
    (ready.canRun ∧ ready.mpc = 0 ∧ ready.stride = .one) ∧
    (inFetch.canRun ∧ inFetch.mpc = 1 ∧ inFetch.stride = .one) ∧
    imemRead inFetch.pc.toNat inFetch = .ok 0x02000000#32 ∧ decodeEntry inFetch.params.opc 0x02000000#32 = .ok 4 ∧
    { inFetch with mpc := 2, ir := some 4 }.canRun ∧ { inFetch with mpc := 2, ir := some 4 }.ir = some 4 :=
  ⟨by decide, by decide, rfl, rfl, by decide, by decide⟩

theorem test_hyp_StepRunsTheDecodedInstruction :
    (ready.status = .running ∧ ready.mpc = 0 ∧ ready.stride = .one ∧ ready.tick ≠ ready.params.tickLimit ∧
      ready.tick + 1 ≠ ready.params.tickLimit ∧ ready.tick + 2 ≠ ready.params.tickLimit) ∧
    imemRead (ready.pc + 1#16).toNat ready = .ok 0x02000000#32 ∧ decode ready.params.opc 0x02000000#32 = .ok .halt :=
  ⟨by decide, rfl, rfl⟩

/-- `ready` with a tick budget. -/
def budget (limit : Nat) (s : State) : State := { s with params := { s.params with tickLimit := limit } }

theorem test_hyp_FetchFaults :
    ((budget 1 ready).status = .running ∧ (budget 1 ready).mpc = 0 ∧ (budget 1 ready).stride = .one ∧
      (budget 1 ready).tick ≠ (budget 1 ready).params.tickLimit ∧
      (budget 1 ready).tick + 1 = (budget 1 ready).params.tickLimit) ∧
    (ready.tick + 1 ≠ ready.params.tickLimit ∧ ({ ready with pc := 0xFFFF }.pc + 1#16).toNat < 1) ∧
    ready.imem.length < ({ ready with pc := 1 }.pc + 1#16).toNat ∧
    (imemRead 1 (preset [] [0x1A000000]) = .ok 0x1A000000#32 ∧
      decode (preset [] [0x1A000000]).params.opc 0x1A000000#32 = .error (.notInTable 13 0)) ∧
    imemRead ((budget 2 ready).pc + 1#16).toNat (budget 2 ready) = .ok 0x02000000#32 ∧
    decode (budget 2 ready).params.opc 0x02000000#32 = .ok .halt ∧
    (budget 2 ready).tick + 1 ≠ (budget 2 ready).params.tickLimit ∧
    (budget 2 ready).tick + 2 = (budget 2 ready).params.tickLimit :=
  ⟨by decide, by decide, by decide, ⟨rfl, rfl⟩, rfl, rfl, by decide, by decide⟩

theorem test_hyp_CompletedInstructionReturnsToFetch :
    (3 : RomRow) ∉ ([0, 1, 2, 4, 17, 20, 23, 26] : List RomRow) ∧
    (ready.status = .running ∧ ready.stride = .one ∧ exec .nop ready = .next (ran .nop ready) ∧
      (ran .nop ready).status = .running ∧ (ran .nop ready).tick ≠ (ran .nop ready).params.tickLimit) ∧
    (preset [] [0]).mpc = 0 ∧ step (preset [] [0]) = .next (after (preset [] [0])) ∧
    (after (preset [] [0])).status = .running :=
  ⟨by decide, ⟨by decide, by decide, rfl, by decide, by decide⟩, by decide, rfl, by decide⟩

theorem test_hyp_ControlInvariantIsKept :
    ready.romInv = true ∧ { ready with mpc := 29, opr := some 5 }.romInv = true ∧
    { ready with mpc := 2, opr := some 5, ir := some 29 }.romInv = true ∧ step ready = .next (after ready) :=
  ⟨by decide, by decide, by decide, rfl⟩

theorem test_hyp_OnlyListedFaultsAreRaised :
    (preset [] [0x04200020]).romInv = true ∧ (preset [] [0x04200020]).status = .running ∧
    step (preset [] [0x04200020]) = .next (after (preset [] [0x04200020])) ∧
    (after (preset [] [0x04200020])).status =
      .faulted ⟨.invalidRegisterIndex 16 .outOfRange, .selRightOp 2, 5, 1, 3⟩ :=
  ⟨by decide, by decide, rfl, by decide⟩

theorem test_hyp_OutcomeOfATick :
    { ready with status := .halted }.status ≠ .running ∧
    (ready.status = .running ∧ (budget 0 ready).tick = (budget 0 ready).params.tickLimit) ∧
    ready.tick ≠ ready.params.tickLimit ∧
    (runTick ready).status = .running ∧ (runTick { inFetch with pc := 2 }).status ≠ .running := by decide

theorem test_hyp_FaultReportNamesItsPlace :
    { inFetch with pc := 2 }.status = .running ∧
    (runTick { inFetch with pc := 2 }).status =
      .faulted ⟨.instructionAddressOutOfRange 2, .signal .latchIr, 1, 2, 0⟩ := by decide

theorem test_hyp_EndedRunStaysAsItIs :
    { ready with status := .timeout }.status ≠ .running ∧ { ready with status := .halted }.status ≠ .running ∧
    { ready with status := .faulted ⟨.inputExhausted, .signal .memRead, 13, 1, 3⟩ }.status ≠ .running ∧
    ready.status = .running := by decide

theorem test_hyp_StepNeverSticks : ready.status = .running := by decide

theorem test_hyp_EveryRunEndsWithinItsBudget :
    (budget 0 ready).tick ≤ (budget 0 ready).params.tickLimit ∧ ready.tick ≤ ready.params.tickLimit := by decide

theorem test_hyp_BudgetIsCheckedBeforeTheRow :
    (ready.status = .running ∧ (budget 0 ready).tick = (budget 0 ready).params.tickLimit) ∧
    (budget 1 ready).canRun ∧ (budget 1 ready).tick + 1 = (budget 1 ready).params.tickLimit ∧
    ready.reg 1 = some 7 ∧ ready.reg 2 = some 7 := by decide

theorem test_hyp_AluRegisterFormRuns :
    ready.canRun ∧ 1#4 ≠ 0#4 ∧ (2#16).toNat ≤ 15 ∧ ready.reg 1 = some 7 ∧
    ready.reg (BitVec.ofNat 4 (2#16).toNat) = some 7 ∧
    (15#16).toNat ≤ 15 ∧ (preset [(15, -1)] []).reg (BitVec.ofNat 4 (15#16).toNat) = some (-1) := by decide

theorem test_hyp_AluImmediateFormRuns :
    ready.canRun ∧ 15#4 ≠ 0#4 ∧ ready.reg 0 = some 0 ∧ ready.reg 8 = some (-1) := by decide

theorem test_hyp_AluFaults :
    ready.canRun ∧ ready.reg 9 = none ∧ (ready.reg 1 = some 7 ∧ 15 < (16#16).toNat) ∧
    ((15#16).toNat ≤ 15 ∧ ready.reg (BitVec.ofNat 4 (15#16).toNat) = none) ∧
    ((0#16).toNat ≤ 15 ∧ ready.reg (BitVec.ofNat 4 (0#16).toNat) = some 0 ∧ 0#4 = 0#4) := by decide

theorem test_hyp_AluFrame :
    exec (aluRegInstr .add 1 2 16) ready = .next (ran (aluRegInstr .add 1 2 16) ready) ∧
    exec (aluImmInstr .and 1 2 16) ready = .next (ran (aluImmInstr .and 1 2 16) ready) := ⟨rfl, rfl⟩

theorem test_hyp_LoadWordOfACellRuns :
    ready.canRun ∧ 1#4 ≠ 0#4 ∧
    (ready.reg 5 = some 2 ∧ (2 : Int) < ready.params.dmemSize ∧ ready.cell 2 = some 44) ∧
    (ready.reg 6 = some 63 ∧ (63 : Int) < ready.params.dmemSize ∧ ready.cell 63 = some 5) ∧
    2 ≤ (2#16).toNat ∧ (63#16).toNat < ready.params.dmemSize ∧ ready.cell (63#16).toNat = some 5 := by decide

theorem test_hyp_LoadWordOfInputRuns :
    ready.canRun ∧ 1#4 ≠ 0#4 ∧ ready.reg 3 = some 0 ∧ ready.inbuf = 65 :: [0] := by decide

theorem test_hyp_LoadWordFaults :
    ready.canRun ∧ ready.reg 9 = none ∧
    (ready.reg 7 = some 64 ∧ memRead 64 ready = .error (.dataAddressOutOfRange 64 .read)) ∧
    (ready.reg 3 = some 0 ∧ memRead 0 ready = .ok (65, { ready with inbuf := [0] }) ∧ 0#4 = 0#4) ∧
    memRead (1#16).toNat ready = .error (.memoryAccessViolation 1 .read .writeOnlyCell) ∧
    memRead (2#16).toNat ready = .ok (44, ready) :=
  ⟨by decide, by decide, ⟨by decide, rfl⟩, ⟨by decide, rfl, rfl⟩, rfl, rfl⟩

theorem test_hyp_WriteWordToACellRuns :
    ready.canRun ∧ ready.reg 1 = some 7 ∧ (ready.reg 5 = some 2 ∧ (2 : Int) ≤ 2 ∧ (2 : Int) < ready.params.dmemSize) ∧
    (ready.reg 6 = some 63 ∧ (63 : Int) < ready.params.dmemSize) ∧
    2 ≤ (2#16).toNat ∧ (63#16).toNat < ready.params.dmemSize := by decide

theorem test_hyp_WriteWordToOutputRuns : ready.canRun ∧ ready.reg 4 = some 1 ∧ ready.reg 8 = some (-1) := by decide

theorem test_hyp_WriteWordFaults :
    ready.canRun ∧ ready.reg 9 = none ∧ ready.reg 1 = some 7 ∧
    (ready.reg 3 = some 0 ∧ memWrite 0 7 ready = .error (.memoryAccessViolation 0 .write .readOnlyCell)) ∧
    (ready.reg 8 = some (-1) ∧ memWrite (-1) 7 ready = .error (.dataAddressOutOfRange (-1) .write)) ∧
    memWrite (64#16).toNat 7 ready = .error (.dataAddressOutOfRange 64 .write) :=
  ⟨by decide, by decide, by decide, ⟨by decide, rfl⟩, ⟨by decide, rfl⟩, rfl⟩

theorem test_hyp_LoadFrame :
    (exec (.loadReg 1 5) ready = .next (ran (.loadReg 1 5) ready) ∧ ready.reg 5 ≠ some 0) ∧
    exec (.loadAddr 1 1) ready = .next (ran (.loadAddr 1 1) ready) ∧ 1#16 ≠ 0#16 :=
  ⟨⟨rfl, by decide⟩, rfl, by decide⟩

theorem test_hyp_StoreFrame :
    (exec (.writeReg 1 5) ready = .next (ran (.writeReg 1 5) ready) ∧ ready.reg 5 ≠ some ((63 : Nat) : Int) ∧
      ready.reg 5 ≠ some 1) ∧
    exec (.writeAddr 1 2) ready = .next (ran (.writeAddr 1 2) ready) ∧ 63 ≠ (2#16).toNat ∧ 2#16 ≠ 1#16 :=
  ⟨⟨rfl, by decide, by decide⟩, rfl, by decide, by decide⟩

theorem test_hyp_BranchesRun :
    ready.canRun ∧ ready.tick + 1 ≠ ready.params.tickLimit ∧ ready.reg 1 = some 7 ∧ ready.reg 2 = some 7 ∧
    ready.reg 8 = some (-1) := by decide

theorem test_hyp_BranchDecisions :
    0 < 32 ∧ inRange (Params.ofWidth 32 64 0) (-2147483648) = true ∧ inRange (Params.ofWidth 32 64 0) 2147483647 = true ∧
    inRange (Params.ofWidth 32 64 0) (2147483647 - 2147483647) = true ∧
    inRange (Params.ofWidth 32 64 0) (2147483647 - (-2147483648)) = false := by decide

theorem test_hyp_BranchFaults : ready.canRun ∧ ready.reg 9 = none ∧ ready.reg 1 = some 7 := by decide

theorem test_hyp_NopHaltAndJumpRun : ready.canRun := by decide

theorem test_hyp_ControlFrame :
    exec .nop ready = .next (ran .nop ready) ∧ exec .halt ready = .next (ran .halt ready) ∧
    exec (.jump 5) ready = .next (ran (.jump 5) ready) ∧
    exec (branchInstr .pos 1 9 5) ready = .next (ran (branchInstr .pos 1 9 5) ready) := ⟨rfl, rfl, rfl, rfl⟩

theorem test_hyp_FlagsOfEarlierInstructionsAreNotRead :
    exec (.beq 1 2 5) ready = .next (ran (.beq 1 2 5) ready) ∧
    exec (.beq 1 2 5) { ready with flags := some ⟨false, true⟩ } =
      .next (ran (.beq 1 2 5) { ready with flags := some ⟨false, true⟩ }) := ⟨rfl, rfl⟩

theorem test_hyp_TicksOfAnInstruction :
    (ready.status = .running ∧ ready.mpc = 0 ∧ ready.stride = .one ∧ ready.instrAt (ready.pc + 1#16).toNat = some .halt) ∧
    step ready = .next (after ready) ∧ (after ready).status = .halted ∧
    (preset [] [0]).instrAt ((preset [] [0]).pc + 1#16).toNat = some .nop ∧
    (after (preset [] [0])).status = .running := ⟨by decide, rfl, by decide, by decide, by decide⟩

theorem test_hyp_LaunchRefusedExactlyOnABrokenPremise :
    launch goodLaunch = .next (Launch.initial goodLaunch) ∧
    (1#4 ≠ 0#4 ∧ goodLaunch.preload[(1#4).toNat] = none) ∧ (1 < 2 ∨ goodLaunch.dataImage.length + 2 ≤ 1) ∧
    goodLaunch.dataImage.length + 2 ≤ 3 := ⟨rfl, by decide, by decide, by decide⟩

theorem test_hyp_LaunchGivesTheResetValues :
    launch goodLaunch = .next (Launch.initial goodLaunch) ∧ 15#4 ≠ 0#4 ∧
    goodLaunch.image[0]? = some (.number 0x02000000) := ⟨rfl, by decide, by decide⟩

theorem test_hyp_DataInvariantIsKept : ready.inv = true ∧ step ready = .next (after ready) := ⟨by decide, rfl⟩

theorem test_hyp_LaunchMeetsTheInvariants :
    launch goodLaunch = .next (Launch.initial goodLaunch) ∧ fitsFields goodLaunch.params = true ∧
    fitsFields (Params.ofWidth 17 2 0) = true := ⟨rfl, by decide, by decide⟩

theorem test_hyp_ImageAndParametersNeverChange : step ready = .next (after ready) := rfl
end

section
/-! PROOF. Extension and wrap (R8): `wrap` gives the one value of the word range that is congruent to its argument modulo
the size of the range; everything else about it follows from that. -/

namespace Sys2Proof.Machine

/-! ### Extension -/

theorem zext16_range (f : BitVec 16) : 0 ≤ zext16 f ∧ zext16 f ≤ 65535 := by
  have hf := f.isLt
  unfold zext16
  omega

theorem sext16_of_lt {f : BitVec 16} (h : f.toNat < 2 ^ 15) : sext16 f = f.toNat := if_pos h

theorem sext16_of_le {f : BitVec 16} (h : 2 ^ 15 ≤ f.toNat) : sext16 f = (f.toNat : Int) - 2 ^ 16 :=
  if_neg (Nat.not_lt.mpr h)

theorem sext16_range (f : BitVec 16) : -32768 ≤ sext16 f ∧ sext16 f ≤ 32767 := by
  have hf := f.isLt
  obtain h | h := Nat.lt_or_ge f.toNat (2 ^ 15)
  · rw [sext16_of_lt h]
    omega
  · rw [sext16_of_le h]
    omega

/-! ### Wrap -/

/-- `wrap p v` is the only value in range that differs from `v` by a multiple of the range's size. -/
theorem wrap_eq_iff {p : Params} (h : p.minNumber ≤ p.maxNumber) {v r : Int} :
    wrap p v = r ↔ p.minNumber ≤ r ∧ r ≤ p.maxNumber ∧ p.maxNumber - p.minNumber + 1 ∣ v - r := by
  have hshift : wrap p v = r ↔ (v - p.minNumber) % (p.maxNumber - p.minNumber + 1) = r - p.minNumber := by
    unfold wrap
    omega
  rw [hshift, Int.emod_eq_iff (by omega), sub_sub_sub_cancel_right, dvd_sub_comm]
  omega

theorem wrap_range {p : Params} (h : p.minNumber ≤ p.maxNumber) (v : Int) :
    p.minNumber ≤ wrap p v ∧ wrap p v ≤ p.maxNumber := by
  obtain ⟨hmin, hmax, -⟩ := (wrap_eq_iff h (v := v)).mp rfl
  exact ⟨hmin, hmax⟩

theorem rangeSize_dvd_sub_wrap {p : Params} (h : p.minNumber ≤ p.maxNumber) (v : Int) :
    p.maxNumber - p.minNumber + 1 ∣ v - wrap p v := by
  obtain ⟨-, -, hdvd⟩ := (wrap_eq_iff h (v := v)).mp rfl
  exact hdvd

theorem wrap_of_mem_range {p : Params} {v : Int} (hmin : p.minNumber ≤ v) (hmax : v ≤ p.maxNumber) : wrap p v = v :=
  (wrap_eq_iff (hmin.trans hmax)).mpr ⟨hmin, hmax, by simp⟩

theorem exists_eq_wrap_add_mul {p : Params} (h : p.minNumber ≤ p.maxNumber) (v : Int) :
    ∃ k : Int, v = wrap p v + k * (p.maxNumber - p.minNumber + 1) := by
  obtain ⟨k, hk⟩ := rangeSize_dvd_sub_wrap h v
  exact ⟨k, by rw [Int.mul_comm, ← hk]; omega⟩

/-! ### The default bounds of a width -/

@[simp] theorem ofWidth_minNumber (width dmemSize tickLimit : Nat) :
    (Params.ofWidth width dmemSize tickLimit).minNumber = -2 ^ (width - 1) := by
  simp [Params.ofWidth]

@[simp] theorem ofWidth_maxNumber (width dmemSize tickLimit : Nat) :
    (Params.ofWidth width dmemSize tickLimit).maxNumber = 2 ^ (width - 1) - 1 := by
  simp [Params.ofWidth]

theorem ofWidth_minNumber_le_maxNumber (width dmemSize tickLimit : Nat) :
    (Params.ofWidth width dmemSize tickLimit).minNumber ≤ (Params.ofWidth width dmemSize tickLimit).maxNumber := by
  have hpos : (0 : Int) < 2 ^ (width - 1) := by positivity
  rw [ofWidth_minNumber, ofWidth_maxNumber]
  omega

/-- A range of `width` bits holds `2 ^ width` values. -/
theorem ofWidth_rangeSize {width : Nat} (hw : 0 < width) (dmemSize tickLimit : Nat) :
    (Params.ofWidth width dmemSize tickLimit).maxNumber - (Params.ofWidth width dmemSize tickLimit).minNumber + 1 =
      ((2 ^ width : Nat) : Int) := by
  have hhalves : (2 : Int) ^ width = 2 ^ (width - 1) * 2 := (pow_sub_one_mul hw.ne' 2).symm
  rw [ofWidth_minNumber, ofWidth_maxNumber, Nat.cast_pow, Nat.cast_ofNat, hhalves]
  omega

/-- With the default bounds `wrap` is two's complement (R8): the signed value of the word is in range and congruent to `v`. -/
theorem wrap_ofWidth {width : Nat} (hw : 0 < width) (dmemSize tickLimit : Nat) (v : Int) :
    wrap (Params.ofWidth width dmemSize tickLimit) v = (BitVec.ofInt width v).toInt := by
  refine (wrap_eq_iff (ofWidth_minNumber_le_maxNumber ..)).mpr ⟨?_, ?_, ?_⟩
  · rw [ofWidth_minNumber]
    exact BitVec.le_toInt _
  · rw [ofWidth_maxNumber]
    exact BitVec.toInt_le
  · rw [ofWidth_rangeSize hw, BitVec.toInt_ofInt]
    exact Int.dvd_self_sub_bmod

/-- Settles O8: the ranges of the extensions by their two cases, and `wrap` by its characterisation `wrap_eq_iff`. -/
theorem extensionAndWrap : Obligations.ExtensionAndWrap := by
  refine ⟨fun f => ⟨rfl, zext16_range f⟩, fun f => ⟨sext16_of_lt, sext16_of_le, sext16_range f⟩, fun p v h => ?_,
    fun _ dmemSize tickLimit v hw => wrap_ofWidth hw dmemSize tickLimit v⟩
  obtain ⟨hmin, hmax⟩ := wrap_range h v
  exact ⟨rfl, hmin, hmax, wrap_of_mem_range, exists_eq_wrap_add_mul h v⟩

end Sys2Proof.Machine
end

section
/-! PROOF. The register file (R21, R120-R123): a read by what the register holds, a latch by what the data source answers,
and the frame of a register write. -/

namespace Sys2Proof.Machine

/-! ### readReg (R123) -/

theorem readReg_of_reg {i : RegIdx} {s : State} {v : Int} (h : s.reg i = some v) : readReg i s = .ok v := by
  simp [readReg, h]

theorem readReg_of_none {i : RegIdx} {s : State} (h : s.reg i = none) :
    readReg i s = .error (.uninitialisedRead (.register i)) := by
  simp [readReg, h]

/-! ### latchReg (R122) -/

theorem latchReg_of_ok {i : RegIdx} {s : State} {v : Int} (hi : i ≠ 0#4) (h : dataSource i s = .ok v) :
    latchReg i s = .done (s.setReg i v) := by
  simp [latchReg, hi, h]

theorem latchReg_of_error {i : RegIdx} {s : State} {k : Fault} (hi : i ≠ 0#4) (h : dataSource i s = .error k) :
    latchReg i s = .raised k s := by
  simp [latchReg, hi, h]

/-- A register write changes the register cells alone. -/
theorem setReg_restore_regs (s : State) (i : RegIdx) (v : Int) : { s.setReg i v with regs := s.regs } = s := by
  by_cases hi : i = 0#4
  · rw [hi, setReg_zero]
  · rw [setReg_of_ne hi]

/-- Settles O14: each read and select by the cell it finds; a completed latch is `setReg`, whose laws give the value the next
read returns, the other registers and the frame. -/
theorem registerFileReadsAndWrites : Obligations.RegisterFileReadsAndWrites := by
  refine ⟨fun s => ⟨readReg_of_reg (reg_zero s), latchReg_zero s⟩,
    fun _ _ _ h => ⟨readReg_of_none h, selLeft_of_none h, selRight_of_none h⟩,
    fun _ _ _ h => ⟨readReg_of_reg h, selLeft_of_reg h, selRight_of_reg h⟩,
    fun _ _ _ hi h => latchReg_of_error hi h, fun i s v hi h => ⟨s.setReg i v, latchReg_of_ok hi h, ?_, ?_, ?_⟩⟩
  · exact reg_setReg_self hi s v
  · exact fun _ hj => reg_setReg_of_ne hj s v
  · exact setReg_restore_regs s i v

end Sys2Proof.Machine
end

section
/-! PROOF. Instruction fetch (R62, R145, R146): a read by whether the address is in the image, and each latch by what the
fetch at `pc` and the decoder answer. -/

namespace Sys2Proof.Machine

/-! ### imemRead (R62) -/

theorem imemRead_of_mem_range {a : Nat} {s : State} (h1 : 1 ≤ a) (hN : a ≤ s.imem.length) :
    imemRead a s = .ok (s.imem[a - 1]'(by omega)) := by
  simp [imemRead, show ¬ a < 1 by omega, List.getElem?_eq_getElem (show a - 1 < s.imem.length by omega)]

theorem imemRead_of_not_mem_range {a : Nat} {s : State} (h : a < 1 ∨ s.imem.length < a) :
    imemRead a s = .error (.instructionAddressOutOfRange a) := by
  by_cases h1 : a < 1
  · simp [imemRead, h1]
  · have hnone : s.imem[a - 1]? = none := List.getElem?_eq_none (by omega)
    simp [imemRead, h1, hnone]

/-! ### latchIr (R145) -/

theorem latchIr_of_imemRead_error {s : State} {k : Fault} (h : imemRead s.pc.toNat s = .error k) :
    latchIr s = .raised k s := by
  simp [latchIr, h]

theorem latchIr_of_decodeEntry_ok {s : State} {w : InstrWord} {row : RomRow} (h : imemRead s.pc.toNat s = .ok w)
    (hrow : decodeEntry s.params.opc w = .ok row) : latchIr s = .done { s with ir := some row, icount := s.icount + 1 } := by
  simp [latchIr, h, hrow]

theorem latchIr_of_decodeEntry_error {s : State} {w : InstrWord} {e : Reject} (h : imemRead s.pc.toNat s = .ok w)
    (he : decodeEntry s.params.opc w = .error e) : latchIr s = .raised (rejectFault e) s := by
  simp [latchIr, h, he]

/-! ### latchOpr (R146) -/

theorem latchOpr_of_imemRead_error {s : State} {k : Fault} (h : imemRead s.pc.toNat s = .error k) :
    latchOpr s = .raised k s := by
  simp [latchOpr, h]

theorem latchOpr_of_imemRead_ok {s : State} {w : InstrWord} (h : imemRead s.pc.toNat s = .ok w) :
    latchOpr s = .done { s with opr := some (oprField w) } := by
  simp [latchOpr, h]

/-- Settles O21: the fetch by the range of its address, and each latch by the fetch and the decoder. -/
theorem instructionLatches : Obligations.InstructionLatches :=
  ⟨fun _ _ h1 hN => imemRead_of_mem_range h1 hN,
    fun _ _ h => imemRead_of_not_mem_range h,
    fun _ _ h => ⟨latchIr_of_imemRead_error h, latchOpr_of_imemRead_error h⟩,
    fun _ _ _ h hrow => latchIr_of_decodeEntry_ok h hrow,
    fun _ _ _ _ h he => latchIr_of_decodeEntry_error h he,
    fun _ _ h => latchOpr_of_imemRead_ok h⟩

end Sys2Proof.Machine
end

section
/-! PROOF. The launch (R38, R64, R312, R313): when it is accepted, and what each placed part of the state it builds holds. -/

namespace Sys2Proof.Machine

/-- The list of the premises leaves none out. -/
theorem mem_launchPremises (p : LaunchPremise) : p ∈ launchPremises := by
  cases p <;> decide

/-- A launch is accepted exactly when every premise holds, and then gives the initial state (R313). -/
theorem launch_eq_next_iff {l : Launch} {s : State} :
    launch l = .next s ↔ (∀ p, premiseHolds l p = true) ∧ s = Launch.initial l := by
  unfold launch
  split
  next p hp =>
    have hbroken : premiseHolds l p = false := by simpa using List.find?_some hp
    simp only [reduceCtorEq, false_iff, not_and]
    exact fun hall => absurd (hall p) (by simp [hbroken])
  next hnone =>
    have hall : ∀ p, premiseHolds l p = true := fun p => by
      simpa using List.find?_eq_none.mp hnone p (mem_launchPremises p)
    simp only [Host.Outcome.next.injEq, hall, implies_true, true_and, eq_comm]

/-! ### The registers (R38, R312) -/

theorem initial_reg {i : RegIdx} (hi : i ≠ 0#4) (l : Launch) : (Launch.initial l).reg i = l.preload[i.toNat] := by
  have hpos := toNat_ne_zero hi
  simp [State.reg, hi, Launch.initial, show i.toNat - 1 + 1 = i.toNat by omega]

/-! ### The instruction image (R61, R91) -/

theorem exists_word_of_mem_image {l : Launch} (h : premiseHolds l .imageWords = true) {e : ImageEntry} (he : e ∈ l.image) :
    ∃ w, e.word = some w :=
  Option.isSome_iff_exists.mp (List.all_eq_true.mp h e he)

/-- When every entry is a word, the image holds the word of each entry, in order. -/
theorem initial_imem {l : Launch} (h : premiseHolds l .imageWords = true) :
    (Launch.initial l).imem = l.image.map fun e => e.word.getD 0 := by
  refine List.filterMap_eq_map_iff_forall_eq_some.mpr fun e he => ?_
  obtain ⟨w, hw⟩ := exists_word_of_mem_image h he
  rw [hw, Option.getD_some]

theorem initial_imemRead {l : Launch} (h : premiseHolds l .imageWords = true) {k : Nat} {e : ImageEntry}
    (he : l.image[k]? = some e) : ∃ w, e.word = some w ∧ imemRead (k + 1) (Launch.initial l) = .ok w := by
  obtain ⟨hk, hek⟩ := List.getElem?_eq_some_iff.mp he
  obtain ⟨w, hw⟩ := exists_word_of_mem_image h (List.mem_of_getElem? he)
  refine ⟨w, hw, ?_⟩
  rw [imemRead_of_mem_range (by omega) (by simpa [initial_imem h] using hk)]
  simp [initial_imem h, hek, hw]

/-! ### The data image (R64) -/

/-- Cells placed from address `a` on: element `j` is in cell `a + j`, and no other cell holds a value. -/
theorem read_dataCells (a b : Nat) (vs : List Int) :
    (dataCells a vs).read b = if a ≤ b then vs[b - a]? else none := by
  induction vs generalizing a with
  | nil => simp [dataCells, Memory.read]
  | cons v vs ih =>
    obtain hlt | rfl | hgt := Nat.lt_trichotomy b a
    · simp [dataCells, Memory.read, ih, hlt.ne, show ¬ a ≤ b by omega, show ¬ a + 1 ≤ b by omega]
    · simp [dataCells, Memory.read]
    · have hindex : b - a = b - (a + 1) + 1 := by omega
      simp [dataCells, Memory.read, ih, hgt.ne', hgt.le, show a + 1 ≤ b by omega, hindex]

/-- Settles O56: an accepted launch gives the initial state, whose placed parts hold the registers, the words and the cells
of the launch; every other field is the reset value by definition. -/
theorem launchGivesTheResetValues : Obligations.LaunchGivesTheResetValues := by
  intro l s h
  obtain ⟨hall, rfl⟩ := launch_eq_next_iff.mp h
  have hwords := hall .imageWords
  have hlength : (Launch.initial l).imem.length = l.image.length := by rw [initial_imem hwords, List.length_map]
  exact ⟨fun i hi => initial_reg hi l, reg_zero _, rfl, rfl, rfl, rfl, rfl, rfl, rfl, rfl, rfl, rfl, rfl, rfl, rfl, rfl, rfl,
    rfl, hlength, fun _ _ he => initial_imemRead hwords he, fun a => read_dataCells 2 a l.dataImage, rfl, rfl, rfl⟩

end Sys2Proof.Machine
end

section
/-! PROOF. The fields of a word (R92) and the worked words (R100). -/

namespace Sys2Proof

theorem opcodeField_toNat (w : InstrWord) : (opcodeField w).toNat = w.toNat / 2 ^ 25 := by
  have hw := w.isLt
  rw [opcodeField, BitVec.extractLsb'_toNat, Nat.shiftRight_eq_div_pow]
  omega

theorem flagField_toNat (w : InstrWord) : (flagField w).toNat = w.toNat % 2 := by
  simp [flagField]

/-- The operand bits are the fields RB, R1 and F2 in order: neighbouring bit ranges join. -/
theorem oprField_eq_append (w : InstrWord) : oprField w = rbField w ++ r1Field w ++ f2Field w := by
  have hrb : rbField w ++ r1Field w = w.extractLsb' 17 8 := BitVec.extractLsb'_append_extractLsb'_eq_extractLsb' rfl
  have hf2 : w.extractLsb' 17 8 ++ f2Field w = oprField w := BitVec.extractLsb'_append_extractLsb'_eq_extractLsb' rfl
  rw [hrb, hf2]

/-- Settles O5: a bit range is a quotient and a remainder, and the operand register takes the joined fields apart again. -/
theorem fieldsOfAWord : Obligations.FieldsOfAWord := by
  intro w
  have hopr := oprField_eq_append w
  have hrange (start len : Nat) : (w.extractLsb' start len).toNat = w.toNat / 2 ^ start % 2 ^ len := by
    rw [BitVec.extractLsb'_toNat, Nat.shiftRight_eq_div_pow]
  refine ⟨opcodeField_toNat w, hrange 21 4, hrange 17 4, hrange 1 16, flagField_toNat w, hrange 1 24, hopr, ?_⟩
  rw [hopr]
  exact ⟨Laws.KeyOfEncoding.top_of_parts .., Laws.KeyOfEncoding.middle_of_parts .., Laws.KeyOfEncoding.last_of_parts ..⟩

/-- Settles O7: each word, and the one string, is evaluated. -/
theorem workedWords : Obligations.WorkedWords :=
  ⟨rfl, rfl, rfl, rfl, rfl, rfl, rfl, rfl, rfl, rfl, rfl, rfl, rfl, rfl, rfl, rfl, rfl, rfl, rfl⟩

end Sys2Proof
end

section
/-! PROOF. The illegal encodings (R97): which keys the table leaves out under the numbers of R94, and what the decoder and
LATCH_IR make of a word with such a key. -/

namespace Sys2Proof.Machine

/-- The (opcode, FLAG) pairs that R97 names: no mnemonic, NOP or HALT with FLAG 1, a branch or JUMP with FLAG 0. -/
def IllegalKey (opcode flag : Nat) : Prop :=
  13 ≤ opcode ∨ (opcode ≤ 1 ∧ flag = 1) ∨ (8 ≤ opcode ∧ opcode ≤ 12 ∧ flag = 0)

/-- The table has rows with FLAG 0 for the opcodes 0 to 7 only, and rows with FLAG 1 for the opcodes 2 to 12 only. -/
theorem lookupRow_listed_eq_none_iff {opcode : BitVec 7} {flag : BitVec 1} :
    lookupRow .listed opcode flag = none ↔ IllegalKey opcode.toNat flag.toNat := by
  rw [lookupRow_eq_none_iff, IllegalKey]
  obtain rfl | rfl := BitVec.eq_zero_or_eq_one flag
  all_goals
    simp only [decodeTable, List.forall_mem_cons, List.not_mem_nil, OpcodeNumbers.number, OpcodeNumbers.listed,
      BitVec.toNat_eq, BitVec.toNat_ofNat, Nat.reducePow, Nat.reduceMod, ne_eq, reduceCtorEq, not_true_eq_false,
      not_false_eq_true, imp_false, implies_true, false_implies, and_true, true_and, and_false, or_false, false_or]
    omega

theorem lookupRow_listed_fields {w : InstrWord} :
    lookupRow .listed (opcodeField w) (flagField w) = none ↔ IllegalKey (w.toNat / 2 ^ 25) (w.toNat % 2) := by
  rw [lookupRow_listed_eq_none_iff, opcodeField_toNat, flagField_toNat]

theorem latchIr_of_illegalKey {w : InstrWord} {s : State} (hopc : s.params.opc = .listed)
    (hw : imemRead s.pc.toNat s = .ok w) (h : IllegalKey (w.toNat / 2 ^ 25) (w.toNat % 2)) :
    latchIr s = .raised (.decodeError (opcodeField w) (flagField w)) s := by
  obtain ⟨-, hentry⟩ := decode_of_lookupRow_none (lookupRow_listed_fields.mpr h)
  exact latchIr_of_decodeEntry_error hw (hopc ▸ hentry)

theorem exists_decode_of_not_illegalKey {w : InstrWord} (h : ¬ IllegalKey (w.toNat / 2 ^ 25) (w.toNat % 2)) :
    ∃ i, decode .listed w = .ok i := by
  obtain ⟨r, hr⟩ := Option.ne_none_iff_exists'.mp (mt lookupRow_listed_fields.mp h)
  obtain ⟨hdecode, -⟩ := decode_of_lookupRow hr
  exact ⟨_, hdecode⟩

/-- The sum of R97: the 230 pairs with an opcode from 13 on are all illegal, and 7 of the 26 below. -/
theorem illegalKey_count :
    ((List.range (26 + 230)).filter fun n =>
      (lookupRow OpcodeNumbers.listed (BitVec.ofNat 7 (n / 2)) (BitVec.ofNat 1 (n % 2))).isNone).length = 7 + 230 := by
  have hhigh : ∀ n ∈ (List.range 230).map (26 + ·),
      (lookupRow .listed (BitVec.ofNat 7 (n / 2)) (BitVec.ofNat 1 (n % 2))).isNone = true := by
    intro n hn
    obtain ⟨k, hk, rfl⟩ := List.mem_map.mp hn
    rw [List.mem_range] at hk
    rw [Option.isNone_iff_eq_none, lookupRow_listed_eq_none_iff, BitVec.toNat_ofNat]
    exact Or.inl (by omega)
  rw [List.range_add, List.filter_append, List.filter_eq_self.mpr hhigh, List.length_append, List.length_map,
    List.length_range, Nat.add_right_cancel_iff]
  decide

/-- Settles O4: an illegal key has no row, so the decoder rejects its word and LATCH_IR raises the fault; any other
key has a row; the illegal pairs are counted below opcode 13 and from it on. -/
theorem illegalEncodingsFault : Obligations.IllegalEncodingsFault :=
  ⟨fun _ _ hopc hw h => latchIr_of_illegalKey hopc hw h, fun _ h => exists_decode_of_not_illegalKey h, illegalKey_count⟩

end Sys2Proof.Machine
end

section
/-! PROOF. The string form of a word (R91): what reading digits gives, by induction on the characters, then for the 32
characters of a word; and the refusal of a launch that breaks a premise (R313). -/

namespace Sys2Proof.Machine

/-! ### Digits -/

/-- The character of a bit (R91). -/
def charOfBit (b : Bool) : Char := if b then '1' else '0'

theorem bitOfChar_eq_some_iff {c : Char} {b : Bool} : bitOfChar c = some b ↔ c = charOfBit b := by
  unfold bitOfChar charOfBit
  split
  next h => cases b <;> simp [h]
  next h =>
    split
    next h1 => cases b <;> simp [h1]
    next h1 => cases b <;> simp [h, h1]

theorem bitOfChar_eq_none_iff {c : Char} : bitOfChar c = none ↔ c ≠ '0' ∧ c ≠ '1' := by
  simp [bitOfChar, ite_eq_iff]

theorem numberOfChars_cons {acc : Nat} {c : Char} {cs : List Char} :
    numberOfChars acc (c :: cs) = (bitOfChar c).bind fun b => numberOfChars (2 * acc + b.toNat) cs := by
  rw [numberOfChars]
  cases bitOfChar c <;> rfl

/-- Reading the digits `cs` after `acc` gives `n` exactly when `cs` are the low digits of `n` and `acc` is the rest. -/
theorem numberOfChars_eq_some_iff {acc n : Nat} {cs : List Char} :
    numberOfChars acc cs = some n ↔ n / 2 ^ cs.length = acc ∧
      ∀ k < cs.length, cs[k]? = some (charOfBit (n.testBit (cs.length - 1 - k))) := by
  induction cs generalizing acc with
  | nil => simp [numberOfChars, eq_comm]
  | cons c cs ih =>
    have hdigit (b : Bool) : n / 2 ^ cs.length = 2 * acc + b.toNat ↔
        n / 2 ^ (cs.length + 1) = acc ∧ b = n.testBit cs.length := by
      have hb := b.toNat_lt
      have hbit : b = n.testBit cs.length ↔ b.toNat = n / 2 ^ cs.length % 2 := by
        rw [← Nat.toNat_testBit, (Function.LeftInverse.injective Bool.ofNat_toNat).eq_iff]
      rw [hbit, pow_succ, ← Nat.div_div_eq_div_mul]
      omega
    have hindex (k : Nat) : cs.length + 1 - 1 - (k + 1) = cs.length - 1 - k := by omega
    simp only [numberOfChars_cons, Option.bind_eq_some_iff, bitOfChar_eq_some_iff, ih, hdigit, List.length_cons,
      Nat.forall_lt_succ_left, List.getElem?_cons_zero, List.getElem?_cons_succ, hindex]
    simp [and_left_comm]

theorem numberOfChars_eq_none_iff {acc : Nat} {cs : List Char} :
    numberOfChars acc cs = none ↔ ∃ c ∈ cs, c ≠ '0' ∧ c ≠ '1' := by
  induction cs generalizing acc with
  | nil => simp [numberOfChars]
  | cons c cs ih =>
    rw [numberOfChars_cons, List.exists_mem_cons_iff, ← bitOfChar_eq_none_iff]
    cases bitOfChar c <;> simp [ih]

/-! ### Words -/

/-- A word is what its 32 digits say, from bit 31 down (R91). -/
theorem wordOfChars_eq_some_iff {cs : List Char} {w : InstrWord} :
    wordOfChars cs = some w ↔
      cs.length = 32 ∧ ∀ k < 32, cs[k]? = some (charOfBit (w.getLsbD (31 - k))) := by
  by_cases hlength : cs.length = 32
  · have hnumber : wordOfChars cs = some w ↔ numberOfChars 0 cs = some w.toNat := by
      rw [wordOfChars, if_pos hlength, Option.map_eq_some_iff]
      constructor
      · rintro ⟨n, hn, rfl⟩
        obtain ⟨hsmall, -⟩ := numberOfChars_eq_some_iff.mp hn
        rw [hlength] at hsmall
        rw [hn, BitVec.toNat_ofNat, Nat.mod_eq_of_lt (by omega)]
      · exact fun hn => ⟨w.toNat, hn, BitVec.ofNat_toNat 32 w⟩
    rw [hnumber, numberOfChars_eq_some_iff, hlength]
    simp [Nat.div_eq_of_lt w.isLt, BitVec.testBit_toNat]
  · simp [wordOfChars, hlength]

theorem wordOfChars_eq_none_iff {cs : List Char} :
    wordOfChars cs = none ↔ cs.length ≠ 32 ∨ ∃ c ∈ cs, c ≠ '0' ∧ c ≠ '1' := by
  by_cases hlength : cs.length = 32
  · rw [wordOfChars, if_pos hlength, Option.map_eq_none_iff, numberOfChars_eq_none_iff]
    simp [hlength]
  · simp [wordOfChars, hlength]

theorem eq_charsOfWord_iff {cs : List Char} {w : InstrWord} :
    cs = charsOfWord w ↔ cs.length = 32 ∧ ∀ k < 32, cs[k]? = some (charOfBit (w.getLsbD (31 - k))) := by
  have hlength : (charsOfWord w).length = 32 := by simp [charsOfWord]
  have hdigit : ∀ k < 32, (charsOfWord w)[k]? = some (charOfBit (w.getLsbD (31 - k))) := fun k hk => by
    simp [charsOfWord, charOfBit, hk]
  constructor
  · rintro rfl
    exact ⟨hlength, hdigit⟩
  · rintro ⟨hcs, h⟩
    exact List.ext_getElem?' fun k hk => by rw [h k (by omega), hdigit k (by omega)]

theorem wordOfChars_eq_some_iff_eq_charsOfWord {cs : List Char} {w : InstrWord} :
    wordOfChars cs = some w ↔ cs = charsOfWord w :=
  wordOfChars_eq_some_iff.trans eq_charsOfWord_iff.symm

theorem numberEntry_word (w : InstrWord) : ImageEntry.word (.number w.toNat) = some w := by
  rw [ImageEntry.word, if_pos w.isLt, BitVec.ofNat_toNat, BitVec.setWidth_eq]

/-! ### The refused launch -/

/-- A launch that breaks a premise is refused, at some premise (R313). -/
theorem launch_refused_of_premise {l : Launch} {p : LaunchPremise} (h : premiseHolds l p = false) :
    ∃ q, launch l = .refused (.launchRefused q) := by
  have hfind : (launchPremises.find? fun q => !premiseHolds l q).isSome :=
    List.find?_isSome.mpr ⟨p, mem_launchPremises p, by simp [h]⟩
  obtain ⟨q, hq⟩ := Option.isSome_iff_exists.mp hfind
  exact ⟨q, by rw [launch, hq]⟩

theorem imageWords_broken {l : Launch} (h : ∃ e ∈ l.image, e.word = none) : premiseHolds l .imageWords = false := by
  simpa [premiseHolds] using h

/-- Settles O6: a list is a word exactly when it is the word's digits, which `charsOfWord` lists, and no word exactly when
it has another length or a character that is no digit; an entry that is no word breaks premise 2 of the launch. -/
theorem imageStringForm : Obligations.ImageStringForm :=
  ⟨fun _ _ => wordOfChars_eq_some_iff, fun _ _ => wordOfChars_eq_some_iff_eq_charsOfWord,
    fun _ => wordOfChars_eq_none_iff,
    fun w => (numberEntry_word w).trans (wordOfChars_eq_some_iff_eq_charsOfWord.mpr rfl).symm,
    fun _ h => launch_refused_of_premise (imageWords_broken h)⟩

end Sys2Proof.Machine
end

section
/-! PROOF. The results of the ALU operations (R128-R131): the exact result under the default bounds of a width is the
operation on words of that width; and the ALU signal that stores a result with its flags (R127, R132). -/

namespace Sys2Proof.Machine

/-! ### ADD, SUB and MUL (R128-R130) -/

theorem aluValue_ofWidth {width : Nat} (hw : 0 < width) (dmemSize tickLimit : Nat) (op : AluOp) (l r : Int) :
    aluValue (Params.ofWidth width dmemSize tickLimit) op l r = (BitVec.ofInt width (aluExact op l r)).toInt :=
  wrap_ofWidth hw dmemSize tickLimit _

theorem ofInt_sub (width : Nat) (l r : Int) :
    BitVec.ofInt width (l - r) = BitVec.ofInt width l - BitVec.ofInt width r := by
  rw [eq_sub_iff_add_eq, ← BitVec.ofInt_add, sub_add_cancel]

/-- One past the greatest word value wraps to the least. -/
theorem wrap_succ_maxNumber {p : Params} (h : p.minNumber ≤ p.maxNumber) : wrap p (p.maxNumber + 1) = p.minNumber :=
  (wrap_eq_iff h).mpr ⟨le_rfl, h, dvd_of_eq (by omega)⟩

/-- One below the least word value wraps to the greatest. -/
theorem wrap_pred_minNumber {p : Params} (h : p.minNumber ≤ p.maxNumber) : wrap p (p.minNumber - 1) = p.maxNumber :=
  (wrap_eq_iff h).mpr ⟨h, le_rfl, (dvd_neg (α := Int)).mp (dvd_of_eq (by omega))⟩

/-- With default bounds the negation of the least word value is out of range by one, and wraps to that value. -/
theorem wrap_neg_minNumber_ofWidth (width dmemSize tickLimit : Nat) :
    wrap (Params.ofWidth width dmemSize tickLimit) (-(Params.ofWidth width dmemSize tickLimit).minNumber) =
      (Params.ofWidth width dmemSize tickLimit).minNumber := by
  have hneg : -(Params.ofWidth width dmemSize tickLimit).minNumber =
      (Params.ofWidth width dmemSize tickLimit).maxNumber + 1 := by
    rw [ofWidth_minNumber, ofWidth_maxNumber]
    omega
  rw [hneg, wrap_succ_maxNumber (ofWidth_minNumber_le_maxNumber ..)]

/-- Settles O9: with default bounds `wrap` is the signed value of a word, and reduction to a word commutes with the three
operations; the examples are the two ends of the word range. -/
theorem addSubMulWrapTheExactResult : Obligations.AddSubMulWrapTheExactResult := by
  refine ⟨fun _ _ _ => ⟨rfl, rfl, rfl⟩, fun width dmemSize tickLimit l r hw => ⟨?_, ?_, ?_⟩,
    fun p h => ⟨wrap_succ_maxNumber h, wrap_pred_minNumber h, wrap_pred_minNumber h⟩,
    fun width dmemSize tickLimit _ => ⟨?_, ?_⟩, by decide, by decide, by decide⟩
  · rw [aluValue_ofWidth hw, aluExact, BitVec.ofInt_add]
  · rw [aluValue_ofWidth hw, aluExact, ofInt_sub]
  · rw [aluValue_ofWidth hw, aluExact, BitVec.ofInt_mul]
  · rw [aluValue, aluExact, zero_sub, wrap_neg_minNumber_ofWidth]
  · rw [aluValue, aluExact, mul_neg_one, wrap_neg_minNumber_ofWidth]

/-! ### AND (R131) -/

theorem andInt_comm (a b : Int) : andInt a b = andInt b a := by
  cases a <;> cases b <;> simp [andInt, Nat.and_comm, Nat.or_comm]

/-- At every width the AND of two integers has the AND of their patterns; `negSucc b` has the complement of the pattern of
`b`, and clearing the bits of `y` in `x` is the AND with that complement. -/
theorem ofInt_andInt (w : Nat) (a b : Int) : BitVec.ofInt w (andInt a b) = BitVec.ofInt w a &&& BitVec.ofInt w b := by
  have hmixed (m n : Nat) : BitVec.ofInt w (andInt (.ofNat m) (.negSucc n)) =
      BitVec.ofInt w (.ofNat m) &&& BitVec.ofInt w (.negSucc n) := by
    have hclear (x y : BitVec w) : x ^^^ (x &&& y) = x &&& ~~~y := by
      ext k hk
      cases hx : x[k] <;> simp [hx]
    simp [andInt, BitVec.ofNat_and, BitVec.ofNat_xor, hclear]
  cases a with
  | ofNat a =>
    cases b with
    | ofNat b => simp [andInt, BitVec.ofNat_and]
    | negSucc b => exact hmixed a b
  | negSucc a =>
    cases b with
    | ofNat b => rw [andInt_comm, hmixed, BitVec.and_comm]
    | negSucc b => simp [andInt, BitVec.ofNat_or, BitVec.not_or]

/-- The sign of the AND is the AND of the signs. -/
theorem andInt_neg_iff {a b : Int} : andInt a b < 0 ↔ a < 0 ∧ b < 0 := by
  have hnat (n : Nat) : ¬ Int.ofNat n < 0 := Int.not_lt.mpr (Int.natCast_nonneg n)
  cases a <;> cases b <;> simp only [andInt, hnat, Int.negSucc_lt_zero, and_self, and_true, and_false]

/-- `v` needs at most `n` bits beside its sign. -/
def SignedBits (n : Nat) (v : Int) : Prop := -2 ^ n ≤ v ∧ v < 2 ^ n

theorem signedBits_ofNat_iff {n a : Nat} : SignedBits n (.ofNat a) ↔ a < 2 ^ n := by
  have hcast : ((2 ^ n : Nat) : Int) = 2 ^ n := by simp
  rw [SignedBits, Int.ofNat_eq_natCast]
  omega

theorem signedBits_negSucc_iff {n a : Nat} : SignedBits n (.negSucc a) ↔ a < 2 ^ n := by
  have hcast : ((2 ^ n : Nat) : Int) = 2 ^ n := by simp
  unfold SignedBits
  omega

theorem signedBits_andInt {n : Nat} {a b : Int} (ha : SignedBits n a) (hb : SignedBits n b) :
    SignedBits n (andInt a b) := by
  cases a <;> cases b <;>
    simp only [signedBits_ofNat_iff, signedBits_negSucc_iff, andInt] at ha hb ⊢
  case ofNat.ofNat => exact Nat.and_lt_two_pow _ hb
  case ofNat.negSucc => exact Nat.xor_lt_two_pow ha (Nat.and_lt_two_pow _ hb)
  case negSucc.ofNat => exact Nat.xor_lt_two_pow hb (Nat.and_lt_two_pow _ ha)
  case negSucc.negSucc => exact Nat.or_lt_two_pow ha hb

theorem inRange_iff {p : Params} {v : Int} : inRange p v = true ↔ p.minNumber ≤ v ∧ v ≤ p.maxNumber := by
  simp [inRange]

theorem inRange_ofWidth_iff {width dmemSize tickLimit : Nat} {v : Int} :
    inRange (Params.ofWidth width dmemSize tickLimit) v = true ↔ SignedBits (width - 1) v := by
  rw [inRange_iff, ofWidth_minNumber, ofWidth_maxNumber, Int.le_sub_one_iff, SignedBits]

/-- With default bounds the AND of two word values is a word value. -/
theorem inRange_ofWidth_andInt {width dmemSize tickLimit : Nat} {l r : Int}
    (hl : inRange (Params.ofWidth width dmemSize tickLimit) l = true)
    (hr : inRange (Params.ofWidth width dmemSize tickLimit) r = true) :
    inRange (Params.ofWidth width dmemSize tickLimit) (andInt l r) = true := by
  rw [inRange_ofWidth_iff] at hl hr ⊢
  exact signedBits_andInt hl hr

/-- Settles O10: the pattern and the sign by the four cases of `andInt`; the AND of two word values is in range, so `wrap`
leaves it. -/
theorem andIsTwosComplementBitwise : Obligations.AndIsTwosComplementBitwise := by
  refine ⟨ofInt_andInt, fun _ _ => andInt_neg_iff, fun _ _ _ => rfl,
    fun width dmemSize tickLimit l r hw hl hr => ⟨?_, ?_⟩, by decide, by decide, by decide⟩
  · obtain ⟨hmin, hmax⟩ := inRange_iff.mp (inRange_ofWidth_andInt hl hr)
    exact wrap_of_mem_range hmin hmax
  · rw [aluValue_ofWidth hw, aluExact, ofInt_andInt]

/-! ### The ALU signal (R127, R132) -/

theorem alu_of_left_none {s : State} (h : s.left = none) (op : AluOp) :
    alu op s = .raised (.uninitialisedRead .leftWire) s := by
  simp [alu, h]

theorem alu_of_right_none {s : State} {l : Int} (hl : s.left = some l) (hr : s.right = none) (op : AluOp) :
    alu op s = .raised (.uninitialisedRead .rightWire) s := by
  simp [alu, hl, hr]

theorem flagsOf_z_iff {v : Int} : (flagsOf v).z = true ↔ v = 0 := decide_eq_true_iff

theorem flagsOf_n_iff {v : Int} : (flagsOf v).n = true ↔ v < 0 := decide_eq_true_iff

/-- `Z` and `N` are never both 1 (R132). -/
theorem flagsOf_exclusive (v : Int) : ¬ ((flagsOf v).z = true ∧ (flagsOf v).n = true) := by
  rw [flagsOf_z_iff, flagsOf_n_iff]
  omega

/-- Settles O13: an empty wire by the cases of the signal; the flags it stores are `flagsOf` the stored result. -/
theorem aluStoresResultAndFlags : Obligations.AluStoresResultAndFlags :=
  fun op _ => ⟨fun _ hl _ => alu_of_left_none hl op, fun _ hl hr => alu_of_right_none hl hr op,
    fun hl _ => .inl (alu_of_left_none hl op),
    fun _ _ hl hr => ⟨_, alu_of_wires hl hr op, flagsOf_z_iff, flagsOf_n_iff, flagsOf_exclusive _⟩⟩

end Sys2Proof.Machine
end

section
/-! PROOF. The operand register (R30, R124-R126): what its fields hold as numbers, the resolution of an operand-relative
entry, and the immediate selects. -/

namespace Sys2Proof.Machine

/-! ### Fields of the operand register (R30) -/

theorem oprRb_toNat (o : BitVec 24) : (oprRb o).toNat = o.toNat / 2 ^ 20 := by
  have ho := o.isLt
  simp only [oprRb, BitVec.extractLsb'_toNat, Nat.shiftRight_eq_div_pow]
  omega

theorem oprR1_toNat (o : BitVec 24) : (oprR1 o).toNat = o.toNat / 2 ^ 16 % 2 ^ 4 := by
  simp [oprR1, Nat.shiftRight_eq_div_pow]

theorem oprF2_toNat (o : BitVec 24) : (oprF2 o).toNat = o.toNat % 2 ^ 16 := by
  simp [oprF2]

/-! ### Operand resolution (R124) -/

theorem resolve_of_two_lt {k : Nat} (hk : 2 < k) (f : RegIdx → State → SignalResult) (s : State) :
    resolve k f s = .raised (.invalidOperandIndex k) s := by
  simp [resolve, operandField, hk]

/-- `n` is operand field `k` of the operand register `o`. -/
def FieldIs (o : BitVec 24) (k n : Nat) : Prop :=
  (k = 0 ∧ n = o.toNat / 2 ^ 20) ∨ (k = 1 ∧ n = o.toNat / 2 ^ 16 % 2 ^ 4) ∨ (k = 2 ∧ n = o.toNat % 2 ^ 16)

theorem resolve_of_fieldIs {s : State} {o : BitVec 24} {k n : Nat} (ho : s.opr = some o) (h : FieldIs o k n)
    (f : RegIdx → State → SignalResult) : resolve k f s = withIndex n f s := by
  obtain ⟨rfl, rfl⟩ | ⟨rfl, rfl⟩ | ⟨rfl, rfl⟩ := h
  · rw [resolve_zero ho, ← oprRb_toNat, withIndex_toNat]
  · rw [resolve_one ho, ← oprR1_toNat, withIndex_toNat]
  · rw [resolve_two ho, oprF2_toNat]

theorem resolve_of_fieldIs_of_lt {s : State} {o : BitVec 24} {k n : Nat} (ho : s.opr = some o) (h : FieldIs o k n)
    (hn : 15 < n) (f : RegIdx → State → SignalResult) :
    resolve k f s = .raised (.invalidRegisterIndex n .outOfRange) s := by
  rw [resolve_of_fieldIs ho h, withIndex_of_lt hn]

theorem resolve_of_fieldIs_of_le {s : State} {o : BitVec 24} {k n : Nat} (ho : s.opr = some o) (h : FieldIs o k n)
    (hn : n ≤ 15) (f : RegIdx → State → SignalResult) : resolve k f s = f (BitVec.ofNat 4 n) s := by
  rw [resolve_of_fieldIs ho h, withIndex_of_le hn]

/-- A field above 15 is F2: RB and R1 have four bits. -/
theorem eq_two_of_fieldIs {o : BitVec 24} {k n : Nat} (h : FieldIs o k n) (hn : 15 < n) : k = 2 := by
  have ho := o.isLt
  unfold FieldIs at h
  omega

/-- The operand index of an operand-relative entry, 0 for a concrete signal. -/
def RomEntry.operandIndex : RomEntry → Nat
  | .signal _ => 0
  | .selLeftOp k => k
  | .selRightOp k => k
  | .latchOp k => k

theorem operandIndex_le_of_mem_rom : ∀ row : RomRow, ∀ e ∈ rom row, e.operandIndex ≤ 2 := by
  decide

/-- Settles O15: each entry resolves through the number that its field holds, and the range of that number decides; the
operand indices of the ROM are checked row by row. -/
theorem operandResolution : Obligations.OperandResolution := by
  refine ⟨fun k s hk => ⟨resolve_of_two_lt hk _ s, resolve_of_two_lt hk _ s, resolve_of_two_lt hk _ s⟩,
    fun s o k n ho h => ⟨fun hn => ?_, fun hn => ?_⟩, fun row k h => ?_⟩
  · have hraised := fun f => resolve_of_fieldIs_of_lt ho h hn f
    exact ⟨eq_two_of_fieldIs h hn, hraised _, hraised _, hraised _⟩
  · have hsignal := fun f => resolve_of_fieldIs_of_le ho h hn f
    exact ⟨hsignal _, hsignal _, hsignal _⟩
  · obtain h | h | h := h
    all_goals exact operandIndex_le_of_mem_rom row _ h

/-! ### The immediate selects (R125, R126) -/

theorem execSignal_selLeftAddr {s : State} {o : BitVec 24} (ho : s.opr = some o) :
    execSignal .selLeftAddr s = .done { s with left := some (zext16 (oprF2 o)) } :=
  withF2_some ho _

theorem execSignal_selRightNum {s : State} {o : BitVec 24} (ho : s.opr = some o) :
    execSignal .selRightNum s = .done { s with right := some (immExt s.params (oprF2 o)) } :=
  withF2_some ho _

theorem zext16_oprF2 (o : BitVec 24) : zext16 (oprF2 o) = ((o.toNat % 2 ^ 16 : Nat) : Int) := by
  rw [zext16, oprF2_toNat]

theorem sext16_oprF2 (o : BitVec 24) : sext16 (oprF2 o) =
    if o.toNat % 2 ^ 16 < 2 ^ 15 then ((o.toNat % 2 ^ 16 : Nat) : Int) else ((o.toNat % 2 ^ 16 : Nat) : Int) - 2 ^ 16 := by
  rw [sext16, oprF2_toNat]

theorem immExt_of_sext16 {p : Params} (h : p.immExt = .sext16) (f : BitVec 16) : immExt p f = sext16 f := by
  simp [immExt, h]

theorem immExt_of_zext16 {p : Params} (h : p.immExt = .zext16) (f : BitVec 16) : immExt p f = zext16 f := by
  simp [immExt, h]

theorem immExt_range (p : Params) (f : BitVec 16) : -32768 ≤ immExt p f ∧ immExt p f ≤ 65535 := by
  cases h : p.immExt with
  | sext16 =>
    have hrange := sext16_range f
    rw [immExt_of_sext16 h]
    omega
  | zext16 =>
    have hrange := zext16_range f
    rw [immExt_of_zext16 h]
    omega

/-- A word of 17 bits holds every number from -65536 to 65535. -/
theorem inRange_of_seventeen_le {p : Params} {width dmemSize tickLimit : Nat} {v : Int} (hw : 17 ≤ width)
    (hpmin : p.minNumber = (Params.ofWidth width dmemSize tickLimit).minNumber)
    (hpmax : p.maxNumber = (Params.ofWidth width dmemSize tickLimit).maxNumber) (hmin : -65536 ≤ v) (hmax : v ≤ 65535) :
    inRange p v = true := by
  have hpow : (2 : Int) ^ 16 ≤ 2 ^ (width - 1) := pow_le_pow_right₀ (by decide) (by omega)
  rw [ofWidth_minNumber] at hpmin
  rw [ofWidth_maxNumber] at hpmax
  rw [inRange_iff]
  omega

/-- Settles O12: the selects run on F2, whose extensions lie within 17 bits. -/
theorem immediateSelectsGiveWordValues : Obligations.ImmediateSelectsGiveWordValues := by
  refine ⟨fun s o ho => ?_, fun s o ho himm => ?_, fun s o ho himm => ?_, fun p width _ _ f hw hpmin hpmax => ?_⟩
  · rw [execSignal_selLeftAddr ho, zext16_oprF2]
  · rw [execSignal_selRightNum ho, immExt_of_sext16 himm, sext16_oprF2]
  · rw [execSignal_selRightNum ho, immExt_of_zext16 himm, zext16_oprF2]
  · have hzext := zext16_range f
    have himm := immExt_range p f
    exact ⟨inRange_of_seventeen_le hw hpmin hpmax (by omega) (by omega),
      inRange_of_seventeen_le hw hpmin hpmax (by omega) (by omega)⟩

end Sys2Proof.Machine
end

section
/-! PROOF. The multiplexers and their latches (R135-R141), the data memory signals (R143, R144), and the catalog (R148). -/

namespace Sys2Proof.Machine

/-! ### LATCH_PC (R137) -/

theorem execSignal_latchPc_inc {s : State} (h : s.pcSel = .inc) :
    execSignal .latchPc s = .done { s with pc := s.pc + 1#16 } :=
  latchPc_inc h _

theorem execSignal_latchPc_addr {s : State} {o : BitVec 24} (h : s.pcSel = .addr) (ho : s.opr = some o) :
    execSignal .latchPc s = .done { s with pc := oprF2 o } := by
  simp [execSignal, ho, latchPc_addr h]

theorem latchPc_unset {s : State} (h : s.pcSel = .unset) (f2 : Option (BitVec 16)) :
    latchPc f2 s = .raised (.invalidMux .latchPc .pcSel) s := by
  simp [latchPc, h]

/-! ### The data source (R139) -/

theorem dataSource_alu {s : State} (h : s.dataSel = .alu) (i : RegIdx) :
    dataSource i s = s.aluResult.elim (.error (.uninitialisedRead .aluResult)) .ok := by
  rw [dataSource, h]
  cases s.aluResult <;> rfl

theorem dataSource_mem {s : State} (h : s.dataSel = .mem) (i : RegIdx) :
    dataSource i s = s.memOut.elim (.error (.uninitialisedRead .memOut)) .ok := by
  rw [dataSource, h]
  cases s.memOut <;> rfl

theorem dataSource_unset {s : State} (h : s.dataSel = .unset) (i : RegIdx) :
    dataSource i s = .error (.invalidMux (.latchR i) .dataSel) := by
  simp [dataSource, h]

/-! ### LATCH_MPC (R141) -/

/-- A next row outside the ROM faults; the stride is already 1 (log 11). -/
theorem latchMpc_inc_of_le {s : State} {row : RomRow} (h : s.mpcSel = .inc) (hn : 30 ≤ row.val + s.stride.toNat) :
    latchMpc row s = .raised (.mpcOutOfRange (row.val + s.stride.toNat)) { s with stride := .one } := by
  simp [latchMpc, h, gotoRow, hn.not_gt]

theorem latchMpc_ir_none {s : State} (h : s.mpcSel = .ir) (hi : s.ir = none) (row : RomRow) :
    latchMpc row s = .raised (.uninitialisedRead .ir) s := by
  simp [latchMpc, h, hi]

theorem latchMpc_unset {s : State} (h : s.mpcSel = .unset) (row : RomRow) :
    latchMpc row s = .raised (.invalidMux .latchMpc .mpcSel) s := by
  simp [latchMpc, h]

/-- Settles O16: each select writes its selector by definition; each latch and the data source by the selector they find. -/
theorem multiplexersAndTheirLatches : Obligations.MultiplexersAndTheirLatches :=
  fun _ => ⟨rfl, rfl, rfl, rfl, rfl, rfl, rfl,
    fun h => ⟨_, execSignal_latchPc_inc h, BitVec.toNat_add .., rfl⟩,
    fun o h ho => ⟨_, execSignal_latchPc_addr h ho, oprF2_toNat o, rfl⟩,
    fun h => latchPc_unset h _,
    fun i _ h hv => by simp [dataSource_alu h, hv], fun i h hv => by simp [dataSource_alu h, hv],
    fun i _ h hv => by simp [dataSource_mem h, hv], fun i h hv => by simp [dataSource_mem h, hv],
    fun i h => dataSource_unset h i,
    fun h hn => ⟨_, latchMpc_inc h hn, rfl, rfl, rfl⟩, fun h hn => ⟨_, latchMpc_inc_of_le h hn, rfl⟩,
    fun _ h hi => latchMpc_ir h hi _, fun h hi => latchMpc_ir_none h hi _, fun h => latchMpc_zero h _,
    fun h => latchMpc_unset h _⟩

/-! ### MEM_READ (R65, R143) -/

theorem memReadSignal_of_left_none {s : State} (h : s.left = none) :
    memReadSignal s = .raised (.uninitialisedRead .leftWire) s := by
  simp [memReadSignal, h]

theorem memRead_zero_cons {s : State} {v : Int} {rest : List Int} (h : s.inbuf = v :: rest) :
    memRead 0 s = .ok (v, { s with inbuf := rest }) := by
  simp [memRead, inPop, h]

theorem memRead_zero_nil {s : State} (h : s.inbuf = []) : memRead 0 s = .error .inputExhausted := by
  simp [memRead, inPop, h]

theorem memRead_one (s : State) : memRead 1 s = .error (.memoryAccessViolation 1 .read .writeOnlyCell) := rfl

theorem memRead_outOfRange {s : State} {a : Int} (h0 : a ≠ 0) (h1 : a ≠ 1)
    (h : a < 0 ∨ (s.params.dmemSize : Int) ≤ a) : memRead a s = .error (.dataAddressOutOfRange a .read) := by
  rw [memRead, if_neg h0, if_neg h1, if_pos h]

theorem memRead_cell_none {s : State} {a : Int} (h2 : 2 ≤ a) (h3 : a < s.params.dmemSize) (hc : s.cell a.toNat = none) :
    memRead a s = .error (.uninitialisedRead (.cell a)) := by
  simp [memRead, show a ≠ 0 by omega, show a ≠ 1 by omega, show ¬ (a < 0 ∨ (s.params.dmemSize : Int) ≤ a) by omega, hc]

/-- Settles O18: the signal answers as the data read at the address on the left wire does, check by check. -/
theorem memReadSignal_checksInOrder : Obligations.MemReadSignal :=
  fun _ => ⟨memReadSignal_of_left_none,
    fun _ _ ha hb => memReadSignal_ok ha (memRead_zero_cons hb),
    fun ha hb => memReadSignal_error ha (memRead_zero_nil hb),
    fun ha => memReadSignal_error ha (memRead_one _),
    fun _ ha h0 h1 h => memReadSignal_error ha (memRead_outOfRange h0 h1 h),
    fun _ ha h2 h3 hc => memReadSignal_error ha (memRead_cell_none h2 h3 hc),
    fun _ _ ha h2 h3 hc => memReadSignal_ok ha (memRead_cell h2 h3 hc)⟩

/-! ### MEM_WRITE (R66, R144) -/

theorem memWriteSignal_of_left_none {s : State} (h : s.left = none) :
    memWriteSignal s = .raised (.uninitialisedRead .leftWire) s := by
  simp [memWriteSignal, h]

theorem memWriteSignal_of_right_none {s : State} {a : Int} (ha : s.left = some a) (h : s.right = none) :
    memWriteSignal s = .raised (.uninitialisedRead .rightWire) s := by
  simp [memWriteSignal, ha, h]

theorem memWrite_zero (v : Int) (s : State) :
    memWrite 0 v s = .error (.memoryAccessViolation 0 .write .readOnlyCell) := rfl

theorem memWrite_one (v : Int) (s : State) : memWrite 1 v s = .ok { s with outbuf := s.outbuf ++ [v] } := rfl

theorem memWrite_outOfRange {s : State} {a : Int} (v : Int) (h0 : a ≠ 0) (h1 : a ≠ 1)
    (h : a < 0 ∨ (s.params.dmemSize : Int) ≤ a) : memWrite a v s = .error (.dataAddressOutOfRange a .write) := by
  rw [memWrite, if_neg h0, if_neg h1, if_pos h]

/-- Settles O19: the signal answers as the data write at the address on the left wire does, check by check; the laws of
the data memory say what the cells hold after the write of a general cell. -/
theorem memWriteSignal_checksInOrder : Obligations.MemWriteSignal :=
  fun _ => ⟨fun _ hl _ => memWriteSignal_of_left_none hl,
    fun _ ha hr => memWriteSignal_of_right_none ha hr,
    fun hl _ => .inl (memWriteSignal_of_left_none hl),
    fun _ ha hv => memWriteSignal_error ha hv (memWrite_zero _ _),
    fun _ ha hv => memWriteSignal_ok ha hv (memWrite_one _ _),
    fun _ _ ha hv h0 h1 h => memWriteSignal_error ha hv (memWrite_outOfRange _ h0 h1 h),
    fun _ _ ha hv h2 h3 => ⟨_, memWriteSignal_ok ha hv (memWrite_cell _ h2 h3), read_write_self ..,
      fun _ hb => read_write_of_ne hb .., rfl⟩⟩

/-! ### The catalog (R148) -/

/-- The three families of register signals list every register. -/
theorem mem_map_registers {α : Type} (f : RegIdx → α) (i : RegIdx) :
    f i ∈ (List.range 16).map fun n => f (BitVec.ofNat 4 n) :=
  List.mem_map.mpr ⟨i.toNat, List.mem_range.mpr i.isLt, by rw [BitVec.ofNat_toNat, BitVec.setWidth_eq]⟩

theorem mem_signalCatalog (sig : Signal) : sig ∈ signalCatalog := by
  cases sig with
  | latchR i => simp only [signalCatalog, List.mem_append, mem_map_registers Signal.latchR i, true_or]
  | selLeftR i => simp only [signalCatalog, List.mem_append, mem_map_registers Signal.selLeftR i, true_or, or_true]
  | selRightR i => simp only [signalCatalog, List.mem_append, mem_map_registers Signal.selRightR i, true_or, or_true]
  | alu op => cases op <;> decide
  | strideIf c => cases c <;> decide
  | _ => decide

/-- Settles O22: a register signal by its number, every other signal and the two counts by the list itself. -/
theorem signalCatalogIsClosed : Obligations.SignalCatalogIsClosed :=
  ⟨mem_signalCatalog, by decide, by decide⟩

end Sys2Proof.Machine
end

section
/-! PROOF. The completed instruction (R178): what a row that a running machine completed has done, the fetch rows 0 to 2
(R174-R176), and the return to row 0 at the end of every instruction. -/

namespace Sys2Proof.Machine

/-! ### Rows of a machine that is running afterwards (R170, R172) -/

/-- A tick that leaves the machine running found it running with budget left. -/
theorem canRun_of_runRow_running {row : RomRow} {ops : List RowOp} {s : State}
    (h : (runRow row ops s).status = .running) : s.canRun := by
  by_cases hs : s.status = .running
  · refine ⟨hs, fun ht => ?_⟩
    simp [runRow_of_limit hs ht] at h
  · exact absurd (runRow_of_ended hs row ops ▸ h) hs

/-- A row that leaves the machine running has completed its first signals, none of them HALT, so what each of them keeps
holds where the rest begins. -/
theorem runOps_append_of_running {P : State → Prop} {row : RomRow} {first rest : List RowOp} {s : State}
    (hfirst : ∀ op ∈ first, ∀ s t, P s → op.run s = .done t → P t) (hs : P s) (hhalt : s.status ≠ .halted)
    (h : (runOps row (first ++ rest) s).status = .running) :
    ∃ u, P u ∧ u.status ≠ .halted ∧ runOps row (first ++ rest) s = runOps row rest u := by
  induction first generalizing s with
  | nil => exact ⟨s, hs, hhalt, rfl⟩
  | cons op ops ih =>
    obtain ⟨hop, hops⟩ := List.forall_mem_cons.mp hfirst
    obtain ⟨e, f⟩ := op
    rw [List.cons_append] at h ⊢
    cases hf : f s with
    | raised k t => simp [runOps_cons_raised hf] at h
    | done t =>
      by_cases ht : t.status = .halted
      · simp [runOps, hf, ht] at h
      · rw [runOps_cons_done hf ht] at h ⊢
        exact ih hops (hop s t hs hf) ht h

/-! ### Signals that keep the stride (R32) -/

/-- The signal does not write the stride register where it completes. -/
def KeepsStride (f : State → SignalResult) : Prop := ∀ s t, f s = .done t → t.stride = s.stride

@[simp] theorem keepsStride_selLeft (i : RegIdx) : KeepsStride (selLeft i) := by
  intro s t h
  rw [selLeft_eq] at h
  split at h <;> cases h
  rfl

@[simp] theorem keepsStride_selRight (i : RegIdx) : KeepsStride (selRight i) := by
  intro s t h
  rw [selRight_eq] at h
  split at h <;> cases h
  rfl

@[simp] theorem keepsStride_withIndex_selRight (n : Nat) : KeepsStride (withIndex n selRight) := by
  intro s t h
  rcases Nat.lt_or_ge 15 n with hn | hn
  · cases withIndex_of_lt hn selRight s ▸ h
  · exact keepsStride_selRight _ s t (withIndex_of_le hn selRight s ▸ h)

@[simp] theorem keepsStride_alu (op : AluOp) : KeepsStride (alu op) := by
  intro s t h
  unfold alu at h
  split at h <;> cases h
  rfl

@[simp] theorem keepsStride_latchPc (f2 : Option (BitVec 16)) : KeepsStride (latchPc f2) := by
  intro s t h
  unfold latchPc at h
  split at h
  · cases h; rfl
  · split at h <;> cases h
    rfl
  · cases h

@[simp] theorem keepsStride_latchReg (i : RegIdx) : KeepsStride (latchReg i) := by
  intro s t h
  unfold latchReg at h
  split at h
  · cases h
  · split at h <;> cases h
    exact setReg_stride ..

@[simp] theorem keepsStride_memReadSignal : KeepsStride memReadSignal := by
  intro s t h
  unfold memReadSignal at h
  split at h
  · cases h
  · split at h <;> cases h
    rename_i hm
    rw [memRead_state hm]

@[simp] theorem keepsStride_memWriteSignal : KeepsStride memWriteSignal := by
  intro s t h
  unfold memWriteSignal at h
  split at h
  · cases h
  · cases h
  · split at h <;> cases h
    rename_i hm
    obtain ⟨_, rfl⟩ | ⟨_, _, rfl⟩ := memWrite_ok hm <;> rfl

@[simp] theorem keepsStride_selPc (sel : PcSel) : KeepsStride (selPc sel) := by rintro s _ ⟨⟩; rfl

@[simp] theorem keepsStride_selData (sel : DataSel) : KeepsStride (selData sel) := by rintro s _ ⟨⟩; rfl

@[simp] theorem keepsStride_selLeftAddr (f2 : BitVec 16) : KeepsStride (selLeftAddr f2) := by rintro s _ ⟨⟩; rfl

@[simp] theorem keepsStride_selRightNum (f2 : BitVec 16) : KeepsStride (selRightNum f2) := by rintro s _ ⟨⟩; rfl

/-! ### RET (R173, R178) -/

/-- What a completed instruction leaves in the control unit. -/
def State.Returned (s : State) : Prop := s.mpc = 0 ∧ s.stride = .one ∧ s.mpcSel = .zero

theorem runOps_ret {s : State} (hs : s.status ≠ .halted) (row : RomRow) :
    runOps row (ret row) s = { s with mpcSel := .zero, mpc := 0, tick := s.tick + 1 } := by
  rw [ret, runOps_cons_done (selMpc_eq _ _) (by exact hs), runOps_cons_done (latchMpc_zero rfl _) (by exact hs),
    runOps_nil]

/-- A row that ends with RET, and whose other signals keep the stride, returns to row 0 unless it ends the run. -/
theorem returned_of_runRow_ret {row : RomRow} {first : List RowOp} {s : State} (hfirst : ∀ op ∈ first, KeepsStride op.run)
    (hstride : s.stride = .one) (h : (runRow row (first ++ ret row) s).status = .running) :
    (runRow row (first ++ ret row) s).Returned := by
  obtain ⟨hs, ht⟩ := canRun_of_runRow_running h
  rw [runRow_of_running hs ht] at h ⊢
  obtain ⟨u, hu, hhalt, hrun⟩ := runOps_append_of_running (P := fun u => u.stride = .one)
    (fun op hop s t hs hdone => (hfirst op hop s t hdone).trans hs) hstride (by simp [hs]) h
  rw [hrun, runOps_ret hhalt]
  exact ⟨rfl, hu, rfl⟩

/-! ### Branches (R177) -/

/-- The stride step that ends a test row leaves a single stride, even where it faults (R141, log 11). -/
theorem runOps_latchMpc_inc_stride {s : State} (hinc : s.mpcSel = .inc) (hs : s.status ≠ .halted) (row : RomRow) :
    (runOps row [⟨.signal .latchMpc, latchMpc row⟩] s).stride = .one := by
  rcases Nat.lt_or_ge (row.val + s.stride.toNat) 30 with hn | hn
  · rw [runOps_cons_done (latchMpc_inc hinc hn) (by exact hs), runOps_nil]
  · rw [runOps_cons_raised (latchMpc_inc_of_le hinc hn), takeFault_stride]

theorem testRow_stride {row : RomRow} {c : Cond} {ra rb : RegIdx} {s : State}
    (h : (testRow row c ra rb s).status = .running) : (testRow row c ra rb s).stride = .one := by
  obtain ⟨hs, ht⟩ := canRun_of_runRow_running h
  rw [testRow, runRow_of_running hs ht] at h ⊢
  obtain ⟨u, -, hhalt, hrun⟩ := runOps_append_of_running (P := fun _ => True)
    (first := [⟨.selLeftOp 0, selLeft ra⟩, ⟨.selRightOp 1, selRight rb⟩, ⟨.signal (.alu .sub), alu .sub⟩,
      ⟨.signal (.strideIf c), strideIf c⟩]) (fun _ _ _ _ _ _ => trivial) trivial (by simp [hs]) h
  rw [runOps_cons_done (selMpc_eq _ _) (by exact hhalt)] at hrun
  exact (congrArg State.stride hrun).trans (runOps_latchMpc_inc_stride rfl (by exact hhalt) row)

theorem commitRow_returned {row : RomRow} {f2 : BitVec 16} {s : State} (hstride : s.stride = .one)
    (h : (commitRow row f2 s).status = .running) : (commitRow row f2 s).Returned :=
  returned_of_runRow_ret (by simp) hstride h

/-- Either second row of a branch ends with RET; it ran, so the test row before it left the machine running. -/
theorem branch_returned {test fall take : RomRow} {c : Cond} {ra rb : RegIdx} {f2 : BitVec 16} {s : State}
    (h : (branch test fall take c ra rb f2 s).status = .running) : (branch test fall take c ra rb f2 s).Returned := by
  unfold branch at h ⊢
  dsimp only at h ⊢
  split_ifs at h ⊢
  · exact commitRow_returned (testRow_stride (canRun_of_runRow_running h).1) h
  · exact returned_of_runRow_ret (first := []) (by simp) (testRow_stride (canRun_of_runRow_running h).1) h

/-! ### Instructions -/

theorem aluRegister_returned {row : RomRow} {op : AluOp} {rd rs1 : RegIdx} {f2 : BitVec 16} {s : State}
    (hstride : s.stride = .one) (h : (aluRegister row op rd rs1 f2 s).status = .running) :
    (aluRegister row op rd rs1 f2 s).Returned :=
  returned_of_runRow_ret (first := [⟨.selLeftOp 1, selLeft rs1⟩, ⟨.selRightOp 2, withIndex f2.toNat selRight⟩,
    ⟨.signal (.alu op), alu op⟩, ⟨.signal .selDataAlu, selData .alu⟩, ⟨.latchOp 0, latchReg rd⟩]) (by simp) hstride h

theorem aluImmediate_returned {row : RomRow} {op : AluOp} {rd rs1 : RegIdx} {f2 : BitVec 16} {s : State}
    (hstride : s.stride = .one) (h : (aluImmediate row op rd rs1 f2 s).status = .running) :
    (aluImmediate row op rd rs1 f2 s).Returned :=
  returned_of_runRow_ret (first := [⟨.selLeftOp 1, selLeft rs1⟩, ⟨.signal .selRightNum, selRightNum f2⟩,
    ⟨.signal (.alu op), alu op⟩, ⟨.signal .selDataAlu, selData .alu⟩, ⟨.latchOp 0, latchReg rd⟩]) (by simp) hstride h

/-- A load row, whatever its address select is. -/
theorem loadRow_returned {row : RomRow} {addr : RowOp} {rd : RegIdx} {s : State} (haddr : KeepsStride addr.run)
    (hstride : s.stride = .one) (h : (runRow row (addr :: loadTail row rd) s).status = .running) :
    (runRow row (addr :: loadTail row rd) s).Returned :=
  returned_of_runRow_ret (first := [addr, ⟨.signal .memRead, memReadSignal⟩, ⟨.signal .selDataMem, selData .mem⟩,
    ⟨.latchOp 0, latchReg rd⟩]) (by simp [haddr]) hstride h

/-- A store row, whatever its address select is. -/
theorem storeRow_returned {row : RomRow} {addr : RowOp} {rs : RegIdx} {s : State} (haddr : KeepsStride addr.run)
    (hstride : s.stride = .one) (h : (runRow row (addr :: storeTail row rs) s).status = .running) :
    (runRow row (addr :: storeTail row rs) s).Returned :=
  returned_of_runRow_ret (first := [addr, ⟨.selRightOp 0, selRight rs⟩, ⟨.signal .memWrite, memWriteSignal⟩])
    (by simp [haddr]) hstride h

/-- HALT ends every run that reaches it, so it is no completed instruction in the sense of R178. -/
theorem haltRow_not_running (s : State) : (runRow 4 [⟨.signal .halt, haltSignal⟩] s).status ≠ .running := by
  intro h
  obtain ⟨hs, ht⟩ := canRun_of_runRow_running h
  simp [runRow_of_running hs ht, runOps, haltSignal] at h

theorem exec_returned {i : Instr} {s t : State} (hstride : s.stride = .one) (h : exec i s = .next t)
    (ht : t.status = .running) : t.Returned := by
  cases i <;> cases h
  case nop => exact returned_of_runRow_ret (first := []) (by simp) hstride ht
  case halt => exact absurd ht (haltRow_not_running s)
  case addReg | subReg | mulReg | andReg => exact aluRegister_returned hstride ht
  case addImm | subImm | mulImm | andImm => exact aluImmediate_returned hstride ht
  case loadReg => exact loadRow_returned (keepsStride_selLeft _) hstride ht
  case loadAddr => exact loadRow_returned (keepsStride_selLeftAddr _) hstride ht
  case writeReg => exact storeRow_returned (keepsStride_selLeft _) hstride ht
  case writeAddr => exact storeRow_returned (keepsStride_selLeftAddr _) hstride ht
  case beq | bne | bgt | blt => exact branch_returned ht
  case jump => exact commitRow_returned hstride ht

/-! ### The fetch rows (R174-R176) -/

theorem runTick_of_canRun {s : State} {row : RomRow} (h : s.canRun) (hrow : s.mpc = row) :
    runTick s = runOps row (romOps row) s := by
  rw [runTick, hrow, runRow_of_running h.1 h.2]

theorem romOps_zero : romOps 0 = [⟨.signal .selPcInc, selPc .inc⟩, ⟨.signal .latchPc, execSignal .latchPc⟩,
    ⟨.signal .selMpcInc, selMpc .inc⟩, ⟨.signal .latchMpc, execSignal .latchMpc⟩] := rfl

theorem romOps_one : romOps 1 = [⟨.signal .latchIr, latchIr⟩, ⟨.signal .latchOpr, latchOpr⟩,
    ⟨.signal .selMpcInc, selMpc .inc⟩, ⟨.signal .latchMpc, execSignal .latchMpc⟩] := rfl

theorem romOps_two : romOps 2 = [⟨.signal .selMpcIr, selMpc .ir⟩, ⟨.signal .latchMpc, execSignal .latchMpc⟩] := rfl

/-- The end of rows 0 and 1: with a single stride the next row is the one after. -/
theorem runOps_nextRow {s : State} {row : RomRow} (hs : s.status ≠ .halted) (hrow : s.mpc = row)
    (hstride : s.stride = .one) (hn : row.val + 1 < 30) :
    runOps row [⟨.signal .selMpcInc, selMpc .inc⟩, ⟨.signal .latchMpc, execSignal .latchMpc⟩] s =
      { s with mpcSel := .inc, mpc := ⟨row.val + 1, hn⟩, tick := s.tick + 1 } := by
  rw [runOps_cons_done (selMpc_eq _ _) (by exact hs)]
  simp [runOps, execSignal, latchMpc, gotoRow, hs, hrow, hstride, hn, Stride.toNat]

theorem runTick_row_zero {s : State} (h : s.canRun) (hrow : s.mpc = 0) (hstride : s.stride = .one) :
    runTick s = { s with pcSel := .inc, pc := s.pc + 1#16, mpcSel := .inc, mpc := 1, tick := s.tick + 1 } := by
  have hn : s.status ≠ .halted := by simp [h.1]
  rw [runTick_of_canRun h hrow, romOps_zero, runOps_cons_done (selPc_eq _ _) (by exact hn),
    runOps_cons_done (execSignal_latchPc_inc rfl) (by exact hn)]
  exact runOps_nextRow (by exact hn) (by exact hrow) (by exact hstride) (by decide)

theorem runTick_row_one {s : State} {w : InstrWord} {entry : RomRow} (h : s.canRun) (hrow : s.mpc = 1)
    (hstride : s.stride = .one) (hw : imemRead s.pc.toNat s = .ok w) (he : decodeEntry s.params.opc w = .ok entry) :
    runTick s = { s with
      ir := some entry, icount := s.icount + 1, opr := some (oprField w), mpcSel := .inc, mpc := 2,
      tick := s.tick + 1 } := by
  have hn : s.status ≠ .halted := by simp [h.1]
  rw [runTick_of_canRun h hrow, romOps_one, runOps_cons_done (latchIr_of_decodeEntry_ok hw he) (by exact hn),
    runOps_cons_done (latchOpr_of_imemRead_ok (by exact hw)) (by exact hn)]
  exact runOps_nextRow (by exact hn) (by exact hrow) (by exact hstride) (by decide)

theorem runTick_row_two {s : State} {entry : RomRow} (h : s.canRun) (hrow : s.mpc = 2) (hir : s.ir = some entry) :
    runTick s = { s with mpcSel := .ir, mpc := entry, tick := s.tick + 1 } := by
  rw [runTick_of_canRun h hrow, romOps_two, runOps_cons_done (selMpc_eq _ _) (by simp [h.1])]
  simp [runOps, execSignal, latchMpc_ir, hir, h.1]

/-- Row 1 leaves the machine running only where a word is fetched and has a row in the decode table (R175). -/
theorem exists_lookupRow_of_row_one_running {s : State} (hrow : s.mpc = 1) (h : (runTick s).status = .running) :
    ∃ w r, imemRead s.pc.toNat s = .ok w ∧ lookupRow s.params.opc (opcodeField w) (flagField w) = some r := by
  rw [runTick_of_canRun (canRun_of_runRow_running h) hrow, romOps_one] at h
  cases hw : imemRead s.pc.toNat s with
  | error k => simp [runOps_cons_raised (latchIr_of_imemRead_error hw)] at h
  | ok w =>
    cases hr : lookupRow s.params.opc (opcodeField w) (flagField w) with
    | none =>
      simp [runOps_cons_raised (latchIr_of_decodeEntry_error hw (decode_of_lookupRow_none hr).2)] at h
    | some r => exact ⟨w, r, rfl, hr⟩

/-! ### A step from a boundary (R180) -/

theorem instrAt_of_decode {s : State} {a : Nat} {w : InstrWord} {i : Instr} (hw : imemRead a s = .ok w)
    (hi : decode s.params.opc w = .ok i) : s.instrAt a = some i := by
  simp [State.instrAt, hw, hi]

/-- A run that goes on after `n` ticks went on before them. -/
theorem running_of_runTicks_running {n : Nat} {s : State} (h : (runTicks n s).status = .running) :
    s.status = .running := by
  by_contra hs
  exact hs (runTicks_of_ended hs n ▸ h)

theorem fetch_of_instrAt {s : State} {i : Instr} (h : (runTicks 3 s).status = .running)
    (hi : (runTicks 3 s).instrAt (runTicks 3 s).pc.toNat = some i) : fetch s = .instr i (runTicks 3 s) := by
  simp [fetch, h, hi]

theorem fetch_of_ended {s : State} (h : (runTicks 3 s).status ≠ .running) : fetch s = .ended (runTicks 3 s) := by
  unfold fetch
  dsimp only
  split
  · exact absurd ‹_› h
  · rfl

/-- A fetch that ends no run gives an instruction, and leaves a single stride. -/
theorem exists_fetch_of_running {s : State} (hrow : s.mpc = 0) (hstride : s.stride = .one)
    (h : (runTicks 3 s).status = .running) :
    ∃ i, fetch s = .instr i (runTicks 3 s) ∧ (runTicks 3 s).stride = .one := by
  have h1 : (runTick s).status = .running := running_of_runTicks_running (n := 2) h
  have h2 : (runTick (runTick s)).status = .running := running_of_runTicks_running (n := 1) h
  have row0 := runTick_row_zero (canRun_of_runRow_running h1) hrow hstride
  obtain ⟨w, r, hw, hr⟩ := exists_lookupRow_of_row_one_running (by rw [row0]) h2
  obtain ⟨hdecode, hentry⟩ := decode_of_lookupRow hr
  have row1 := runTick_row_one (canRun_of_runRow_running h2) (by rw [row0]) (by rw [row0, hstride]) hw hentry
  have row2 : runTicks 3 s = _ := runTick_row_two (canRun_of_runRow_running h) (by rw [row1]) (by rw [row1])
  refine ⟨r.build (rbField w) (r1Field w) (f2Field w), fetch_of_instrAt h ?_, ?_⟩
  · rw [row2, row1]
    exact instrAt_of_decode hw hdecode
  · rw [row2, row1, row0, hstride]

theorem step_returned {s t : State} (hs : s.status = .running) (hrow : s.mpc = 0) (hstride : s.stride = .one)
    (h : step s = .next t) (ht : t.status = .running) : t.Returned := by
  have hb : s.atBoundary = true := by simp [State.atBoundary, hrow, hstride]
  by_cases hfetch : (runTicks 3 s).status = .running
  · obtain ⟨i, hi, hstride3⟩ := exists_fetch_of_running hrow hstride hfetch
    have hexec : step s = exec i (runTicks 3 s) := by simp [step, hs, hb, hi]
    exact exec_returned hstride3 (hexec ▸ h) ht
  · have hended : step s = .next (runTicks 3 s) := by simp [step, hs, hb, fetch_of_ended hfetch]
    cases hended ▸ h
    exact absurd ht hfetch

/-- The next tick after a completed instruction is the first of a fetch (R174). -/
theorem runTick_pc_of_returned {t : State} (h : t.Returned) (ht : t.canRun) : (runTick t).pc = t.pc + 1#16 := by
  obtain ⟨hmpc, hstride, -⟩ := h
  rw [runTick_row_zero ht hmpc hstride]

/-- Settles O27: the last rows by the ROM's text; after an instruction and after a step from a boundary the machine has
returned to row 0, where the next tick runs row 0. -/
theorem completedInstructionReturnsToFetch : Obligations.CompletedInstructionReturnsToFetch := by
  have hleaves : ∀ t : State, t.status = .running → t.Returned → t.mpc = 0 ∧ t.stride = .one ∧ t.mpcSel = .zero ∧
      (t.tick ≠ t.params.tickLimit → (runTick t).pc = t.pc + 1#16) := by
    rintro t ht ⟨hmpc, hstride, hsel⟩
    exact ⟨hmpc, hstride, hsel, fun hlimit => runTick_pc_of_returned ⟨hmpc, hstride, hsel⟩ ⟨ht, hlimit⟩⟩
  exact ⟨by decide, fun _ _ t _ hstride h ht => hleaves t ht (exec_returned hstride h ht),
    fun _ t hs hrow hstride h ht => hleaves t ht (step_returned hs hrow hstride h ht)⟩

end Sys2Proof.Machine
end

section
/-! PROOF. The decisions of the branches (R262-R265) on the wrapped difference of two word values, over all bounds whose
range holds 0 (R267 points 4 and 5). -/

namespace Sys2Proof.Machine

/-! ### The conditions on a difference -/

@[simp] theorem taken_z_iff {d : Int} : taken .z d = true ↔ d = 0 := decide_eq_true_iff

@[simp] theorem taken_nz_iff {d : Int} : taken .nz d = true ↔ d ≠ 0 := decide_eq_true_iff

@[simp] theorem taken_pos_iff {d : Int} : taken .pos d = true ↔ 0 < d := decide_eq_true_iff

@[simp] theorem taken_neg_iff {d : Int} : taken .neg d = true ↔ d < 0 := decide_eq_true_iff

/-! ### The wrapped difference of two word values -/

theorem inRange_ofWidth_zero (width dmemSize tickLimit : Nat) :
    inRange (Params.ofWidth width dmemSize tickLimit) 0 = true := by
  simp [inRange_ofWidth_iff, SignedBits]

theorem wrap_of_inRange {p : Params} {v : Int} (hv : inRange p v = true) : wrap p v = v := by
  obtain ⟨hmin, hmax⟩ := inRange_iff.mp hv
  exact wrap_of_mem_range hmin hmax

/-- The difference of two word values is smaller than the range's size, so only 0 among such differences wraps to 0. -/
theorem wrap_sub_eq_zero_iff {p : Params} {a b : Int} (h0 : inRange p 0 = true) (ha : inRange p a = true)
    (hb : inRange p b = true) : wrap p (a - b) = 0 ↔ a = b := by
  rw [inRange_iff] at ha hb
  obtain ⟨hmin, hmax⟩ := inRange_iff.mp h0
  have hlt : |a - b| < p.maxNumber - p.minNumber + 1 := abs_lt.mpr (by omega)
  rw [wrap_eq_iff (hmin.trans hmax), sub_zero, ← sub_eq_zero (a := a)]
  exact ⟨fun ⟨_, _, hdvd⟩ => Int.eq_zero_of_abs_lt_dvd hdvd hlt, fun h => ⟨hmin, hmax, h ▸ dvd_zero _⟩⟩

/-- A difference above the range wraps once, downwards. -/
theorem wrap_sub_of_maxNumber_lt {p : Params} {a b : Int} (h0 : inRange p 0 = true) (ha : inRange p a = true)
    (hb : inRange p b = true) (h : p.maxNumber < a - b) :
    wrap p (a - b) = a - b - (p.maxNumber - p.minNumber + 1) := by
  rw [inRange_iff] at ha hb
  obtain ⟨hmin, hmax⟩ := inRange_iff.mp h0
  exact (wrap_eq_iff (hmin.trans hmax)).mpr ⟨by omega, by omega, by rw [sub_sub_cancel]⟩

/-- A difference below the range wraps once, upwards. -/
theorem wrap_sub_of_lt_minNumber {p : Params} {a b : Int} (h0 : inRange p 0 = true) (ha : inRange p a = true)
    (hb : inRange p b = true) (h : a - b < p.minNumber) :
    wrap p (a - b) = a - b + (p.maxNumber - p.minNumber + 1) := by
  rw [inRange_iff] at ha hb
  obtain ⟨hmin, hmax⟩ := inRange_iff.mp h0
  exact (wrap_eq_iff (hmin.trans hmax)).mpr ⟨by omega, by omega, by rw [sub_add_cancel_left, dvd_neg]⟩

/-- When the difference overflows, its wrapped value has the opposite sign. -/
theorem wrap_sub_opposite_of_overflow {p : Params} {a b : Int} (h0 : inRange p 0 = true) (ha : inRange p a = true)
    (hb : inRange p b = true) (h : inRange p (a - b) = false) :
    b < a ∧ wrap p (a - b) < 0 ∨ a < b ∧ 0 < wrap p (a - b) := by
  have hout : p.maxNumber < a - b ∨ a - b < p.minNumber := by
    rw [← Bool.not_eq_true, inRange_iff] at h
    omega
  obtain hhigh | hlow := hout
  · have hwrap := wrap_sub_of_maxNumber_lt h0 ha hb hhigh
    rw [inRange_iff] at h0 ha hb
    omega
  · have hwrap := wrap_sub_of_lt_minNumber h0 ha hb hlow
    rw [inRange_iff] at h0 ha hb
    omega

/-- Settles O49: only a difference of 0 wraps to 0; a difference in range is its own wrapped value, and one out of range
has a wrapped value of the opposite sign. -/
theorem branchDecisions : Obligations.BranchDecisions := by
  intro width dmemSize tickLimit a b _ ha hb
  have h0 := inRange_ofWidth_zero width dmemSize tickLimit
  have hzero := wrap_sub_eq_zero_iff h0 ha hb
  simp only [taken_z_iff, taken_nz_iff, taken_pos_iff, taken_neg_iff]
  refine ⟨hzero, not_congr hzero, fun hin => ?_, fun hout => ?_⟩
  · rw [wrap_of_inRange hin]
    exact ⟨sub_pos, sub_neg⟩
  · have hopposite := wrap_sub_opposite_of_overflow h0 ha hb hout
    omega

end Sys2Proof.Machine
end

section
/-! PROOF. The premises of a launch (R313): what each asks in the spec's terms, and which launches are accepted. -/

namespace Sys2Proof.Machine

/-! ### What each premise asks -/

theorem heldInRange_iff {p : Params} {v : Option Int} :
    heldInRange p v = true ↔ ∀ x, v = some x → p.minNumber ≤ x ∧ x ≤ p.maxNumber := by
  cases v <;> simp [heldInRange, inRange_iff]

theorem imageLength_holds_iff {l : Launch} :
    premiseHolds l .imageLength = true ↔ 1 ≤ l.image.length ∧ l.image.length ≤ 65535 := by
  simp only [premiseHolds, Bool.and_eq_true, decide_eq_true_eq]

theorem imageWords_holds_iff {l : Launch} :
    premiseHolds l .imageWords = true ↔ ∀ e ∈ l.image, ∃ w, e.word = some w := by
  simp only [premiseHolds, List.all_eq_true, Option.isSome_iff_exists]

theorem dataImageLength_holds_iff {l : Launch} :
    premiseHolds l .dataImageLength = true ↔ (l.dataImage.length : Int) ≤ (l.params.dmemSize : Int) - 2 := by
  rw [premiseHolds, decide_eq_true_eq]
  omega

/-- Premise 4 speaks of the data image, of the input and of the preload, whose values are given by register number. -/
theorem valuesInRange_holds_iff {l : Launch} :
    premiseHolds l .valuesInRange = true ↔
      (∀ v ∈ l.dataImage, l.params.minNumber ≤ v ∧ v ≤ l.params.maxNumber) ∧
      (∀ v ∈ l.input, l.params.minNumber ≤ v ∧ v ≤ l.params.maxNumber) ∧
      ∀ (i : Nat) (h : i < 16) (v : Int), l.preload[i] = some v → l.params.minNumber ≤ v ∧ v ≤ l.params.maxNumber := by
  simp only [premiseHolds, Bool.and_eq_true, List.all_eq_true, inRange_iff, Vector.mem_toList_iff,
    Vector.forall_mem_iff_forall_getElem, heldInRange_iff, and_assoc]

theorem boundsAroundZero_holds_iff {l : Launch} :
    premiseHolds l .boundsAroundZero = true ↔ l.params.minNumber ≤ 0 ∧ 0 ≤ l.params.maxNumber := by
  simp only [premiseHolds, Bool.and_eq_true, decide_eq_true_eq]

theorem dmemSizeAtLeastTwo_holds_iff {l : Launch} :
    premiseHolds l .dmemSizeAtLeastTwo = true ↔ 2 ≤ l.params.dmemSize := by
  rw [premiseHolds, decide_eq_true_eq]

theorem preloadRegisters_holds_iff {l : Launch} :
    premiseHolds l .preloadRegisters = true ↔ l.preload[0] = none := by
  rw [premiseHolds, Option.isNone_iff_eq_none]

/-- All premises hold when each of the seven does. -/
theorem forall_launchPremise_iff {P : LaunchPremise → Prop} :
    (∀ p, P p) ↔ P .imageLength ∧ P .imageWords ∧ P .dataImageLength ∧ P .valuesInRange ∧ P .boundsAroundZero ∧
      P .dmemSizeAtLeastTwo ∧ P .preloadRegisters := by
  constructor
  · exact fun h => ⟨h _, h _, h _, h _, h _, h _, h _⟩
  · rintro ⟨h1, h2, h3, h4, h5, h6, h7⟩ p
    cases p <;> assumption

/-! ### Accepted or refused -/

theorem exists_launch_eq_next_iff {l : Launch} : (∃ s, launch l = .next s) ↔ ∀ p, premiseHolds l p = true := by
  simp only [launch_eq_next_iff, exists_and_left, exists_eq, and_true]

/-- A launch that is not accepted breaks a premise, so it is refused. -/
theorem launch_accepted_or_refused (l : Launch) :
    (∃ s, launch l = .next s) ∨ ∃ p, launch l = .refused (.launchRefused p) := by
  rw [exists_launch_eq_next_iff]
  by_cases hall : ∀ p, premiseHolds l p = true
  · exact .inl hall
  · obtain ⟨p, hp⟩ := not_forall.mp hall
    exact .inr (launch_refused_of_premise (Bool.eq_false_of_not_eq_true hp))

/-! ### The data cells that the data image leaves unset -/

theorem initial_cell (l : Launch) (a : Nat) :
    (Launch.initial l).cell a = if 2 ≤ a then l.dataImage[a - 2]? else none :=
  read_dataCells 2 a l.dataImage

theorem initial_cell_eq_none {l : Launch} {a : Nat} (ha : a < 2 ∨ l.dataImage.length + 2 ≤ a) :
    (Launch.initial l).cell a = none := by
  rw [initial_cell, ite_eq_right_iff]
  exact fun h2 => List.getElem?_eq_none (by omega)

/-- Settles O55: a launch is accepted exactly when all seven premises hold, each of which says what the rule asks; an
accepted launch gives the initial state, which sets no element but those the launch places. -/
theorem launchRefusedExactlyOnABrokenPremise : Obligations.LaunchRefusedExactlyOnABrokenPremise := by
  intro l
  refine ⟨?_, launch_accepted_or_refused l, fun s h => ?_⟩
  · rw [exists_launch_eq_next_iff, forall_launchPremise_iff, imageLength_holds_iff, imageWords_holds_iff,
      dataImageLength_holds_iff, valuesInRange_holds_iff, boundsAroundZero_holds_iff, dmemSizeAtLeastTwo_holds_iff,
      preloadRegisters_holds_iff]
  · obtain ⟨-, rfl⟩ := launch_eq_next_iff.mp h
    exact ⟨rfl, rfl, rfl, rfl, rfl, rfl, rfl, fun i hi hnone => (initial_reg hi l).trans hnone,
      fun _ => initial_cell_eq_none, rfl, rfl, rfl, rfl⟩

end Sys2Proof.Machine
end

section
/-! PROOF. The decoder and the encoder (R90, R93-R96, R98): a word is its opcode, operand bits and FLAG joined; each row of the
decode table builds an instruction with that row's key, and every instruction has a row that builds it. -/

namespace Sys2Proof.Machine

open Laws.KeyOfEncoding (fields_of_parts top_of_parts middle_of_parts last_of_parts)

/-! ### The parts of a word (R90, R92) -/

theorem eq_append_fields (w : InstrWord) : w = opcodeField w ++ oprField w ++ flagField w := by
  have htop : opcodeField w ++ oprField w = w.extractLsb' 1 31 := BitVec.extractLsb'_append_extractLsb'_eq_extractLsb' rfl
  have hword : w.extractLsb' 1 31 ++ flagField w = w.extractLsb' 0 32 :=
    BitVec.extractLsb'_append_extractLsb'_eq_extractLsb' rfl
  rw [htop, hword, BitVec.extractLsb'_eq_self]

/-- The operand register takes the fields of the word apart again (R30). -/
theorem opr_fields_of_word (w : InstrWord) :
    oprRb (oprField w) = rbField w ∧ oprR1 (oprField w) = r1Field w ∧ oprF2 (oprField w) = f2Field w := by
  obtain ⟨-, -, -, -, -, -, -, hfields⟩ := fieldsOfAWord w
  exact hfields

theorem and_parts {a b c : Nat} (x x' : BitVec a) (y y' : BitVec b) (z z' : BitVec c) :
    (x ++ y ++ z) &&& (x' ++ y' ++ z') = (x &&& x') ++ (y &&& y') ++ (z &&& z') := by
  rw [BitVec.and_append, BitVec.and_append]

theorem or_parts {a b c : Nat} (x x' : BitVec a) (y y' : BitVec b) (z z' : BitVec c) :
    (x ++ y ++ z) ||| (x' ++ y' ++ z') = (x ||| x') ++ (y ||| y') ++ (z ||| z') := by
  rw [BitVec.or_append, BitVec.or_append]

/-- The parts of an encoding are the instruction's own (R90). -/
theorem encode_fields (opc : OpcodeNumbers) (i : Instr) :
    opcodeField (encode opc i) = opc.number i.opcode ∧ flagField (encode opc i) = i.flag ∧
      oprField (encode opc i) = i.operands :=
  fields_of_parts ..

/-- The mask of the decode table, part by part. -/
theorem keyMask_eq_append : 0xFE000001#32 = BitVec.allOnes 7 ++ 0#24 ++ BitVec.allOnes 1 := by decide

/-- The mask of the decode table keeps the opcode and FLAG. -/
theorem and_keyMask (w : InstrWord) : w &&& 0xFE000001#32 = opcodeField w ++ 0#24 ++ flagField w := by
  conv_lhs => rw [eq_append_fields w, keyMask_eq_append]
  rw [and_parts, BitVec.and_allOnes, BitVec.and_zero, BitVec.and_allOnes]

/-- A word under the mask of the key and of an instruction's used fields (R93). -/
theorem and_usedMask (w : InstrWord) (m : BitVec 24) :
    w &&& (0xFE000001#32 ||| (0#7 ++ m ++ 0#1)) = opcodeField w ++ (oprField w &&& m) ++ flagField w := by
  conv_lhs => rw [eq_append_fields w, keyMask_eq_append]
  rw [or_parts, and_parts, BitVec.or_zero, BitVec.zero_or, BitVec.or_zero, BitVec.and_allOnes, BitVec.and_allOnes]

theorem key_eq_of_append_eq {a b : BitVec 7} {f g : BitVec 1} (h : a ++ 0#24 ++ f = b ++ 0#24 ++ g) : a = b ∧ f = g := by
  obtain ⟨ha, hf, -⟩ := fields_of_parts a 0#24 f
  obtain ⟨hb, hg, -⟩ := fields_of_parts b 0#24 g
  exact ⟨by rw [← ha, h, hb], by rw [← hf, h, hg]⟩

/-! ### The rows of the decode table (R95) -/

@[simp] theorem oprRb_append (rb r1 : RegIdx) (f2 : BitVec 16) : oprRb (rb ++ r1 ++ f2) = rb := top_of_parts ..

@[simp] theorem oprR1_append (rb r1 : RegIdx) (f2 : BitVec 16) : oprR1 (rb ++ r1 ++ f2) = r1 := middle_of_parts ..

@[simp] theorem oprF2_append (rb r1 : RegIdx) (f2 : BitVec 16) : oprF2 (rb ++ r1 ++ f2) = f2 := last_of_parts ..

/-- What a row builds has the row's key and entry line. -/
theorem key_of_build {r : DecodeRow} (hr : r ∈ decodeTable) (rb r1 : RegIdx) (f2 : BitVec 16) :
    (r.build rb r1 f2).opcode = r.opcode ∧ (r.build rb r1 f2).flag = r.flag ∧
      (r.build rb r1 f2).entryLine = r.entry := by
  fin_cases hr <;> exact ⟨rfl, rfl, rfl⟩

/-- What a row builds has the operand bits that its form uses, the others 0. -/
theorem operands_of_build {r : DecodeRow} (hr : r ∈ decodeTable) (rb r1 : RegIdx) (f2 : BitVec 16) :
    (r.build rb r1 f2).operands = (rb ++ r1 ++ f2) &&& (r.build rb r1 f2).usedMask := by
  have hnone : 0#24 = 0#4 ++ 0#4 ++ 0#16 := rfl
  have hall : 0xFFFFFF#24 = BitVec.allOnes 4 ++ BitVec.allOnes 4 ++ BitVec.allOnes 16 := rfl
  have hregisters : 0xFF0000#24 = BitVec.allOnes 4 ++ BitVec.allOnes 4 ++ 0#16 := rfl
  have haddress : 0xF0FFFF#24 = BitVec.allOnes 4 ++ 0#4 ++ BitVec.allOnes 16 := rfl
  have htarget : 0x00FFFF#24 = 0#4 ++ 0#4 ++ BitVec.allOnes 16 := rfl
  fin_cases hr
  all_goals
    simp only [Instr.operands, Instr.usedMask, hnone, hall, hregisters, haddress, htarget]
    rw [and_parts]
    simp only [BitVec.and_allOnes, BitVec.and_zero]

/-- Every instruction is what its row builds from its own operand bits. -/
theorem exists_row_of_instr (i : Instr) :
    ∃ r ∈ decodeTable, r.opcode = i.opcode ∧ r.flag = i.flag ∧
      r.build (oprRb i.operands) (oprR1 i.operands) (oprF2 i.operands) = i := by
  have hrow : ∃ r, lookupRow .listed (OpcodeNumbers.listed.number i.opcode) i.flag = some r ∧ r.opcode = i.opcode ∧
      r.flag = i.flag ∧ r.build (oprRb i.operands) (oprR1 i.operands) (oprF2 i.operands) = i := by
    cases i <;> exact ⟨_, rfl, rfl, rfl, by
      simp only [Instr.operands, oprRb_append, oprR1_append, oprF2_append]⟩
  obtain ⟨r, hr, h⟩ := hrow
  exact ⟨r, (mem_of_lookupRow hr).1, h⟩

/-! ### The decoder (R96) -/

theorem lookupRow_of_key {opc : OpcodeNumbers} {w : InstrWord} {r : DecodeRow} (hopc : opc.Distinct) (hr : r ∈ decodeTable)
    (hop : opcodeField w = opc.number r.opcode) (hflag : flagField w = r.flag) :
    lookupRow opc (opcodeField w) (flagField w) = some r := by
  rw [hop, hflag, lookupRow_of_mem hopc hr]

/-- A word that decodes has a row in the table, which builds its instruction. -/
theorem exists_row_of_decode {opc : OpcodeNumbers} {w : InstrWord} {i : Instr} (h : decode opc w = .ok i) :
    ∃ r, lookupRow opc (opcodeField w) (flagField w) = some r ∧ r.build (rbField w) (r1Field w) (f2Field w) = i := by
  cases hr : lookupRow opc (opcodeField w) (flagField w) with
  | none => rw [(decode_of_lookupRow_none hr).1] at h; cases h
  | some r =>
    rw [(decode_of_lookupRow hr).1] at h
    exact ⟨r, rfl, by injection h⟩

/-- The instruction of a word has the word's opcode number and FLAG, and the entry line that the decoder latches. -/
theorem key_of_decode {opc : OpcodeNumbers} {w : InstrWord} {i : Instr} (h : decode opc w = .ok i) :
    opc.number i.opcode = opcodeField w ∧ i.flag = flagField w ∧ decodeEntry opc w = .ok i.entryLine := by
  obtain ⟨r, hr, rfl⟩ := exists_row_of_decode h
  obtain ⟨hmem, hop, hflag⟩ := mem_of_lookupRow hr
  obtain ⟨hop', hflag', hentry⟩ := key_of_build hmem (rbField w) (r1Field w) (f2Field w)
  exact ⟨by rw [hop', hop], by rw [hflag', hflag], by rw [hentry, (decode_of_lookupRow hr).2]⟩

/-- Settles O1: the encoding's key finds the row of the instruction, which builds it from the encoding's operand bits. -/
theorem decodeOfEncodeIsIdentity : Obligations.DecodeOfEncodeIsIdentity := by
  intro opc hopc i
  obtain ⟨r, hr, hop, hflag, hbuild⟩ := exists_row_of_instr i
  obtain ⟨hop', hflag', hopr⟩ := encode_fields opc i
  obtain ⟨hrb, hr1, hf2⟩ := opr_fields_of_word (encode opc i)
  have hfound := lookupRow_of_key hopc hr (hop'.trans (congrArg opc.number hop.symm)) (hflag'.trans hflag.symm)
  rw [(decode_of_lookupRow hfound).1, ← hrb, ← hr1, ← hf2, hopr, hbuild]

/-- Settles O2: the key of the instruction is the word's, and its operand bits are the word's under the used mask. -/
theorem encodeOfDecodeKeepsUsedBits : Obligations.EncodeOfDecodeKeepsUsedBits := by
  intro opc w i h
  obtain ⟨hop, hflag, -⟩ := key_of_decode h
  obtain ⟨r, hr, rfl⟩ := exists_row_of_decode h
  rw [and_usedMask, encode, hop, hflag, operands_of_build (mem_of_lookupRow hr).1, ← oprField_eq_append]

/-! ### The table by match and mask (R95) -/

theorem distinct_listed : OpcodeNumbers.listed.Distinct := by
  intro a b
  cases a <;> cases b <;> decide

/-- The match values are the keys of the rows under the numbers of R94. -/
theorem matchTable_eq : matchTable =
    decodeTable.map fun r => (OpcodeNumbers.listed.number r.opcode ++ 0#24 ++ r.flag, r.entry) := by
  decide

theorem and_keyMask_eq_iff {opc : OpcodeNumbers} {w : InstrWord} {r : DecodeRow} :
    w &&& 0xFE000001#32 = opc.number r.opcode ++ 0#24 ++ r.flag ↔
      opcodeField w = opc.number r.opcode ∧ flagField w = r.flag := by
  rw [and_keyMask]
  exact ⟨key_eq_of_append_eq, fun ⟨hop, hflag⟩ => by rw [hop, hflag]⟩

theorem decode_of_no_key {opc : OpcodeNumbers} {w : InstrWord}
    (h : ∀ r ∈ decodeTable, ¬ (opcodeField w = opc.number r.opcode ∧ flagField w = r.flag)) :
    decode opc w = .error (.notInTable (opcodeField w) (flagField w)) ∧
      decodeEntry opc w = .error (.notInTable (opcodeField w) (flagField w)) :=
  decode_of_lookupRow_none (lookupRow_eq_none_iff.mpr fun r hr hop hflag => h r hr ⟨hop.symm, hflag.symm⟩)

/-- Settles O3: a match value is the key of its row; a key is found exactly where a row has it. -/
theorem decodeTableByMatchAndMask : Obligations.DecodeTableByMatchAndMask := by
  have hfound : ∀ (opc : OpcodeNumbers) (w : InstrWord) (r : DecodeRow), opc.Distinct → r ∈ decodeTable →
      opcodeField w = opc.number r.opcode → flagField w = r.flag → decodeEntry opc w = .ok r.entry :=
    fun opc w r hopc hr hop hflag => (decode_of_lookupRow (lookupRow_of_key hopc hr hop hflag)).2
  refine ⟨fun w => ⟨fun m row hm h => ?_, fun h => ?_⟩, hfound, fun opc w h => ?_, fun opc w i h => ?_⟩
  · rw [matchTable_eq] at hm
    obtain ⟨r, hr, heq⟩ := List.mem_map.mp hm
    cases heq
    obtain ⟨hop, hflag⟩ := and_keyMask_eq_iff.mp h
    exact hfound _ w r distinct_listed hr hop hflag
  · refine (decode_of_no_key fun r hr hkey => ?_).symm
    exact h _ _ (matchTable_eq ▸ List.mem_map_of_mem hr) (and_keyMask_eq_iff.mpr hkey)
  · exact (decode_of_no_key fun r hr hkey => h r hr hkey.1 hkey.2).2
  · obtain ⟨hop, hflag, hentry⟩ := key_of_decode h
    obtain ⟨hop', hflag', -⟩ := encode_fields opc i
    exact ⟨hentry, by rw [and_keyMask, and_keyMask, hop', hflag', hop, hflag]⟩

end Sys2Proof.Machine
end

section
/-! PROOF. The rows of the ALU instructions (R220-R227): each row by what its signals find, in order; what the instruction does
on every outcome is then one case analysis. -/

namespace Sys2Proof.Machine

/-! ### Running a row (R170, R172) -/

theorem ne_halted_of_canRun {s : State} (h : s.canRun) : s.status ≠ .halted := by simp [h.1]

theorem runRow_of_canRun {s : State} (h : s.canRun) (row : RomRow) (ops : List RowOp) :
    runRow row ops s = runOps row ops s :=
  runRow_of_running h.1 h.2 row ops

/-- A tick finds an ended run, or no budget, or runs its row. -/
theorem runRow_cases {P : State → Prop} {row : RomRow} {ops : List RowOp} {s : State}
    (hended : s.status ≠ .running → P s)
    (hlimit : s.status = .running → s.tick = s.params.tickLimit → P { s with status := .timeout })
    (hrun : s.canRun → P (runRow row ops s)) : P (runRow row ops s) := by
  by_cases hs : s.status = .running
  · by_cases ht : s.tick = s.params.tickLimit
    · exact runRow_of_limit hs ht row ops ▸ hlimit hs ht
    · exact hrun ⟨hs, ht⟩
  · exact (runRow_of_ended hs row ops).symm ▸ hended hs

/-! ### The immediate form -/

section Immediate

variable {row : RomRow} {op : AluOp} {rd rs1 : RegIdx} {f2 : BitVec 16} {s : State}

theorem aluImmediate_of_left_none (h : s.canRun) (ha : s.reg rs1 = none) :
    aluImmediate row op rd rs1 f2 s = takeFault row (.selLeftOp 1) (.uninitialisedRead (.register rs1)) s := by
  rw [aluImmediate, runRow_of_canRun h, runOps_cons_raised (selLeft_of_none ha)]

theorem aluImmediate_eq_aluTail {a : Int} (h : s.canRun) (ha : s.reg rs1 = some a) :
    aluImmediate row op rd rs1 f2 s =
      runOps row (aluTail row op rd) { s with left := some a, right := some (immExt s.params f2) } := by
  have hn := ne_halted_of_canRun h
  rw [aluImmediate, runRow_of_canRun h, runOps_cons_done (selLeft_of_reg ha) (by exact hn),
    runOps_cons_done (selRightNum_eq _ _) (by exact hn)]

theorem aluImmediate_zero {a : Int} (h : s.canRun) (ha : s.reg rs1 = some a) :
    aluImmediate row op 0#4 rs1 f2 s = takeFault row (.latchOp 0) (.invalidRegisterIndex 0 .immutable) { s with
      left := some a
      right := some (immExt s.params f2)
      aluResult := some (aluValue s.params op a (immExt s.params f2))
      flags := some (flagsOf (aluValue s.params op a (immExt s.params f2)))
      dataSel := .alu } := by
  have hn := ne_halted_of_canRun h
  rw [aluImmediate_eq_aluTail h ha, aluTail_zero (by exact hn) row op rfl rfl]

theorem aluImmediate_run {a : Int} (h : s.canRun) (hd : rd ≠ 0#4) (ha : s.reg rs1 = some a) :
    aluImmediate row op rd rs1 f2 s = { s.setReg rd (aluValue s.params op a (immExt s.params f2)) with
      left := some a
      right := some (immExt s.params f2)
      aluResult := some (aluValue s.params op a (immExt s.params f2))
      flags := some (flagsOf (aluValue s.params op a (immExt s.params f2)))
      dataSel := .alu
      mpcSel := .zero
      mpc := 0
      tick := s.tick + 1 } := by
  have hn := ne_halted_of_canRun h
  rw [aluImmediate_eq_aluTail h ha, aluTail_run (by exact hn) row op rfl rfl hd]
  simp only [setReg_of_ne hd]

/-- Everything an immediate form can do. -/
theorem aluImmediate_cases {P : State → Prop}
    (hended : s.status ≠ .running → P s)
    (hlimit : s.status = .running → s.tick = s.params.tickLimit → P { s with status := .timeout })
    (hnone : s.canRun → s.reg rs1 = none →
      P (takeFault row (.selLeftOp 1) (.uninitialisedRead (.register rs1)) s))
    (hzero : ∀ a, s.canRun → s.reg rs1 = some a → rd = 0#4 →
      P (takeFault row (.latchOp 0) (.invalidRegisterIndex 0 .immutable) { s with
        left := some a
        right := some (immExt s.params f2)
        aluResult := some (aluValue s.params op a (immExt s.params f2))
        flags := some (flagsOf (aluValue s.params op a (immExt s.params f2)))
        dataSel := .alu }))
    (hrun : ∀ a, s.canRun → s.reg rs1 = some a → rd ≠ 0#4 →
      P { s.setReg rd (aluValue s.params op a (immExt s.params f2)) with
        left := some a
        right := some (immExt s.params f2)
        aluResult := some (aluValue s.params op a (immExt s.params f2))
        flags := some (flagsOf (aluValue s.params op a (immExt s.params f2)))
        dataSel := .alu
        mpcSel := .zero
        mpc := 0
        tick := s.tick + 1 }) : P (aluImmediate row op rd rs1 f2 s) := by
  refine runRow_cases hended hlimit fun h => ?_
  change P (aluImmediate row op rd rs1 f2 s)
  cases ha : s.reg rs1 with
  | none => exact aluImmediate_of_left_none h ha ▸ hnone h ha
  | some a =>
    by_cases hd : rd = 0#4
    · subst hd
      exact aluImmediate_zero h ha ▸ hzero a h ha rfl
    · exact aluImmediate_run h hd ha ▸ hrun a h ha hd

end Immediate

/-! ### The register form -/

section Register

variable {row : RomRow} {op : AluOp} {rd rs1 : RegIdx} {f2 : BitVec 16} {s : State}

theorem aluRegister_of_left_none (h : s.canRun) (ha : s.reg rs1 = none) :
    aluRegister row op rd rs1 f2 s = takeFault row (.selLeftOp 1) (.uninitialisedRead (.register rs1)) s := by
  rw [aluRegister, runRow_of_canRun h, runOps_cons_raised (selLeft_of_none ha)]

theorem aluRegister_of_index_gt {a : Int} (h : s.canRun) (ha : s.reg rs1 = some a) (hf : 15 < f2.toNat) :
    aluRegister row op rd rs1 f2 s =
      takeFault row (.selRightOp 2) (.invalidRegisterIndex f2.toNat .outOfRange) { s with left := some a } := by
  rw [aluRegister, runRow_of_canRun h, runOps_cons_done (selLeft_of_reg ha) (by exact ne_halted_of_canRun h),
    runOps_cons_raised (withIndex_of_lt hf _ _)]

/-- With F2 at most 15 the right select is that of the register F2. -/
theorem aluRegister_eq_runOps {a : Int} (h : s.canRun) (ha : s.reg rs1 = some a) (hf : f2.toNat ≤ 15) :
    aluRegister row op rd rs1 f2 s =
      runOps row (⟨.selRightOp 2, selRight (BitVec.ofNat 4 f2.toNat)⟩ :: aluTail row op rd) { s with left := some a } := by
  rw [aluRegister, runRow_of_canRun h, runOps_cons_done (selLeft_of_reg ha) (by exact ne_halted_of_canRun h)]
  simp only [runOps, withIndex_of_le hf]

theorem aluRegister_of_right_none {a : Int} (h : s.canRun) (ha : s.reg rs1 = some a) (hf : f2.toNat ≤ 15)
    (hb : s.reg (BitVec.ofNat 4 f2.toNat) = none) :
    aluRegister row op rd rs1 f2 s = takeFault row (.selRightOp 2)
      (.uninitialisedRead (.register (BitVec.ofNat 4 f2.toNat))) { s with left := some a } := by
  rw [aluRegister_eq_runOps h ha hf, runOps_cons_raised (selRight_of_none (by exact hb))]

theorem aluRegister_eq_aluTail {a b : Int} (h : s.canRun) (ha : s.reg rs1 = some a) (hf : f2.toNat ≤ 15)
    (hb : s.reg (BitVec.ofNat 4 f2.toNat) = some b) :
    aluRegister row op rd rs1 f2 s = runOps row (aluTail row op rd) { s with left := some a, right := some b } := by
  rw [aluRegister_eq_runOps h ha hf, runOps_cons_done (selRight_of_reg (by exact hb)) (by exact ne_halted_of_canRun h)]

theorem aluRegister_zero {a b : Int} (h : s.canRun) (ha : s.reg rs1 = some a) (hf : f2.toNat ≤ 15)
    (hb : s.reg (BitVec.ofNat 4 f2.toNat) = some b) :
    aluRegister row op 0#4 rs1 f2 s = takeFault row (.latchOp 0) (.invalidRegisterIndex 0 .immutable) { s with
      left := some a
      right := some b
      aluResult := some (aluValue s.params op a b)
      flags := some (flagsOf (aluValue s.params op a b))
      dataSel := .alu } := by
  have hn := ne_halted_of_canRun h
  rw [aluRegister_eq_aluTail h ha hf hb, aluTail_zero (by exact hn) row op rfl rfl]

theorem aluRegister_run {a b : Int} (h : s.canRun) (hd : rd ≠ 0#4) (ha : s.reg rs1 = some a) (hf : f2.toNat ≤ 15)
    (hb : s.reg (BitVec.ofNat 4 f2.toNat) = some b) :
    aluRegister row op rd rs1 f2 s = { s.setReg rd (aluValue s.params op a b) with
      left := some a
      right := some b
      aluResult := some (aluValue s.params op a b)
      flags := some (flagsOf (aluValue s.params op a b))
      dataSel := .alu
      mpcSel := .zero
      mpc := 0
      tick := s.tick + 1 } := by
  have hn := ne_halted_of_canRun h
  rw [aluRegister_eq_aluTail h ha hf hb, aluTail_run (by exact hn) row op rfl rfl hd]
  simp only [setReg_of_ne hd]

/-- Everything a register form can do. -/
theorem aluRegister_cases {P : State → Prop}
    (hended : s.status ≠ .running → P s)
    (hlimit : s.status = .running → s.tick = s.params.tickLimit → P { s with status := .timeout })
    (hleft : s.canRun → s.reg rs1 = none →
      P (takeFault row (.selLeftOp 1) (.uninitialisedRead (.register rs1)) s))
    (hindex : ∀ a, s.canRun → 15 < f2.toNat →
      P (takeFault row (.selRightOp 2) (.invalidRegisterIndex f2.toNat .outOfRange) { s with left := some a }))
    (hright : ∀ a, s.canRun → s.reg (BitVec.ofNat 4 f2.toNat) = none →
      P (takeFault row (.selRightOp 2) (.uninitialisedRead (.register (BitVec.ofNat 4 f2.toNat)))
        { s with left := some a }))
    (hzero : ∀ a b, s.canRun → rd = 0#4 →
      P (takeFault row (.latchOp 0) (.invalidRegisterIndex 0 .immutable) { s with
        left := some a
        right := some b
        aluResult := some (aluValue s.params op a b)
        flags := some (flagsOf (aluValue s.params op a b))
        dataSel := .alu }))
    (hrun : ∀ a b, s.canRun → rd ≠ 0#4 →
      P { s.setReg rd (aluValue s.params op a b) with
        left := some a
        right := some b
        aluResult := some (aluValue s.params op a b)
        flags := some (flagsOf (aluValue s.params op a b))
        dataSel := .alu
        mpcSel := .zero
        mpc := 0
        tick := s.tick + 1 }) : P (aluRegister row op rd rs1 f2 s) := by
  refine runRow_cases hended hlimit fun h => ?_
  change P (aluRegister row op rd rs1 f2 s)
  cases ha : s.reg rs1 with
  | none => exact aluRegister_of_left_none h ha ▸ hleft h ha
  | some a =>
    rcases Nat.lt_or_ge 15 f2.toNat with hf | hf
    · exact aluRegister_of_index_gt h ha hf ▸ hindex a h hf
    cases hb : s.reg (BitVec.ofNat 4 f2.toNat) with
    | none => exact aluRegister_of_right_none h ha hf hb ▸ hright a h hb
    | some b =>
      by_cases hd : rd = 0#4
      · subst hd
        exact aluRegister_zero h ha hf hb ▸ hzero a b h rfl
      · exact aluRegister_run h hd ha hf hb ▸ hrun a b h hd

end Register

/-! ### The ALU instructions -/

theorem exec_aluRegInstr (op : AluOp) (rd rs1 : RegIdx) (f2 : BitVec 16) (s : State) :
    exec (aluRegInstr op rd rs1 f2) s = .next (aluRegister (aluRegInstr op rd rs1 f2).entryLine op rd rs1 f2 s) := by
  cases op <;> rfl

theorem exec_aluImmInstr (op : AluOp) (rd rs1 : RegIdx) (f2 : BitVec 16) (s : State) :
    exec (aluImmInstr op rd rs1 f2) s = .next (aluImmediate (aluImmInstr op rd rs1 f2).entryLine op rd rs1 f2 s) := by
  cases op <;> rfl

/-- Settles O36: the row selects both registers, and its tail runs on the two wires. -/
theorem aluRegisterFormRuns : Obligations.AluRegisterFormRuns := by
  intro op rd rs1 f2 s a b h hd hf ha hb
  rw [exec_aluRegInstr, aluRegister_run h hd ha hf hb]
  rfl

/-- Settles O37: the row selects the register and the extended field, and its tail runs on the two wires. -/
theorem aluImmediateFormRuns : Obligations.AluImmediateFormRuns := by
  intro op rd rs1 f2 s a h hd ha
  rw [exec_aluImmInstr, aluImmediate_run h hd ha]
  rfl

/-- Settles O38: each fault is that of the first signal of the row that does not complete. -/
theorem aluFaults : Obligations.AluFaults := by
  refine ⟨fun op rd rs1 f2 s h => ?_, fun op rd rs1 f2 s h => ?_⟩
  · rw [exec_aluRegInstr]
    refine ⟨fun ha => ?_, fun a ha hf => ?_, fun a ha hf hb => ?_, fun a b ha hf hb hd => ?_⟩
    · rw [aluRegister_of_left_none h ha]
    · rw [aluRegister_of_index_gt h ha hf]
    · rw [aluRegister_of_right_none h ha hf hb]
    · subst hd
      rw [aluRegister_zero h ha hf hb]
      rfl
  · rw [exec_aluImmInstr]
    refine ⟨fun ha => ?_, fun a ha hd => ?_⟩
    · rw [aluImmediate_of_left_none h ha]
    · subst hd
      rw [aluImmediate_zero h ha]
      rfl

/-! ### The frame of the ALU instructions (R22, R127) -/

/-- `t` differs from `s` at most in the elements that an ALU row writes, and of the registers in `rd`. -/
def AluKeeps (rd : RegIdx) (s t : State) : Prop :=
  (∀ j, j ≠ rd → t.reg j = s.reg j) ∧
  { t with
    regs := s.regs, left := s.left, right := s.right, aluResult := s.aluResult, flags := s.flags, dataSel := s.dataSel,
    mpcSel := s.mpcSel, mpc := s.mpc, tick := s.tick, status := s.status } = s

theorem aluKeeps_setReg {rd : RegIdx} (hd : rd ≠ 0#4) (s : State) (v : Int) : AluKeeps rd s (s.setReg rd v) :=
  ⟨fun _ hj => reg_setReg_of_ne hj s v, by rw [setReg_of_ne hd]⟩

theorem aluRegister_keeps (row : RomRow) (op : AluOp) (rd rs1 : RegIdx) (f2 : BitVec 16) (s : State) :
    AluKeeps rd s (aluRegister row op rd rs1 f2 s) := by
  apply aluRegister_cases
  case hrun => exact fun a b _ hd => aluKeeps_setReg hd s (aluValue s.params op a b)
  all_goals
    intros
    exact ⟨fun _ _ => rfl, rfl⟩

theorem aluImmediate_keeps (row : RomRow) (op : AluOp) (rd rs1 : RegIdx) (f2 : BitVec 16) (s : State) :
    AluKeeps rd s (aluImmediate row op rd rs1 f2 s) := by
  apply aluImmediate_cases
  case hrun => exact fun a _ _ hd => aluKeeps_setReg hd s (aluValue s.params op a (immExt s.params f2))
  all_goals
    intros
    exact ⟨fun _ _ => rfl, rfl⟩

/-- Settles O39: every outcome of either form differs from the state before in what the row writes only. -/
theorem aluFrame : Obligations.AluFrame := by
  intro op rd rs1 f2 s t h
  have hkeeps : AluKeeps rd s t := by
    rw [exec_aluRegInstr, exec_aluImmInstr] at h
    rcases h with ⟨⟨⟩⟩ | ⟨⟨⟩⟩
    · exact aluRegister_keeps ..
    · exact aluImmediate_keeps ..
  obtain ⟨hreg, hrest⟩ := hkeeps
  have kept {α : Type} (f : State → α) := congrArg f hrest
  exact ⟨hreg, fun a => kept (State.cell · a), kept State.dmem, kept State.memOut, kept State.pc, kept State.ir,
    kept State.opr, kept State.pcSel, kept State.stride, kept State.icount, kept State.imem, kept State.inbuf,
    kept State.outbuf, kept State.params⟩

end Sys2Proof.Machine
end

section
/-! PROOF. The rows of LOAD_WORD and WRITE_WORD (R240-R243): both forms share everything after the address select, so each row is
described from an address on the left wire on. -/

namespace Sys2Proof.Machine

/-- A row that starts with a left select of a register finds no value there, or goes on with it on the wire. -/
theorem selLeftRow_cases {P : State → Prop} {row : RomRow} {e : RomEntry} {i : RegIdx} {ops : List RowOp} {s : State}
    (hended : s.status ≠ .running → P s)
    (hlimit : s.status = .running → s.tick = s.params.tickLimit → P { s with status := .timeout })
    (hnone : s.canRun → s.reg i = none → P (takeFault row e (.uninitialisedRead (.register i)) s))
    (hsome : ∀ a, s.reg i = some a → P (runRow row (⟨e, selLeft i⟩ :: ops) s)) :
    P (runRow row (⟨e, selLeft i⟩ :: ops) s) := by
  cases ha : s.reg i with
  | none =>
    refine runRow_cases hended hlimit fun h => ?_
    rw [runRow_of_canRun h, runOps_cons_raised (selLeft_of_none ha)]
    exact hnone h ha
  | some a => exact hsome a ha

/-! ### LOAD_WORD -/

section Load

variable {row : RomRow} {e : RomEntry} {sel : State → SignalResult} {rd : RegIdx} {s u : State} {a v : Int}

theorem loadRow_eq_loadTail (h : s.canRun) (hsel : sel s = .done { s with left := some a }) :
    runRow row (⟨e, sel⟩ :: loadTail row rd) s = runOps row (loadTail row rd) { s with left := some a } := by
  rw [runRow_of_canRun h, runOps_cons_done hsel (by exact ne_halted_of_canRun h)]

theorem loadRow_error {k : Fault} (h : s.canRun) (hsel : sel s = .done { s with left := some a })
    (hm : memRead a s = .error k) :
    runRow row (⟨e, sel⟩ :: loadTail row rd) s = takeFault row (.signal .memRead) k { s with left := some a } := by
  rw [loadRow_eq_loadTail h hsel]
  exact loadTail_error row rd rfl (by rw [memRead_left, hm])

theorem loadRow_zero (h : s.canRun) (hsel : sel s = .done { s with left := some a }) (hm : memRead a s = .ok (v, u)) :
    runRow row (⟨e, sel⟩ :: loadTail row 0#4) s =
      takeFault row (.latchOp 0) (.invalidRegisterIndex 0 .immutable)
        { s with left := some a, inbuf := u.inbuf, memOut := some v, dataSel := .mem } := by
  rw [loadRow_eq_loadTail h hsel, loadTail_zero (u := { u with left := some a }) (by exact ne_halted_of_canRun h) row rfl
    (by rw [memRead_left, hm])]

theorem loadRow_run (h : s.canRun) (hd : rd ≠ 0#4) (hsel : sel s = .done { s with left := some a })
    (hm : memRead a s = .ok (v, u)) :
    runRow row (⟨e, sel⟩ :: loadTail row rd) s = { s.setReg rd v with
      left := some a, inbuf := u.inbuf, memOut := some v, dataSel := .mem, mpcSel := .zero, mpc := 0,
      tick := s.tick + 1 } := by
  rw [loadRow_eq_loadTail h hsel, loadTail_run (u := { u with left := some a }) (by exact ne_halted_of_canRun h) row rfl
    (by rw [memRead_left, hm]) hd]
  simp only [setReg_of_ne hd]

/-- Everything a load can do once it has an address. -/
theorem loadRow_cases {P : State → Prop} (hsel : sel s = .done { s with left := some a })
    (hended : s.status ≠ .running → P s)
    (hlimit : s.status = .running → s.tick = s.params.tickLimit → P { s with status := .timeout })
    (herror : ∀ k, s.canRun → memRead a s = .error k →
      P (takeFault row (.signal .memRead) k { s with left := some a }))
    (hzero : ∀ v u, s.canRun → memRead a s = .ok (v, u) → rd = 0#4 →
      P (takeFault row (.latchOp 0) (.invalidRegisterIndex 0 .immutable)
        { s with left := some a, inbuf := u.inbuf, memOut := some v, dataSel := .mem }))
    (hrun : ∀ v u, s.canRun → memRead a s = .ok (v, u) → rd ≠ 0#4 →
      P { s.setReg rd v with
        left := some a, inbuf := u.inbuf, memOut := some v, dataSel := .mem, mpcSel := .zero, mpc := 0,
        tick := s.tick + 1 }) : P (runRow row (⟨e, sel⟩ :: loadTail row rd) s) := by
  refine runRow_cases hended hlimit fun h => ?_
  cases hm : memRead a s with
  | error k => exact loadRow_error h hsel hm ▸ herror k h hm
  | ok r =>
    obtain ⟨v, u⟩ := r
    by_cases hd : rd = 0#4
    · subst hd
      exact loadRow_zero h hsel hm ▸ hzero v u h hm rfl
    · exact loadRow_run h hd hsel hm ▸ hrun v u h hm hd

end Load

theorem exec_loadReg_of_left_none {rd ra : RegIdx} {s : State} (h : s.canRun) (ha : s.reg ra = none) :
    exec (.loadReg rd ra) s = .next (takeFault 13 (.selLeftOp 1) (.uninitialisedRead (.register ra)) s) := by
  rw [exec, execLoadReg, runRow_of_canRun h, runOps_cons_raised (selLeft_of_none ha)]

theorem exec_loadReg_run {rd ra : RegIdx} {s u : State} {a v : Int} (h : s.canRun) (hd : rd ≠ 0#4)
    (ha : s.reg ra = some a) (hm : memRead a s = .ok (v, u)) :
    exec (.loadReg rd ra) s = .next { s.setReg rd v with
      left := some a, inbuf := u.inbuf, memOut := some v, dataSel := .mem, mpcSel := .zero, mpc := 0,
      tick := s.tick + 1 } := by
  rw [exec, execLoadReg, loadRow_run h hd (selLeft_of_reg ha) hm]

theorem exec_loadAddr_run {rd : RegIdx} {f2 : BitVec 16} {s u : State} {v : Int} (h : s.canRun) (hd : rd ≠ 0#4)
    (hm : memRead f2.toNat s = .ok (v, u)) :
    exec (.loadAddr rd f2) s = .next { s.setReg rd v with
      left := some f2.toNat, inbuf := u.inbuf, memOut := some v, dataSel := .mem, mpcSel := .zero, mpc := 0,
      tick := s.tick + 1 } := by
  rw [exec, execLoadAddr, loadRow_run h hd (selLeftAddr_eq f2 s) hm]

/-- Settles O40: the read of a general cell answers its value and the state it found. -/
theorem loadWordOfACellRuns : Obligations.LoadWordOfACellRuns := by
  refine ⟨fun rd ra s a v h hd ha h2 hsize hc => ?_, fun rd f2 s v h hd h2 hsize hc => ?_⟩
  · rw [exec_loadReg_run h hd ha (memRead_cell h2 hsize hc), setReg_of_ne hd]
  · have hm : memRead f2.toNat s = .ok (v, s) := memRead_cell (by omega) (by omega) (by simpa using hc)
    rw [exec_loadAddr_run h hd hm, setReg_of_ne hd]

/-- Settles O41: the read of cell 0 answers the head of the input and leaves the rest. -/
theorem loadWordOfInputRuns : Obligations.LoadWordOfInputRuns := by
  refine ⟨fun rd ra s v rest h hd ha hb => ?_, fun rd s v rest h hd hb => ?_⟩
  · rw [exec_loadReg_run h hd ha (memRead_zero_cons hb)]
  · rw [exec_loadAddr_run (f2 := 0#16) h hd (by exact memRead_zero_cons hb)]
    rfl

/-- Settles O42: each fault is that of the first signal of the row that does not complete. -/
theorem loadWordFaults : Obligations.LoadWordFaults := by
  refine ⟨fun rd ra s h => ⟨exec_loadReg_of_left_none h, fun a k ha hm => ?_, fun a v u ha hm hd => ?_⟩,
    fun rd f2 s h => ⟨fun k hm => ?_, fun v u hm hd => ?_⟩⟩
  · rw [exec, execLoadReg, loadRow_error h (selLeft_of_reg ha) hm]
  · rw [exec, execLoadReg, hd, loadRow_zero h (selLeft_of_reg ha) hm]
  · rw [exec, execLoadAddr, loadRow_error h (selLeftAddr_eq f2 s) hm]
  · rw [exec, execLoadAddr, hd, loadRow_zero h (selLeftAddr_eq f2 s) hm]

/-- `t` differs from `s` at most in the elements that a load row writes, of the registers in `rd`, and in the input only
where the address is 0 (R67). -/
def LoadKeeps (rd : RegIdx) (address : Option Int) (s t : State) : Prop :=
  (∀ j, j ≠ rd → t.reg j = s.reg j) ∧ (address ≠ some 0 → t.inbuf = s.inbuf) ∧
  { t with
    regs := s.regs, left := s.left, memOut := s.memOut, inbuf := s.inbuf, dataSel := s.dataSel, mpcSel := s.mpcSel,
    mpc := s.mpc, tick := s.tick, status := s.status } = s

/-- A data read of another address than 0 takes no input. -/
theorem memRead_inbuf {a v : Int} {s u : State} (hm : memRead a s = .ok (v, u)) (ha : some a ≠ some 0) :
    u.inbuf = s.inbuf := by
  obtain ⟨rfl, -, -⟩ | ⟨-, -, -, rfl⟩ := memRead_ok hm
  · exact absurd rfl ha
  · rfl

theorem loadRow_keeps {row : RomRow} {e : RomEntry} {sel : State → SignalResult} {rd : RegIdx} {s : State} {a : Int}
    (hsel : sel s = .done { s with left := some a }) :
    LoadKeeps rd (some a) s (runRow row (⟨e, sel⟩ :: loadTail row rd) s) := by
  apply loadRow_cases hsel
  case hzero => exact fun v u _ hm _ => ⟨fun _ _ => rfl, memRead_inbuf (u := u) hm, rfl⟩
  case hrun =>
    intro v u _ hm hd
    exact ⟨fun _ hj => reg_setReg_of_ne hj s v, memRead_inbuf (u := u) hm, by rw [setReg_of_ne hd]⟩
  all_goals
    intros
    exact ⟨fun _ _ => rfl, fun _ => rfl, rfl⟩

theorem exec_loadReg_keeps {rd ra : RegIdx} {s t : State} (h : exec (.loadReg rd ra) s = .next t) :
    LoadKeeps rd (s.reg ra) s t := by
  cases h
  apply selLeftRow_cases
  case hsome => exact fun a ha => ha ▸ loadRow_keeps (selLeft_of_reg ha)
  all_goals
    intros
    exact ⟨fun _ _ => rfl, fun _ => rfl, rfl⟩

theorem exec_loadAddr_keeps {rd : RegIdx} {f2 : BitVec 16} {s t : State} (h : exec (.loadAddr rd f2) s = .next t) :
    LoadKeeps rd (some f2.toNat) s t := by
  cases h
  exact loadRow_keeps (selLeftAddr_eq f2 s)

/-- Settles O46: every outcome of either form differs from the state before in what the row writes only. -/
theorem loadFrame : Obligations.LoadFrame := by
  intro rd ra f2 s t h
  have hkeeps : ∃ address, LoadKeeps rd address s t := by
    rcases h with h | h
    · exact ⟨_, exec_loadReg_keeps h⟩
    · exact ⟨_, exec_loadAddr_keeps h⟩
  obtain ⟨_, hreg, -, hrest⟩ := hkeeps
  have kept {α : Type} (f : State → α) := congrArg f hrest
  have hinput : exec (.loadAddr rd f2) s = .next t → f2 ≠ 0#16 → t.inbuf = s.inbuf := by
    intro hexec hf2
    refine (exec_loadAddr_keeps hexec).2.1 fun hzero => hf2 (BitVec.eq_of_toNat_eq ?_)
    simpa using hzero
  exact ⟨hreg, fun a => kept (State.cell · a), kept State.dmem, fun hexec => (exec_loadReg_keeps hexec).2.1, hinput,
    kept State.right, kept State.aluResult, kept State.flags, kept State.pc, kept State.ir, kept State.opr,
    kept State.pcSel, kept State.stride, kept State.icount, kept State.imem, kept State.outbuf, kept State.params⟩

/-! ### WRITE_WORD -/

/-- A data write changes at most the data memory and the output (R66). -/
theorem memWrite_state {a v : Int} {s t : State} (h : memWrite a v s = .ok t) :
    t = { s with dmem := t.dmem, outbuf := t.outbuf } := by
  obtain ⟨-, rfl⟩ | ⟨-, -, rfl⟩ := memWrite_ok h <;> rfl

section Store

variable {row : RomRow} {e : RomEntry} {sel : State → SignalResult} {rs : RegIdx} {s u : State} {a v : Int}

theorem storeRow_eq_storeTail (h : s.canRun) (hsel : sel s = .done { s with left := some a }) :
    runRow row (⟨e, sel⟩ :: storeTail row rs) s = runOps row (storeTail row rs) { s with left := some a } := by
  rw [runRow_of_canRun h, runOps_cons_done hsel (by exact ne_halted_of_canRun h)]

theorem storeRow_of_value_none (h : s.canRun) (hsel : sel s = .done { s with left := some a }) (hv : s.reg rs = none) :
    runRow row (⟨e, sel⟩ :: storeTail row rs) s =
      takeFault row (.selRightOp 0) (.uninitialisedRead (.register rs)) { s with left := some a } := by
  rw [storeRow_eq_storeTail h hsel, storeTail, List.cons_append, runOps_cons_raised (selRight_of_none (by exact hv))]

theorem storeRow_error {k : Fault} (h : s.canRun) (hsel : sel s = .done { s with left := some a })
    (hv : s.reg rs = some v) (hm : memWrite a v s = .error k) :
    runRow row (⟨e, sel⟩ :: storeTail row rs) s =
      takeFault row (.signal .memWrite) k { s with left := some a, right := some v } := by
  rw [storeRow_eq_storeTail h hsel, storeTail, List.cons_append,
    runOps_cons_done (selRight_of_reg (by exact hv)) (by exact ne_halted_of_canRun h), List.cons_append,
    runOps_cons_raised (memWriteSignal_error rfl rfl (by rw [memWrite_wires a v s, hm]))]

theorem storeRow_run (h : s.canRun) (hsel : sel s = .done { s with left := some a }) (hv : s.reg rs = some v)
    (hm : memWrite a v s = .ok u) :
    runRow row (⟨e, sel⟩ :: storeTail row rs) s = { s with
      left := some a, right := some v, dmem := u.dmem, outbuf := u.outbuf, mpcSel := .zero, mpc := 0,
      tick := s.tick + 1 } := by
  have hn := ne_halted_of_canRun h
  have hu := memWrite_state hm
  rw [storeRow_eq_storeTail h hsel,
    storeTail_run (v := v) (u := { u with left := some a, right := some v }) (by exact hn) (by rw [hu]; exact hn) row rfl
      (by exact hv) (by rw [memWrite_wires a v s, hm]), hu]

/-- Everything a store can do once it has an address. -/
theorem storeRow_cases {P : State → Prop} (hsel : sel s = .done { s with left := some a })
    (hended : s.status ≠ .running → P s)
    (hlimit : s.status = .running → s.tick = s.params.tickLimit → P { s with status := .timeout })
    (hnone : s.canRun → s.reg rs = none →
      P (takeFault row (.selRightOp 0) (.uninitialisedRead (.register rs)) { s with left := some a }))
    (herror : ∀ v k, s.canRun → memWrite a v s = .error k →
      P (takeFault row (.signal .memWrite) k { s with left := some a, right := some v }))
    (hrun : ∀ v u, s.canRun → memWrite a v s = .ok u →
      P { s with
        left := some a, right := some v, dmem := u.dmem, outbuf := u.outbuf, mpcSel := .zero, mpc := 0,
        tick := s.tick + 1 }) : P (runRow row (⟨e, sel⟩ :: storeTail row rs) s) := by
  refine runRow_cases hended hlimit fun h => ?_
  cases hv : s.reg rs with
  | none => exact storeRow_of_value_none h hsel hv ▸ hnone h hv
  | some v =>
    cases hm : memWrite a v s with
    | error k => exact storeRow_error h hsel hv hm ▸ herror v k h hm
    | ok u => exact storeRow_run h hsel hv hm ▸ hrun v u h hm

end Store

theorem exec_writeReg_run {rs ra : RegIdx} {s u : State} {a v : Int} (h : s.canRun) (ha : s.reg ra = some a)
    (hv : s.reg rs = some v) (hm : memWrite a v s = .ok u) :
    exec (.writeReg rs ra) s = .next { s with
      left := some a, right := some v, dmem := u.dmem, outbuf := u.outbuf, mpcSel := .zero, mpc := 0,
      tick := s.tick + 1 } := by
  rw [exec, execWriteReg, storeRow_run h (selLeft_of_reg ha) hv hm]

theorem exec_writeAddr_run {rs : RegIdx} {f2 : BitVec 16} {s u : State} {v : Int} (h : s.canRun) (hv : s.reg rs = some v)
    (hm : memWrite f2.toNat v s = .ok u) :
    exec (.writeAddr rs f2) s = .next { s with
      left := some f2.toNat, right := some v, dmem := u.dmem, outbuf := u.outbuf, mpcSel := .zero, mpc := 0,
      tick := s.tick + 1 } := by
  rw [exec, execWriteAddr, storeRow_run h (selLeftAddr_eq f2 s) hv hm]

/-- Settles O43: the write changes one cell, by the laws of the data memory. -/
theorem writeWordToACellRuns : Obligations.WriteWordToACellRuns := by
  refine ⟨fun rs ra s a v h ha hv h2 hsize => ?_, fun rs f2 s v h hv h2 hsize => ?_⟩
  · exact ⟨_, exec_writeReg_run h ha hv (memWrite_cell v h2 hsize), read_write_self .., fun b hb => read_write_of_ne hb ..,
      rfl⟩
  · have hm := memWrite_cell (s := s) (a := f2.toNat) v (by omega) (by omega)
    exact ⟨_, exec_writeAddr_run h hv hm, read_write_self .., fun b hb => read_write_of_ne hb .., rfl⟩

/-- Settles O44: the write of cell 1 appends to the output. -/
theorem writeWordToOutputRuns : Obligations.WriteWordToOutputRuns := by
  refine ⟨fun rs ra s v h ha hv => ?_, fun rs s v h hv => ?_⟩
  · rw [exec_writeReg_run h ha hv (memWrite_one v s)]
  · rw [exec_writeAddr_run (f2 := 1#16) h hv (by exact memWrite_one v s)]
    rfl

/-- Settles O45: each fault is that of the first signal of the row that does not complete. -/
theorem writeWordFaults : Obligations.WriteWordFaults := by
  refine ⟨fun rs ra s h => ⟨fun ha => ?_, fun a ha hv => ?_, fun a v k ha hv hm => ?_⟩,
    fun rs f2 s h => ⟨fun hv => ?_, fun v k hv hm => ?_⟩⟩
  · rw [exec, execWriteReg, runRow_of_canRun h, runOps_cons_raised (selLeft_of_none ha)]
  · rw [exec, execWriteReg, storeRow_of_value_none h (selLeft_of_reg ha) hv]
  · rw [exec, execWriteReg, storeRow_error h (selLeft_of_reg ha) hv hm]
  · rw [exec, execWriteAddr, storeRow_of_value_none h (selLeftAddr_eq f2 s) hv]
  · rw [exec, execWriteAddr, storeRow_error h (selLeftAddr_eq f2 s) hv hm]

/-- `t` differs from `s` at most in the elements that a store row writes, of the data memory in the cell at the address, and
in the output only where the address is 1 (R68). -/
def StoreKeeps (address : Option Int) (s t : State) : Prop :=
  (∀ b : Nat, address ≠ some (b : Int) → t.cell b = s.cell b) ∧ (address ≠ some 1 → t.outbuf = s.outbuf) ∧
  { t with
    dmem := s.dmem, outbuf := s.outbuf, left := s.left, right := s.right, mpcSel := s.mpcSel, mpc := s.mpc,
    tick := s.tick, status := s.status } = s

theorem storeRow_keeps {row : RomRow} {e : RomEntry} {sel : State → SignalResult} {rs : RegIdx} {s : State} {a : Int}
    (hsel : sel s = .done { s with left := some a }) :
    StoreKeeps (some a) s (runRow row (⟨e, sel⟩ :: storeTail row rs) s) := by
  apply storeRow_cases hsel
  case hrun =>
    intro v u _ hm
    obtain ⟨rfl, rfl⟩ | ⟨h2, -, rfl⟩ := memWrite_ok hm
    · exact ⟨fun _ _ => rfl, fun h1 => absurd rfl h1, rfl⟩
    · refine ⟨fun b hb => read_write_of_ne (fun hba => hb ?_) v s.dmem, fun _ => rfl, rfl⟩
      rw [hba, Int.toNat_of_nonneg (by omega)]
  all_goals
    intros
    exact ⟨fun _ _ => rfl, fun _ => rfl, rfl⟩

/-- Settles O47: every outcome of either form differs from the state before in what the row writes only. -/
theorem storeFrame : Obligations.StoreFrame := by
  refine fun rs ra f2 s t => ⟨fun h => ?_, fun h => ?_⟩
  · have hkeeps : StoreKeeps (s.reg ra) s t := by
      cases h
      apply selLeftRow_cases
      case hsome => exact fun a ha => ha ▸ storeRow_keeps (selLeft_of_reg ha)
      all_goals
        intros
        exact ⟨fun _ _ => rfl, fun _ => rfl, rfl⟩
    exact hkeeps
  · cases h
    obtain ⟨hcell, hout, hrest⟩ := storeRow_keeps (row := 16) (e := .signal .selLeftAddr) (rs := rs) (selLeftAddr_eq f2 s)
    refine ⟨fun b hb => hcell b fun h => hb ?_, fun hf2 => hout fun h => hf2 (BitVec.eq_of_toNat_eq ?_), hrest⟩
    · simpa [eq_comm] using h
    · simpa using h

end Sys2Proof.Machine
end

section
/-! PROOF. The rows of NOP, HALT, JUMP and the branches (R260-R267, R177): the rows that end a branch, the test row by what its
selects find, and a branch as its test row and the row that the stride leads to. -/

namespace Sys2Proof.Machine

/-! ### RET, HALT and the commit row -/

theorem retRow_run {s : State} (h : s.canRun) (row : RomRow) :
    runRow row (ret row) s = { s with mpcSel := .zero, mpc := 0, tick := s.tick + 1 } := by
  rw [runRow_of_canRun h, runOps_ret (ne_halted_of_canRun h)]

theorem haltRow_run {s : State} (h : s.canRun) (row : RomRow) (e : RomEntry) :
    runRow row [⟨e, haltSignal⟩] s = { s with status := .halted } := by
  rw [runRow_of_canRun h]
  rfl

theorem commitRow_run {s : State} (h : s.canRun) (row : RomRow) (f2 : BitVec 16) :
    commitRow row f2 s = { s with pcSel := .addr, pc := f2, mpcSel := .zero, mpc := 0, tick := s.tick + 1 } := by
  have hn := ne_halted_of_canRun h
  rw [commitRow, runRow_of_canRun h, List.cons_append, List.cons_append, List.nil_append,
    runOps_cons_done (selPc_eq _ _) (by exact hn), runOps_cons_done (latchPc_addr rfl f2) (by exact hn),
    runOps_ret (by exact hn)]

theorem retRow_cases {P : State → Prop} {row : RomRow} {s : State} (hended : s.status ≠ .running → P s)
    (hlimit : s.status = .running → s.tick = s.params.tickLimit → P { s with status := .timeout })
    (hrun : s.canRun → P { s with mpcSel := .zero, mpc := 0, tick := s.tick + 1 }) : P (runRow row (ret row) s) :=
  runRow_cases hended hlimit fun h => retRow_run h row ▸ hrun h

theorem commitRow_cases {P : State → Prop} {row : RomRow} {f2 : BitVec 16} {s : State} (hended : s.status ≠ .running → P s)
    (hlimit : s.status = .running → s.tick = s.params.tickLimit → P { s with status := .timeout })
    (hrun : s.canRun → P { s with pcSel := .addr, pc := f2, mpcSel := .zero, mpc := 0, tick := s.tick + 1 }) :
    P (commitRow row f2 s) :=
  runRow_cases hended hlimit fun h => (commitRow_run h row f2).symm.subst (motive := P) (hrun h)

/-- Settles O51: each row by its signals. -/
theorem nopHaltAndJumpRun : Obligations.NopHaltAndJumpRun := by
  refine fun s h => ⟨?_, ?_, fun f2 => ?_⟩
  · rw [exec, execNop, retRow_run h]
  · rw [exec, execHalt, haltRow_run h]
  · rw [exec, execJump, commitRow_run h]

/-! ### The test row -/

/-- The state after a test row that completes. -/
def tested (row : RomRow) (c : Cond) (a b : Int) (s : State) : State :=
  { s with
    left := some a, right := some b, aluResult := some (wrap s.params (a - b)),
    flags := some (flagsOf (wrap s.params (a - b))), stride := .one, mpcSel := .inc,
    mpc := row + (if taken c (wrap s.params (a - b)) then 2 else 1), tick := s.tick + 1 }

section Test

variable {row : RomRow} {c : Cond} {ra rb : RegIdx} {s : State}

theorem testRow_of_left_none (h : s.canRun) (ha : s.reg ra = none) :
    testRow row c ra rb s = takeFault row (.selLeftOp 0) (.uninitialisedRead (.register ra)) s := by
  rw [testRow, runRow_of_canRun h, runOps_cons_raised (selLeft_of_none ha)]

theorem testRow_of_right_none {a : Int} (h : s.canRun) (ha : s.reg ra = some a) (hb : s.reg rb = none) :
    testRow row c ra rb s =
      takeFault row (.selRightOp 1) (.uninitialisedRead (.register rb)) { s with left := some a } := by
  rw [testRow, runRow_of_canRun h, runOps_cons_done (selLeft_of_reg ha) (by exact ne_halted_of_canRun h),
    runOps_cons_raised (selRight_of_none (by exact hb))]

theorem testRow_eq_tested {a b : Int} (h : s.canRun) (ha : s.reg ra = some a) (hb : s.reg rb = some b)
    (hrow : row.val + 2 < 30) : testRow row c ra rb s = tested row c a b s := by
  have hmpc : (if taken c (wrap s.params (a - b)) then ⟨row.val + 2, hrow⟩ else ⟨row.val + 1, by omega⟩ : RomRow) =
      row + (if taken c (wrap s.params (a - b)) then 2 else 1) := by
    split
    · exact Fin.ext (Nat.mod_eq_of_lt hrow).symm
    · exact Fin.ext (Nat.mod_eq_of_lt (show row.val + 1 < 30 by omega)).symm
  rw [testRow_run h.1 h.2 c ha hb hrow, hmpc, tested]

/-- Everything a test row can do. -/
theorem testRow_cases {P : State → Prop} (hrow : row.val + 2 < 30)
    (hended : s.status ≠ .running → P s)
    (hlimit : s.status = .running → s.tick = s.params.tickLimit → P { s with status := .timeout })
    (hleft : s.canRun → s.reg ra = none →
      P (takeFault row (.selLeftOp 0) (.uninitialisedRead (.register ra)) s))
    (hright : ∀ a, s.canRun → s.reg rb = none →
      P (takeFault row (.selRightOp 1) (.uninitialisedRead (.register rb)) { s with left := some a }))
    (hrun : ∀ a b, s.canRun → P (tested row c a b s)) : P (testRow row c ra rb s) := by
  refine runRow_cases hended hlimit fun h => ?_
  change P (testRow row c ra rb s)
  cases ha : s.reg ra with
  | none => exact testRow_of_left_none h ha ▸ hleft h ha
  | some a =>
    cases hb : s.reg rb with
    | none => exact testRow_of_right_none h ha hb ▸ hright a h hb
    | some b => exact testRow_eq_tested h ha hb hrow ▸ hrun a b h

end Test

/-! ### Branches -/

/-- The second row of a branch to `f2` after a test row `row`, run where the test row led. -/
def secondRow (row : RomRow) (f2 : BitVec 16) (t : State) : State :=
  if t.mpc = row + 2 then commitRow (row + 2) f2 t else runRow (row + 1) (ret (row + 1)) t

theorem exec_branchInstr (c : Cond) (ra rb : RegIdx) (f2 : BitVec 16) (s : State) :
    exec (branchInstr c ra rb f2) s = .next (secondRow (branchInstr c ra rb f2).entryLine f2
      (testRow (branchInstr c ra rb f2).entryLine c ra rb s)) := by
  cases c <;> rfl

theorem entryLine_branchInstr_lt (c : Cond) (ra rb : RegIdx) (f2 : BitVec 16) :
    (branchInstr c ra rb f2).entryLine.val + 2 < 30 := by
  cases c <;> simp [branchInstr, Instr.entryLine]

/-- The second row does nothing where the test row ended the run. -/
theorem secondRow_of_ended {t : State} (h : t.status ≠ .running) (row : RomRow) (f2 : BitVec 16) :
    secondRow row f2 t = t := by
  rw [secondRow, commitRow, runRow_of_ended h, runRow_of_ended h, ite_self]

theorem secondRow_of_limit {t : State} (h : t.status = .running) (ht : t.tick = t.params.tickLimit) (row : RomRow)
    (f2 : BitVec 16) : secondRow row f2 t = { t with status := .timeout } := by
  rw [secondRow, commitRow, runRow_of_limit h ht, runRow_of_limit h ht, ite_self]

/-- Everything a second row can do. -/
theorem secondRow_cases {P : State → Prop} {row : RomRow} {f2 : BitVec 16} {t : State}
    (hended : t.status ≠ .running → P t)
    (hlimit : t.status = .running → t.tick = t.params.tickLimit → P { t with status := .timeout })
    (hcommit : t.canRun → P { t with pcSel := .addr, pc := f2, mpcSel := .zero, mpc := 0, tick := t.tick + 1 })
    (hret : t.canRun → P { t with mpcSel := .zero, mpc := 0, tick := t.tick + 1 }) : P (secondRow row f2 t) := by
  unfold secondRow
  split
  · exact commitRow_cases hended hlimit hcommit
  · exact retRow_cases hended hlimit hret

theorem secondRow_tested {row : RomRow} {c : Cond} {a b : Int} {s : State} (h : s.status = .running)
    (ht : s.tick + 1 ≠ s.params.tickLimit) (f2 : BitVec 16) :
    secondRow row f2 (tested row c a b s) = { s with
      left := some a, right := some b, aluResult := some (wrap s.params (a - b)),
      flags := some (flagsOf (wrap s.params (a - b))),
      pc := if taken c (wrap s.params (a - b)) then f2 else s.pc,
      pcSel := if taken c (wrap s.params (a - b)) then .addr else s.pcSel,
      stride := .one, mpcSel := .zero, mpc := 0, tick := s.tick + 2 } := by
  have hrun : (tested row c a b s).canRun := ⟨h, ht⟩
  cases htaken : taken c (wrap s.params (a - b))
  · have hmpc : (tested row c a b s).mpc ≠ row + 2 := by simp [tested, htaken]
    rw [secondRow, if_neg hmpc, retRow_run hrun]
    rfl
  · have hmpc : (tested row c a b s).mpc = row + 2 := by simp [tested, htaken]
    rw [secondRow, if_pos hmpc, commitRow_run hrun]
    rfl

/-- Settles O48: the test row completes, and the second row runs where the taken condition led. -/
theorem branchesRun : Obligations.BranchesRun := by
  intro c ra rb f2 s a b h ht ha hb
  rw [exec_branchInstr, testRow_eq_tested h ha hb (entryLine_branchInstr_lt ..), secondRow_tested h.1 ht]
  rfl

/-- Settles O50: each fault is that of the first select that finds no value, and ends the run. -/
theorem branchFaults : Obligations.BranchFaults := by
  refine fun c ra rb f2 s h => ⟨fun ha => ?_, fun a ha hb => ?_⟩
  · rw [exec_branchInstr, testRow_of_left_none h ha, secondRow_of_ended (by simp)]
  · rw [exec_branchInstr, testRow_of_right_none h ha hb, secondRow_of_ended (by simp)]

/-! ### The budget (R284) -/

/-- Where every row leads to one state that is not running, so does every instruction. -/
theorem exec_of_runRow_eq {s t : State} (hrow : ∀ row ops, runRow row ops s = t) (ht : t.status ≠ .running) (i : Instr) :
    exec i s = .next t := by
  have hbranch (c : Cond) (ra rb : RegIdx) (f2 : BitVec 16) : exec (branchInstr c ra rb f2) s = .next t := by
    rw [exec_branchInstr, testRow, hrow, secondRow_of_ended ht]
  cases i with
  | beq ra rb f2 => exact hbranch .z ra rb f2
  | bne ra rb f2 => exact hbranch .nz ra rb f2
  | bgt ra rb f2 => exact hbranch .pos ra rb f2
  | blt ra rb f2 => exact hbranch .neg ra rb f2
  | _ => exact congrArg Host.Outcome.next (hrow _ _)

theorem exec_of_limit {s : State} (h : s.status = .running) (ht : s.tick = s.params.tickLimit) (i : Instr) :
    exec i s = .next { s with status := .timeout } :=
  exec_of_runRow_eq (runRow_of_limit h ht) (by simp) i

theorem exec_of_ended {s : State} (h : s.status ≠ .running) (i : Instr) : exec i s = .next s :=
  exec_of_runRow_eq (runRow_of_ended h) h i

/-- Settles O35: the first row finds no budget; after a test row that counts the last tick the second row finds none. -/
theorem budgetIsCheckedBeforeTheRow : Obligations.BudgetIsCheckedBeforeTheRow := by
  refine ⟨fun i s h ht => exec_of_limit h ht i, fun c ra rb f2 s a b h ht ha hb => ?_⟩
  rw [exec_branchInstr, testRow_eq_tested h ha hb (entryLine_branchInstr_lt ..), secondRow_of_limit (t := tested _ c a b s) h.1 ht]
  rfl

/-! ### The frame of the control instructions (R22, R26) -/

/-- `t` differs from `s` at most in what ends every row. -/
def RowKeeps (s t : State) : Prop :=
  { t with mpcSel := s.mpcSel, mpc := s.mpc, tick := s.tick, status := s.status } = s

/-- `t` differs from `s` at most in what ends every row, and in what a commit row writes. -/
def CommitKeeps (s t : State) : Prop :=
  { t with pcSel := s.pcSel, pc := s.pc, mpcSel := s.mpcSel, mpc := s.mpc, tick := s.tick, status := s.status } = s

/-- `t` differs from `s` at most in what the two rows of a branch write. -/
def BranchKeeps (s t : State) : Prop :=
  { t with
    left := s.left, right := s.right, aluResult := s.aluResult, flags := s.flags, pcSel := s.pcSel, pc := s.pc,
    stride := s.stride, mpcSel := s.mpcSel, mpc := s.mpc, tick := s.tick, status := s.status } = s

theorem retRow_keeps (row : RomRow) (s : State) : RowKeeps s (runRow row (ret row) s) :=
  retRow_cases (fun _ => rfl) (fun _ _ => rfl) fun _ => rfl

theorem haltRow_keeps (row : RomRow) (e : RomEntry) (s : State) : RowKeeps s (runRow row [⟨e, haltSignal⟩] s) :=
  runRow_cases (fun _ => rfl) (fun _ _ => rfl) fun h => by rw [haltRow_run h]; rfl

theorem commitRow_keeps (row : RomRow) (f2 : BitVec 16) (s : State) : CommitKeeps s (commitRow row f2 s) :=
  commitRow_cases (fun _ => rfl) (fun _ _ => rfl) fun _ => rfl

theorem testRow_keeps {row : RomRow} (hrow : row.val + 2 < 30) (c : Cond) (ra rb : RegIdx) (s : State) :
    BranchKeeps s (testRow row c ra rb s) :=
  testRow_cases hrow (fun _ => rfl) (fun _ _ => rfl) (fun _ _ => rfl) (fun _ _ _ => rfl) fun _ _ _ => rfl

/-- Settles O52: every outcome differs from the state before in what the rows write only. -/
theorem controlFrame : Obligations.ControlFrame := by
  refine ⟨fun s t h => ?_, fun f2 s t h => ?_, fun c ra rb f2 s t h => ?_⟩
  · rcases h with ⟨⟨⟩⟩ | ⟨⟨⟩⟩
    · exact retRow_keeps 3 s
    · exact haltRow_keeps 4 _ s
  · cases h
    exact commitRow_keeps 29 f2 s
  · rw [exec_branchInstr] at h
    cases h
    have htest := testRow_keeps (entryLine_branchInstr_lt c ra rb f2) c ra rb s
    exact secondRow_cases (P := BranchKeeps s) (fun _ => htest) (fun _ _ => htest) (fun _ => htest) fun _ => htest

end Sys2Proof.Machine
end

section
/-! PROOF. The fetch (R174-R176, R180, R284): the states after rows 0, 1 and 2, the row in which a fetch can end the run, and the
step from a boundary as the fetch and the instruction it found. -/

namespace Sys2Proof.Machine

/-- Settles O23: the three fetch rows, signal by signal. -/
theorem fetchRows : Obligations.FetchRows :=
  ⟨fun _ h hrow hstride => runTick_row_zero h hrow hstride,
    fun _ _ _ h hrow hstride hw he => runTick_row_one h hrow hstride hw he,
    fun _ _ h hrow hir => runTick_row_two h hrow hir⟩

/-! ### Counting ticks (R171) -/

theorem runTicks_add (m n : Nat) (s : State) : runTicks (m + n) s = runTicks n (runTicks m s) := by
  induction m generalizing s with
  | zero => rw [Nat.zero_add, runTicks]
  | succ m ih => rw [Nat.succ_add, runTicks, ih, runTicks]

/-- Once the run has ended further ticks change nothing. -/
theorem runTicks_eq_of_le {m n : Nat} {s t : State} (h : runTicks m s = t) (ht : t.status ≠ .running) (hmn : m ≤ n) :
    runTicks n s = t := by
  rw [← Nat.add_sub_of_le hmn, runTicks_add, h, runTicks_of_ended ht]

/-! ### The rows of a fetch -/

/-- The state after row 0 (R174). -/
def addressed (s : State) : State :=
  { s with pcSel := .inc, pc := s.pc + 1#16, mpcSel := .inc, mpc := 1, tick := s.tick + 1 }

/-- The state after row 1, where the word `w` at the fetch address has the entry line `entry` (R175). -/
def latched (w : InstrWord) (entry : RomRow) (s : State) : State :=
  { s with
    pcSel := .inc, pc := s.pc + 1#16, ir := some entry, opr := some (oprField w), icount := s.icount + 1,
    mpcSel := .inc, mpc := 2, tick := s.tick + 2 }

/-- The state after row 2 (R176). -/
def fetched (w : InstrWord) (entry : RomRow) (s : State) : State :=
  { s with
    pc := s.pc + 1#16, pcSel := .inc, mpcSel := .ir, mpc := entry, ir := some entry, opr := some (oprField w),
    icount := s.icount + 1, tick := s.tick + 3 }

theorem runTick_row_one_raised {s : State} {k : Fault} (h : s.canRun) (hrow : s.mpc = 1) (hk : latchIr s = .raised k s) :
    runTick s = takeFault 1 (.signal .latchIr) k s := by
  rw [runTick_of_canRun h hrow, romOps_one, runOps_cons_raised hk]

theorem runTick_of_limit {s : State} (h : s.status = .running) (ht : s.tick = s.params.tickLimit) :
    runTick s = { s with status := .timeout } :=
  runRow_of_limit h ht ..

theorem decodeEntry_of_decode_error {opc : OpcodeNumbers} {w : InstrWord} {e : Reject} (h : decode opc w = .error e) :
    decodeEntry opc w = .error e := by
  cases hr : lookupRow opc (opcodeField w) (flagField w) with
  | none =>
    obtain ⟨hdecode, hentry⟩ := decode_of_lookupRow_none hr
    rw [hdecode] at h
    cases h
    exact hentry
  | some r =>
    rw [(decode_of_lookupRow hr).1] at h
    cases h

section Boundary

variable {s : State}

theorem runTicks_one_of_boundary (h : s.canRun) (hrow : s.mpc = 0) (hstride : s.stride = .one) :
    runTicks 1 s = addressed s :=
  runTick_row_zero h hrow hstride

theorem runTicks_two_of_boundary {w : InstrWord} {entry : RomRow} (h : s.canRun) (hrow : s.mpc = 0)
    (hstride : s.stride = .one) (ht : s.tick + 1 ≠ s.params.tickLimit) (hw : imemRead (s.pc + 1#16).toNat s = .ok w)
    (he : decodeEntry s.params.opc w = .ok entry) : runTicks 2 s = latched w entry s := by
  have hrun : (addressed s).canRun := ⟨h.1, ht⟩
  rw [runTicks_add 1 1, runTicks_one_of_boundary h hrow hstride]
  exact runTick_row_one hrun rfl hstride hw he

theorem runTicks_three_of_boundary {w : InstrWord} {entry : RomRow} (h : s.canRun) (hrow : s.mpc = 0)
    (hstride : s.stride = .one) (ht1 : s.tick + 1 ≠ s.params.tickLimit) (ht2 : s.tick + 2 ≠ s.params.tickLimit)
    (hw : imemRead (s.pc + 1#16).toNat s = .ok w) (he : decodeEntry s.params.opc w = .ok entry) :
    runTicks 3 s = fetched w entry s := by
  have hrun : (latched w entry s).canRun := ⟨h.1, ht2⟩
  rw [runTicks_add 2 1, runTicks_two_of_boundary h hrow hstride ht1 hw he]
  exact runTick_row_two hrun rfl rfl

/-! ### The step from a boundary (R180) -/

theorem atBoundary_iff : s.atBoundary = true ↔ s.mpc = 0 ∧ s.stride = .one := by
  simp [State.atBoundary]

/-- A fetch that ends the run within its three rows is the whole step. -/
theorem step_of_fetch_ended {t : State} {n : Nat} (hs : s.status = .running) (hrow : s.mpc = 0) (hstride : s.stride = .one)
    (h : runTicks n s = t) (ht : t.status ≠ .running) (hn : n ≤ 3) : step s = .next t := by
  have h3 := runTicks_eq_of_le h ht hn
  simp [step, hs, atBoundary_iff.mpr ⟨hrow, hstride⟩, fetch_of_ended (h3 ▸ ht), h3]

theorem step_of_fetched {w : InstrWord} {i : Instr} (h : s.canRun) (hrow : s.mpc = 0) (hstride : s.stride = .one)
    (ht1 : s.tick + 1 ≠ s.params.tickLimit) (ht2 : s.tick + 2 ≠ s.params.tickLimit)
    (hw : imemRead (s.pc + 1#16).toNat s = .ok w) (hi : decode s.params.opc w = .ok i) :
    step s = exec i (fetched w i.entryLine s) := by
  obtain ⟨-, -, hentry⟩ := key_of_decode hi
  have h3 := runTicks_three_of_boundary h hrow hstride ht1 ht2 hw hentry
  have hfetch : fetch s = .instr i (fetched w i.entryLine s) := by
    rw [← h3]
    refine fetch_of_instrAt ?_ ?_
    · rw [h3]
      exact h.1
    · rw [h3]
      exact instrAt_of_decode (by exact hw) hi
  simp [step, h.1, atBoundary_iff.mpr ⟨hrow, hstride⟩, hfetch]

/-! ### A fetch that ends the run (R175, R284) -/

theorem runTicks_two_of_limit (h : s.canRun) (hrow : s.mpc = 0) (hstride : s.stride = .one)
    (ht : s.tick + 1 = s.params.tickLimit) : runTicks 2 s = { addressed s with status := .timeout } := by
  rw [runTicks_add 1 1, runTicks_one_of_boundary h hrow hstride]
  exact runTick_of_limit (s := addressed s) h.1 ht

/-- A fault of LATCH_IR ends the fetch in row 1. -/
theorem runTicks_two_of_raised {k : Fault} (h : s.canRun) (hrow : s.mpc = 0) (hstride : s.stride = .one)
    (ht1 : s.tick + 1 ≠ s.params.tickLimit) (hk : latchIr (addressed s) = .raised k (addressed s)) :
    runTicks 2 s = takeFault 1 (.signal .latchIr) k (addressed s) := by
  rw [runTicks_add 1 1, runTicks_one_of_boundary h hrow hstride]
  exact runTick_row_one_raised ⟨h.1, ht1⟩ rfl hk

theorem runTicks_three_of_limit {w : InstrWord} {entry : RomRow} (h : s.canRun) (hrow : s.mpc = 0)
    (hstride : s.stride = .one) (ht1 : s.tick + 1 ≠ s.params.tickLimit) (ht2 : s.tick + 2 = s.params.tickLimit)
    (hw : imemRead (s.pc + 1#16).toNat s = .ok w) (he : decodeEntry s.params.opc w = .ok entry) :
    runTicks 3 s = { latched w entry s with status := .timeout } := by
  rw [runTicks_add 2 1, runTicks_two_of_boundary h hrow hstride ht1 hw he]
  exact runTick_of_limit (s := latched w entry s) h.1 ht2

/-- Everything a step from a boundary of a run that goes on can do: its fetch ends the run, in a fault or without budget, or
finds an instruction, which runs. -/
theorem step_boundary_cases {P : Host.Outcome State Fault Refusal → Prop} (hs : s.status = .running) (hrow : s.mpc = 0)
    (hstride : s.stride = .one)
    (hended : ∀ t, runTicks 3 s = t → t.status ≠ .running → t.status ≠ .halted → P (.next t))
    (hrun : ∀ w i, imemRead (s.pc + 1#16).toNat s = .ok w → decode s.params.opc w = .ok i →
      runTicks 3 s = fetched w i.entryLine s → P (exec i (fetched w i.entryLine s))) : P (step s) := by
  have hends {n : Nat} {t : State} (h : runTicks n s = t) (hn : n ≤ 3) (hrunning : t.status ≠ .running)
      (hhalted : t.status ≠ .halted) : P (step s) :=
    step_of_fetch_ended hs hrow hstride h hrunning hn ▸ hended t (runTicks_eq_of_le h hrunning hn) hrunning hhalted
  by_cases ht : s.tick = s.params.tickLimit
  · exact hends (n := 1) (runTick_of_limit hs ht) (by decide) (by simp) (by simp)
  by_cases ht1 : s.tick + 1 = s.params.tickLimit
  · exact hends (runTicks_two_of_limit ⟨hs, ht⟩ hrow hstride ht1) (by decide) (by simp) (by simp)
  cases hw : imemRead (s.pc + 1#16).toNat s with
  | error k =>
    have hk := latchIr_of_imemRead_error (s := addressed s) hw
    exact hends (runTicks_two_of_raised ⟨hs, ht⟩ hrow hstride ht1 hk) (by decide) (by simp) (by simp)
  | ok w =>
    cases hi : decode s.params.opc w with
    | error e =>
      have hk := latchIr_of_decodeEntry_error (s := addressed s) hw (decodeEntry_of_decode_error hi)
      exact hends (runTicks_two_of_raised ⟨hs, ht⟩ hrow hstride ht1 hk) (by decide) (by simp) (by simp)
    | ok i =>
      obtain ⟨-, -, hentry⟩ := key_of_decode hi
      by_cases ht2 : s.tick + 2 = s.params.tickLimit
      · exact hends (runTicks_three_of_limit ⟨hs, ht⟩ hrow hstride ht1 ht2 hw hentry) (by decide) (by simp) (by simp)
      · rw [step_of_fetched ⟨hs, ht⟩ hrow hstride ht1 ht2 hw hi]
        exact hrun w i hw hi (runTicks_three_of_boundary ⟨hs, ht⟩ hrow hstride ht1 ht2 hw hentry)

end Boundary

/-- Settles O24: the three rows leave the state in which the instruction runs. -/
theorem stepRunsTheDecodedInstruction : Obligations.StepRunsTheDecodedInstruction :=
  fun _ _ _ hs hrow hstride ht ht1 ht2 hw hi => step_of_fetched ⟨hs, ht⟩ hrow hstride ht1 ht2 hw hi

/-- Settles O25: row 1 faults at LATCH_IR where no word is found or decoded; rows 1 and 2 find no budget. -/
theorem fetchFaults : Obligations.FetchFaults := by
  intro s hs hrow hstride ht
  have hended {n : Nat} {t : State} (h : runTicks n s = t) (ht : t.status ≠ .running) (hn : n ≤ 3) : step s = .next t :=
    step_of_fetch_ended hs hrow hstride h ht hn
  refine ⟨fun ht1 => ?_, fun ht1 => ⟨fun hrange => ?_, fun w op f hw he => ?_, fun w i hw hi ht2 => ?_⟩⟩
  · exact hended (runTicks_two_of_limit ⟨hs, ht⟩ hrow hstride ht1) (by simp) (by decide)
  · have hk := latchIr_of_imemRead_error (s := addressed s) (imemRead_of_not_mem_range hrange)
    exact hended (runTicks_two_of_raised ⟨hs, ht⟩ hrow hstride ht1 hk) (by simp) (by decide)
  · have hk := latchIr_of_decodeEntry_error (s := addressed s) hw (decodeEntry_of_decode_error he)
    exact hended (runTicks_two_of_raised ⟨hs, ht⟩ hrow hstride ht1 hk) (by simp) (by decide)
  · obtain ⟨-, -, hentry⟩ := key_of_decode hi
    exact hended (runTicks_three_of_limit ⟨hs, ht⟩ hrow hstride ht1 ht2 hw hentry) (by simp) (by decide)

end Sys2Proof.Machine
end

section
/-! PROOF. The frame of every ROM entry (R120-R147): which elements it may write, said once; and from it how a tick ends and what
a fault reports (R170, R280-R282). -/

namespace Sys2Proof.Machine

/-! ### What a signal writes -/

theorem selLeft_frame (i : RegIdx) (s : State) :
    (selLeft i s).state = { s with left := (selLeft i s).state.left } := by
  rw [selLeft_eq]
  cases s.reg i <;> rfl

theorem selRight_frame (i : RegIdx) (s : State) :
    (selRight i s).state = { s with right := (selRight i s).state.right } := by
  rw [selRight_eq]
  cases s.reg i <;> rfl

theorem alu_frame (op : AluOp) (s : State) :
    (alu op s).state =
      { s with aluResult := (alu op s).state.aluResult, flags := (alu op s).state.flags } := by
  unfold alu
  split <;> rfl

theorem strideIf_frame (c : Cond) (s : State) :
    (strideIf c s).state = { s with stride := (strideIf c s).state.stride } := by
  unfold strideIf
  split <;> rfl

theorem latchPc_frame (f2 : Option (BitVec 16)) (s : State) :
    (latchPc f2 s).state = { s with pc := (latchPc f2 s).state.pc } := by
  unfold latchPc
  split
  · rfl
  · split <;> rfl
  · rfl

theorem latchReg_frame (i : RegIdx) (s : State) :
    (latchReg i s).state = { s with regs := (latchReg i s).state.regs } := by
  by_cases hi : i = 0#4
  · rw [hi, latchReg_zero, state_raised]
  · cases hd : dataSource i s with
    | ok v => rw [latchReg_of_ok hi hd, state_done, setReg_of_ne hi]
    | error k => rw [latchReg_of_error hi hd, state_raised]

theorem latchMpc_frame (row : RomRow) (s : State) :
    (latchMpc row s).state =
      { s with mpc := (latchMpc row s).state.mpc, stride := (latchMpc row s).state.stride } := by
  unfold latchMpc gotoRow
  split
  · split <;> rfl
  · split <;> rfl
  · rfl
  · rfl

theorem memReadSignal_frame (s : State) :
    (memReadSignal s).state =
      { s with inbuf := (memReadSignal s).state.inbuf, memOut := (memReadSignal s).state.memOut } := by
  unfold memReadSignal
  split
  · rfl
  · split
    · rename_i v _ hm
      exact congrArg (fun u : State => { u with memOut := some v }) (memRead_state hm)
    · rfl

theorem memWriteSignal_frame (s : State) :
    (memWriteSignal s).state =
      { s with dmem := (memWriteSignal s).state.dmem, outbuf := (memWriteSignal s).state.outbuf } := by
  unfold memWriteSignal
  split
  · rfl
  · rfl
  · split
    · rename_i hm
      exact memWrite_state hm
    · rfl

theorem latchIr_frame (s : State) :
    (latchIr s).state = { s with ir := (latchIr s).state.ir, icount := (latchIr s).state.icount } := by
  unfold latchIr
  split
  · rfl
  · split <;> rfl

theorem latchOpr_frame (s : State) : (latchOpr s).state = { s with opr := (latchOpr s).state.opr } := by
  unfold latchOpr
  split <;> rfl

/-- Operand resolution faults in the state it found, or runs the signal of some register. -/
theorem resolve_eq (k : Nat) (f : RegIdx → State → SignalResult) (s : State) :
    (resolve k f s).state = s ∨ ∃ i, resolve k f s = f i s := by
  unfold resolve withIndex
  split
  · split
    · exact .inl rfl
    · exact .inr ⟨_, rfl⟩
  · exact .inl rfl

theorem withF2_eq (f : BitVec 16 → State → SignalResult) (s : State) :
    (withF2 f s).state = s ∨ ∃ f2, withF2 f s = f f2 s := by
  cases ho : s.opr with
  | none => exact .inl (by simp [withF2, ho])
  | some o => exact .inr ⟨_, withF2_some ho f⟩

/-- `e.overwrite t s` is `s` with the elements that the entry `e` may write taken from `t`. -/
def RomEntry.overwrite : RomEntry → State → State → State
  | .selLeftOp _, t, s => { s with left := t.left }
  | .selRightOp _, t, s => { s with right := t.right }
  | .latchOp _, t, s => { s with regs := t.regs }
  | .signal (.latchR _), t, s => { s with regs := t.regs }
  | .signal (.selLeftR _), t, s => { s with left := t.left }
  | .signal (.selRightR _), t, s => { s with right := t.right }
  | .signal (.alu _), t, s => { s with aluResult := t.aluResult, flags := t.flags }
  | .signal .selPcInc, t, s => { s with pcSel := t.pcSel }
  | .signal .selPcAddr, t, s => { s with pcSel := t.pcSel }
  | .signal .latchPc, t, s => { s with pc := t.pc }
  | .signal .selDataAlu, t, s => { s with dataSel := t.dataSel }
  | .signal .selDataMem, t, s => { s with dataSel := t.dataSel }
  | .signal .selMpcInc, t, s => { s with mpcSel := t.mpcSel }
  | .signal .selMpcIr, t, s => { s with mpcSel := t.mpcSel }
  | .signal .selMpcZero, t, s => { s with mpcSel := t.mpcSel }
  | .signal .latchMpc, t, s => { s with mpc := t.mpc, stride := t.stride }
  | .signal (.strideIf _), t, s => { s with stride := t.stride }
  | .signal .selLeftAddr, t, s => { s with left := t.left }
  | .signal .selRightNum, t, s => { s with right := t.right }
  | .signal .memRead, t, s => { s with inbuf := t.inbuf, memOut := t.memOut }
  | .signal .memWrite, t, s => { s with dmem := t.dmem, outbuf := t.outbuf }
  | .signal .latchIr, t, s => { s with ir := t.ir, icount := t.icount }
  | .signal .latchOpr, t, s => { s with opr := t.opr }
  | .signal .halt, t, s => { s with status := t.status }

/-- No entry writes more than its rule names, whether it completes or raises a fault. -/
theorem execEntry_frame (e : RomEntry) (s : State) : (execEntry e s).state = e.overwrite (execEntry e s).state s := by
  cases e with
  | selLeftOp k =>
    rcases resolve_eq k selLeft s with h | ⟨i, h⟩
    · rw [execEntry, h]; rfl
    · rw [execEntry, h]; exact selLeft_frame i s
  | selRightOp k =>
    rcases resolve_eq k selRight s with h | ⟨i, h⟩
    · rw [execEntry, h]; rfl
    · rw [execEntry, h]; exact selRight_frame i s
  | latchOp k =>
    rcases resolve_eq k latchReg s with h | ⟨i, h⟩
    · rw [execEntry, h]; rfl
    · rw [execEntry, h]; exact latchReg_frame i s
  | signal sig =>
    cases sig with
    | latchR i => exact latchReg_frame i s
    | selLeftR i => exact selLeft_frame i s
    | selRightR i => exact selRight_frame i s
    | alu op => exact alu_frame op s
    | latchPc => exact latchPc_frame _ s
    | latchMpc => exact latchMpc_frame s.mpc s
    | strideIf c => exact strideIf_frame c s
    | selLeftAddr =>
      rcases withF2_eq selLeftAddr s with h | ⟨f2, h⟩
      · rw [execEntry, execSignal, h]; rfl
      · rw [execEntry, execSignal, h]; rfl
    | selRightNum =>
      rcases withF2_eq selRightNum s with h | ⟨f2, h⟩
      · rw [execEntry, execSignal, h]; rfl
      · rw [execEntry, execSignal, h]; rfl
    | memRead => exact memReadSignal_frame s
    | memWrite => exact memWriteSignal_frame s
    | latchIr => exact latchIr_frame s
    | latchOpr => exact latchOpr_frame s
    | selPcInc | selPcAddr | selDataAlu | selDataMem | selMpcInc | selMpcIr | selMpcZero | halt => rfl

/-! ### What every entry keeps -/

section Overwrite

variable (e : RomEntry) (t s : State)

@[simp] theorem overwrite_tick : (e.overwrite t s).tick = s.tick := by
  cases e with
  | signal sig => cases sig <;> rfl
  | _ => rfl

@[simp] theorem overwrite_imem : (e.overwrite t s).imem = s.imem := by
  cases e with
  | signal sig => cases sig <;> rfl
  | _ => rfl

@[simp] theorem overwrite_params : (e.overwrite t s).params = s.params := by
  cases e with
  | signal sig => cases sig <;> rfl
  | _ => rfl

theorem overwrite_status (h : e ≠ .signal .halt) : (e.overwrite t s).status = s.status := by
  cases e with
  | signal sig =>
    cases sig with
    | halt => exact absurd rfl h
    | _ => rfl
  | _ => rfl

theorem overwrite_opr (h : e ≠ .signal .latchOpr) : (e.overwrite t s).opr = s.opr := by
  cases e with
  | signal sig =>
    cases sig with
    | latchOpr => exact absurd rfl h
    | _ => rfl
  | _ => rfl

theorem overwrite_mpc (h : e ≠ .signal .latchMpc) : (e.overwrite t s).mpc = s.mpc := by
  cases e with
  | signal sig =>
    cases sig with
    | latchMpc => exact absurd rfl h
    | _ => rfl
  | _ => rfl

end Overwrite

theorem eq_overwrite_of_done {e : RomEntry} {s t : State} (h : execEntry e s = .done t) : t = e.overwrite t s := by
  simpa [h] using execEntry_frame e s

theorem eq_overwrite_of_raised {e : RomEntry} {s t : State} {k : Fault} (h : execEntry e s = .raised k t) :
    t = e.overwrite t s := by
  simpa [h] using execEntry_frame e s

/-- A tick keeps the image and the parameters (R61, R75). -/
theorem runTick_imem_params (s : State) : (runTick s).imem = s.imem ∧ (runTick s).params = s.params := by
  refine runRow_keeps (P := fun t => t.imem = s.imem ∧ t.params = s.params) ?_ (fun _ _ _ _ _ _ _ h => h)
    (fun _ h => h) (fun _ h => h) ⟨rfl, rfl⟩
  intro op hop u hu
  obtain ⟨e, -, rfl⟩ := List.mem_map.mp hop
  rw [execEntry_frame, overwrite_imem, overwrite_params]
  exact hu

/-! ### How a row ends -/

/-- The ROM entries as signals of a row. -/
def entryOps (es : List RomEntry) : List RowOp := es.map fun e => ⟨e, execEntry e⟩

/-- `t` is where the entries `es` of `row` stop from `s` with the report `r` (R280, R282). -/
def FaultedIn (row : RomRow) (es : List RomEntry) (s t : State) (r : Report) : Prop :=
  r.row = row ∧ r.pc = t.pc ∧ r.tick = s.tick ∧ t.tick = s.tick ∧
  ∃ (before rest : List RomEntry) (u v : State), es = before ++ r.signal :: rest ∧
    entriesCompleted before s = some u ∧ execEntry r.signal u = .raised r.kind v ∧ t = { v with status := .faulted r }

/-- Entries without HALT all complete and count a tick, or one of them raises a fault. -/
theorem runOps_entries_ends (row : RomRow) {es : List RomEntry} (hes : .signal .halt ∉ es) {s : State}
    (hs : s.status = .running) :
    ((runOps row (entryOps es) s).status = .running ∧ (runOps row (entryOps es) s).tick = s.tick + 1) ∨
    ∃ r, (runOps row (entryOps es) s).status = .faulted r ∧ FaultedIn row es s (runOps row (entryOps es) s) r := by
  induction es generalizing s with
  | nil => exact .inl ⟨hs, rfl⟩
  | cons e es ih =>
    obtain ⟨hhalt, hrest⟩ := not_or.mp (List.mem_cons.not.mp hes)
    rw [entryOps, List.map_cons]
    cases he : execEntry e s with
    | raised k v =>
      have htick : v.tick = s.tick := by rw [eq_overwrite_of_raised he, overwrite_tick]
      rw [runOps_cons_raised he]
      exact .inr ⟨_, rfl, rfl, rfl, htick, htick, [], es, s, v, rfl, rfl, he, rfl⟩
    | done t =>
      have htick : t.tick = s.tick := by rw [eq_overwrite_of_done he, overwrite_tick]
      have ht : t.status = .running := by rw [eq_overwrite_of_done he, overwrite_status _ _ _ (Ne.symm hhalt), hs]
      rw [runOps_cons_done he (by simp [ht]), ← entryOps, ← htick]
      refine (ih hrest ht).imp id fun ⟨r, hr, hrow, hpc, hrtick, htick', before, rest, u, v, hsplit, hcompleted, hlast⟩ => ?_
      exact ⟨r, hr, hrow, hpc, hrtick.trans htick, htick'.trans htick, e :: before, rest, u, v, by rw [hsplit]; rfl,
        by rw [entriesCompleted, he]; exact hcompleted, hlast⟩

theorem halt_notMem_rom : ∀ row : RomRow, row ≠ 4 → .signal .halt ∉ rom row := by
  decide

/-- A tick in another row than 4 completes the row or ends in a fault. -/
theorem runTick_ends {s : State} (h : s.canRun) (hrow : s.mpc ≠ 4) :
    ((runTick s).status = .running ∧ (runTick s).tick = s.tick + 1) ∨
    ∃ r, (runTick s).status = .faulted r ∧ FaultedIn s.mpc (rom s.mpc) s (runTick s) r := by
  rw [runTick_of_canRun h rfl]
  exact runOps_entries_ends s.mpc (halt_notMem_rom s.mpc hrow) h.1

theorem runTick_row_four {s : State} (h : s.canRun) (hrow : s.mpc = 4) : runTick s = { s with status := .halted } := by
  rw [runTick_of_canRun h hrow]
  rfl

theorem runTick_of_ended {s : State} (h : s.status ≠ .running) : runTick s = s :=
  runRow_of_ended h ..

/-- Settles O30: row 4 is HALT alone, and every other row completes or faults. -/
theorem outcomeOfATick : Obligations.OutcomeOfATick := by
  refine fun s => ⟨runTick_of_ended, runTick_of_limit, fun hs ht => ?_⟩
  by_cases hrow : s.mpc = 4
  · simp [runTick_row_four ⟨hs, ht⟩ hrow, hrow]
  · rcases runTick_ends ⟨hs, ht⟩ hrow with ⟨hstatus, htick⟩ | ⟨r, hstatus, -, -, -, htick, -⟩
    · simp [hstatus, htick, hrow]
    · simp [hstatus, htick, hrow]

/-- Settles O31: a tick that ends in a fault ran another row than 4 with budget left, and stopped at the entry reported. -/
theorem faultReportNamesItsPlace : Obligations.FaultReportNamesItsPlace := by
  refine ⟨fun s r hs hr => ?_, fun _ _ => rfl, fun _ _ => rfl, fun _ _ => rfl, fun _ => rfl, fun _ _ _ => rfl, rfl,
    fun _ => rfl, fun _ _ => rfl, fun _ => rfl, fun _ => rfl, fun _ => rfl⟩
  have ht : s.tick ≠ s.params.tickLimit := fun ht => by simp [runTick_of_limit hs ht] at hr
  have hrow : s.mpc ≠ 4 := fun hrow => by simp [runTick_row_four ⟨hs, ht⟩ hrow] at hr
  rcases runTick_ends ⟨hs, ht⟩ hrow with ⟨hstatus, -⟩ | ⟨r', hstatus, hfaulted⟩
  · simp [hstatus] at hr
  · cases hstatus.symm.trans hr
    exact hfaulted

/-! ### The budget of a run (R170, R171, R184) -/

theorem runTicks_succ (n : Nat) (s : State) : runTicks (n + 1) s = runTick (runTicks n s) :=
  runTicks_add n 1 s

theorem runTicks_params (n : Nat) (s : State) : (runTicks n s).params = s.params := by
  induction n with
  | zero => rfl
  | succ n ih => rw [runTicks_succ, (runTick_imem_params _).2, ih]

theorem runTicks_imem (n : Nat) (s : State) : (runTicks n s).imem = s.imem := by
  induction n with
  | zero => rfl
  | succ n ih => rw [runTicks_succ, (runTick_imem_params _).1, ih]

/-- While the run goes on every tick counts. -/
theorem runTicks_tick {n : Nat} {s : State} (h : (runTicks n s).status = .running) :
    (runTicks n s).tick = s.tick + n := by
  induction n with
  | zero => rfl
  | succ n ih =>
    rw [runTicks_succ] at h ⊢
    obtain ⟨hs, ht⟩ := canRun_of_runRow_running h
    obtain ⟨-, -, hcounts⟩ := outcomeOfATick (runTicks n s)
    obtain ⟨-, -, htick, -⟩ := hcounts hs ht
    rw [htick h, ih hs, Nat.add_assoc]

/-- Settles O34: a run that goes on has counted every tick, so the last one would have found the budget used up. -/
theorem everyRunEndsWithinItsBudget : Obligations.EveryRunEndsWithinItsBudget := by
  intro s hlimit h
  rw [runTicks_succ] at h
  obtain ⟨hs, ht⟩ := canRun_of_runRow_running h
  rw [runTicks_tick hs, runTicks_params] at ht
  omega

end Sys2Proof.Machine
end

section
/-! PROOF. The two levels agree (R11, R173, R180): with a value in the operand register a ROM row runs the signals that the
instruction's meaning names, so an instruction is the ticks of its rows, and a step is the ticks of a cycle. -/

namespace Sys2Proof.Machine

/-! ### A ROM row on a given operand register -/

/-- The signal of operand field `k` of the operand register `o` (R124). -/
def operandSignal (o : BitVec 24) (f : RegIdx → State → SignalResult) : Nat → State → SignalResult
  | 0 => f (oprRb o)
  | 1 => f (oprR1 o)
  | 2 => withIndex (oprF2 o).toNat f
  | k => .raised (.invalidOperandIndex k)

/-- A ROM entry of row `row`, its fields taken from `o`. -/
def RomEntry.runOn (row : RomRow) (o : BitVec 24) : RomEntry → State → SignalResult
  | .selLeftOp k => operandSignal o selLeft k
  | .selRightOp k => operandSignal o selRight k
  | .latchOp k => operandSignal o latchReg k
  | .signal .latchPc => latchPc (some (oprF2 o))
  | .signal .latchMpc => latchMpc row
  | .signal .selLeftAddr => selLeftAddr (oprF2 o)
  | .signal .selRightNum => selRightNum (oprF2 o)
  | .signal sig => execSignal sig

/-- The entries as signals of `row`, their fields taken from `o`. -/
def opsOn (row : RomRow) (o : BitVec 24) (es : List RomEntry) : List RowOp := es.map fun e => ⟨e, e.runOn row o⟩

theorem resolve_eq_operandSignal {s : State} {o : BitVec 24} (ho : s.opr = some o) (f : RegIdx → State → SignalResult)
    (k : Nat) : resolve k f s = operandSignal o f k s :=
  match k with
  | 0 => resolve_zero ho f
  | 1 => resolve_one ho f
  | 2 => resolve_two ho f
  | k + 3 => resolve_of_two_lt (by omega) f s

theorem execEntry_eq_runOn {s : State} {row : RomRow} {o : BitVec 24} (ho : s.opr = some o) (hrow : s.mpc = row)
    (e : RomEntry) : execEntry e s = e.runOn row o s := by
  cases e with
  | selLeftOp k => exact resolve_eq_operandSignal ho selLeft k
  | selRightOp k => exact resolve_eq_operandSignal ho selRight k
  | latchOp k => exact resolve_eq_operandSignal ho latchReg k
  | signal sig =>
    cases sig with
    | latchPc => rw [execEntry, execSignal, ho]; rfl
    | latchMpc => rw [execEntry, execSignal, hrow]; rfl
    | selLeftAddr => exact withF2_some ho selLeftAddr
    | selRightNum => exact withF2_some ho selRightNum
    | _ => rfl

/-- Only the last entry may write what the entries read of the control unit, so they all find the same `o` and `row`. -/
theorem runOps_entries_eq_opsOn {row : RomRow} {o : BitVec 24} {es : List RomEntry}
    (hes : ∀ e ∈ es.dropLast, e ≠ .signal .latchMpc ∧ e ≠ .signal .latchOpr) {s : State} (ho : s.opr = some o)
    (hrow : s.mpc = row) : runOps row (entryOps es) s = runOps row (opsOn row o es) s := by
  induction es generalizing s with
  | nil => rfl
  | cons e es ih =>
    have hrun := execEntry_eq_runOn ho hrow e
    rw [entryOps, opsOn, List.map_cons, List.map_cons, ← entryOps, ← opsOn]
    cases he : execEntry e s with
    | raised k t => rw [runOps_cons_raised he, runOps_cons_raised (hrun ▸ he)]
    | done t =>
      by_cases ht : t.status = .halted
      · simp only [runOps, ← hrun, he, ht, if_true]
      · rw [runOps_cons_done he ht, runOps_cons_done (hrun ▸ he) ht]
        cases es with
        | nil => rfl
        | cons e' es =>
          rw [List.dropLast_cons_cons, List.forall_mem_cons] at hes
          obtain ⟨⟨hmpc, hopr⟩, hrest⟩ := hes
          have hframe := eq_overwrite_of_done he
          exact ih hrest (by rw [hframe, overwrite_opr _ _ _ hopr, ho]) (by rw [hframe, overwrite_mpc _ _ _ hmpc, hrow])

theorem dropLast_rom : ∀ row : RomRow, 3 ≤ row → ∀ e ∈ (rom row).dropLast,
    e ≠ .signal .latchMpc ∧ e ≠ .signal .latchOpr := by
  decide

/-- A tick in an instruction's row, once the operand register holds a value. -/
theorem runTick_eq_opsOn {s : State} {o : BitVec 24} {row : RomRow} (ho : s.opr = some o) (hrow : s.mpc = row)
    (h3 : 3 ≤ row) : runTick s = runRow row (opsOn row o (rom row)) s := by
  have hops : runOps row (romOps row) s = runOps row (opsOn row o (rom row)) s :=
    runOps_entries_eq_opsOn (dropLast_rom row h3) ho hrow
  simp only [runTick, hrow, runRow, hops]

/-! ### Branches -/

/-- The three ROM rows of a branch whose test row is `row` (R173). -/
def BranchRows (c : Cond) (row : RomRow) : Prop :=
  3 ≤ row ∧ row.val + 2 < 30 ∧ rom row = romTest c ∧ rom (row + 1) = romRet ∧ rom (row + 2) = romTake

theorem branchRows_entryLine (c : Cond) (ra rb : RegIdx) (f2 : BitVec 16) :
    BranchRows c (branchInstr c ra rb f2).entryLine := by
  cases c <;> exact ⟨by simp [branchInstr, Instr.entryLine], entryLine_branchInstr_lt .., rfl, rfl, rfl⟩

theorem runTick_testRow {s : State} {o : BitVec 24} {row : RomRow} {c : Cond} (ho : s.opr = some o) (hrow : s.mpc = row)
    (h3 : 3 ≤ row) (htest : rom row = romTest c) : runTick s = testRow row c (oprRb o) (oprR1 o) s := by
  rw [runTick_eq_opsOn ho hrow h3, htest]
  rfl

/-- A test row that leaves the machine running keeps the operand register and leads to one of the two rows after it. -/
theorem testRow_next {row : RomRow} (hrow : row.val + 2 < 30) (c : Cond) (ra rb : RegIdx) (s : State) :
    (testRow row c ra rb s).status = .running →
      (testRow row c ra rb s).opr = s.opr ∧
        ((testRow row c ra rb s).mpc = row + 1 ∨ (testRow row c ra rb s).mpc = row + 2) := by
  refine testRow_cases (P := fun t => t.status = .running → t.opr = s.opr ∧ (t.mpc = row + 1 ∨ t.mpc = row + 2)) hrow
    (fun hs h => absurd h hs) ?_ ?_ ?_ fun a b _ _ => ⟨rfl, ?_⟩
  · simp
  · simp
  · simp
  · cases h : taken c (wrap s.params (a - b)) <;> simp [tested, h]

theorem secondRow_eq_runTick {t : State} {o : BitVec 24} {row : RomRow} {c : Cond} (hrows : BranchRows c row)
    (ho : t.opr = some o) (hmpc : t.mpc = row + 1 ∨ t.mpc = row + 2) : secondRow row (oprF2 o) t = runTick t := by
  obtain ⟨h3, hlt, -, hret, htake⟩ := hrows
  have h1 : (row + 1).val = row.val + 1 := Nat.mod_eq_of_lt (show row.val + 1 < 30 by omega)
  have h2 : (row + 2).val = row.val + 2 := Nat.mod_eq_of_lt hlt
  have h3' : 3 ≤ row.val := h3
  rcases hmpc with hmpc | hmpc
  · have hne : t.mpc ≠ row + 2 := fun h => by
      have := congrArg Fin.val (hmpc.symm.trans h)
      omega
    rw [secondRow, if_neg hne, runTick_eq_opsOn ho hmpc (show 3 ≤ (row + 1).val by omega), hret]
    rfl
  · rw [secondRow, if_pos hmpc, runTick_eq_opsOn ho hmpc (show 3 ≤ (row + 2).val by omega), htake]
    rfl

theorem branch_eq_runTicks {s : State} {o : BitVec 24} {row : RomRow} {c : Cond} (hrows : BranchRows c row)
    (ho : s.opr = some o) (hmpc : s.mpc = row) :
    secondRow row (oprF2 o) (testRow row c (oprRb o) (oprR1 o) s) = runTicks 2 s := by
  obtain ⟨h3, hlt, htest, -, -⟩ := id hrows
  rw [runTicks_add 1 1]
  change _ = runTick (runTick s)
  rw [runTick_testRow ho hmpc h3 htest]
  by_cases hrun : (testRow row c (oprRb o) (oprR1 o) s).status = .running
  · obtain ⟨hopr, hnext⟩ := testRow_next hlt c (oprRb o) (oprR1 o) s hrun
    exact secondRow_eq_runTick hrows (hopr.trans ho) hnext
  · rw [secondRow_of_ended hrun, runTick_of_ended hrun]

/-! ### Instructions -/

/-- The rows of an instruction after its fetch are the meaning of the instruction that the operand register holds. After
fourteen instructions of one ROM row each the decode table lists the four branches, which run two, and JUMP, which runs one. -/
theorem exec_eq_runTicks {r : DecodeRow} (hr : r ∈ decodeTable) {s : State} {o : BitVec 24} (ho : s.opr = some o)
    (hmpc : s.mpc = r.entry) :
    exec (r.build (oprRb o) (oprR1 o) (oprF2 o)) s =
      .next (runTicks (rowsOf (r.build (oprRb o) (oprR1 o) (oprF2 o)) - 3) s) := by
  have hbranch (c : Cond) (h : s.mpc = (branchInstr c (oprRb o) (oprR1 o) (oprF2 o)).entryLine) :
      exec (branchInstr c (oprRb o) (oprR1 o) (oprF2 o)) s = .next (runTicks 2 s) := by
    rw [exec_branchInstr, branch_eq_runTicks (branchRows_entryLine ..) ho h]
  have hrow (h3 : 3 ≤ r.entry) : runTicks 1 s = runRow r.entry (opsOn r.entry o (rom r.entry)) s :=
    runTick_eq_opsOn ho hmpc h3
  fin_cases hr
  iterate 14 exact congrArg Host.Outcome.next (hrow (by decide)).symm
  · exact hbranch .z hmpc
  · exact hbranch .nz hmpc
  · exact hbranch .pos hmpc
  · exact hbranch .neg hmpc
  · exact congrArg Host.Outcome.next (hrow (by decide)).symm

/-- From the state a fetch leaves, the instruction is the rest of its rows. -/
theorem exec_fetched {w : InstrWord} {i : Instr} {s : State} (hi : decode s.params.opc w = .ok i) :
    exec i (fetched w i.entryLine s) = .next (runTicks (rowsOf i - 3) (fetched w i.entryLine s)) := by
  obtain ⟨r, hr, rfl⟩ := exists_row_of_decode hi
  obtain ⟨hmem, -, -⟩ := mem_of_lookupRow hr
  obtain ⟨-, -, hentry⟩ := key_of_build hmem (rbField w) (r1Field w) (f2Field w)
  obtain ⟨hrb, hr1, hf2⟩ := opr_fields_of_word w
  rw [hentry, ← hrb, ← hr1, ← hf2]
  exact exec_eq_runTicks hmem rfl rfl

theorem three_le_rowsOf (i : Instr) : 3 ≤ rowsOf i := by
  cases i <;> simp [rowsOf]

/-! ### Steps -/

theorem three_le_stepRows {s : State} (hb : s.atBoundary = true) : 3 ≤ stepRows s := by
  unfold stepRows
  rw [if_pos hb]
  split
  · exact three_le_rowsOf _
  · decide

theorem stepRows_of_decode {s : State} {w : InstrWord} {i : Instr} (hb : s.atBoundary = true)
    (hw : imemRead (s.pc + 1#16).toNat s = .ok w) (hi : decode s.params.opc w = .ok i) : stepRows s = rowsOf i := by
  rw [stepRows, if_pos hb, instrAt_of_decode hw hi]

theorem step_of_ended {s : State} (h : s.status ≠ .running) : step s = .next s := by
  unfold step
  split
  · exact absurd ‹_› h
  · rfl

theorem step_of_not_boundary {s : State} (hs : s.status = .running) (hb : ¬ s.atBoundary = true) :
    step s = .next (runTick s) := by
  simp [step, hs, hb]

/-- Settles O26: at a boundary the three fetch ticks end the run, or the rest of the cycle's ticks are the instruction;
elsewhere a step is one tick, and after the end of a run ticks change nothing. -/
theorem stepIsTheMicrocode : Obligations.StepIsTheMicrocode := by
  intro s
  by_cases hs : s.status = .running
  · by_cases hb : s.atBoundary = true
    · obtain ⟨hrow, hstride⟩ := atBoundary_iff.mp hb
      refine step_boundary_cases (P := fun o => o = .next (runTicks (stepRows s) s)) hs hrow hstride ?_ ?_
      · intro t h3 ht _
        rw [runTicks_eq_of_le h3 ht (three_le_stepRows hb)]
      · intro w i hw hi h3
        rw [stepRows_of_decode hb hw hi, ← Nat.add_sub_of_le (three_le_rowsOf i), runTicks_add, h3, exec_fetched hi]
    · rw [step_of_not_boundary hs hb, stepRows, if_neg hb]
      rfl
  · rw [step_of_ended hs, runTicks_of_ended hs]

/-- Settles O60: a step is ticks, each of which keeps both. -/
theorem imageAndParametersNeverChange : Obligations.ImageAndParametersNeverChange := by
  refine ⟨runTick_imem_params, fun s t h => ?_⟩
  cases (stepIsTheMicrocode s).symm.trans h
  exact ⟨runTicks_imem _ s, runTicks_params _ s⟩

theorem one_le_stepRows (s : State) : 1 ≤ stepRows s := by
  by_cases hb : s.atBoundary = true
  · exact le_trans (by decide) (three_le_stepRows hb)
  · rw [stepRows, if_neg hb]

/-- Settles O33: a step is at least one tick, and every tick of a run that goes on counts. -/
theorem stepNeverSticks : Obligations.StepNeverSticks := by
  intro s _
  refine ⟨_, stepIsTheMicrocode s, or_iff_not_imp_left.mpr fun h => ?_⟩
  have htick := runTicks_tick (not_not.mp h)
  have hrows := one_le_stepRows s
  omega

/-! ### The end of a run (R182) -/

/-- Settles O32: no row of an ended run does anything, and the read-out is made of its status. -/
theorem endedRunStaysAsItIs : Obligations.EndedRunStaysAsItIs := by
  refine ⟨fun s h => ⟨runTicks_of_ended h, step_of_ended h, exec_of_ended h, ?_⟩, fun s h => ?_⟩
  · cases hs : s.status with
    | running => exact absurd hs h
    | halted | faulted | timeout => simp [State.readOut, State.outcome, hs]
  · simp [State.readOut, State.outcome, h]

/-! ### The ticks of an instruction (R319) -/

/-- `t` is not HALTED and has counted no instruction since `s`. -/
def CountsNone (s t : State) : Prop := t.status ≠ .halted ∧ t.icount = s.icount

section Counts

variable {s : State} (hs : s.status ≠ .halted)
include hs

theorem aluRegister_countsNone (row : RomRow) (op : AluOp) (rd rs1 : RegIdx) (f2 : BitVec 16) :
    CountsNone s (aluRegister row op rd rs1 f2 s) := by
  apply aluRegister_cases
  all_goals
    intros
    simp [CountsNone, hs]

theorem aluImmediate_countsNone (row : RomRow) (op : AluOp) (rd rs1 : RegIdx) (f2 : BitVec 16) :
    CountsNone s (aluImmediate row op rd rs1 f2 s) := by
  apply aluImmediate_cases
  all_goals
    intros
    simp [CountsNone, hs]

theorem loadRow_countsNone {row : RomRow} {e : RomEntry} {sel : State → SignalResult} {rd : RegIdx} {a : Int}
    (hsel : sel s = .done { s with left := some a }) : CountsNone s (runRow row (⟨e, sel⟩ :: loadTail row rd) s) := by
  apply loadRow_cases hsel
  all_goals
    intros
    simp [CountsNone, hs]

theorem storeRow_countsNone {row : RomRow} {e : RomEntry} {sel : State → SignalResult} {rs : RegIdx} {a : Int}
    (hsel : sel s = .done { s with left := some a }) : CountsNone s (runRow row (⟨e, sel⟩ :: storeTail row rs) s) := by
  apply storeRow_cases hsel
  all_goals
    intros
    simp [CountsNone, hs]

/-- A row that starts with a left select, whatever the rest does once a value is on the wire. -/
theorem selLeftRow_countsNone {row : RomRow} {e : RomEntry} {i : RegIdx} {ops : List RowOp}
    (hsome : ∀ a, s.reg i = some a → CountsNone s (runRow row (⟨e, selLeft i⟩ :: ops) s)) :
    CountsNone s (runRow row (⟨e, selLeft i⟩ :: ops) s) := by
  apply selLeftRow_cases
  case hsome => exact hsome
  all_goals
    intros
    simp [CountsNone, hs]

theorem branch_countsNone (c : Cond) (ra rb : RegIdx) (f2 : BitVec 16) {t : State}
    (h : exec (branchInstr c ra rb f2) s = .next t) : CountsNone s t := by
  rw [exec_branchInstr] at h
  cases h
  have htest : CountsNone s (testRow (branchInstr c ra rb f2).entryLine c ra rb s) := by
    apply testRow_cases (entryLine_branchInstr_lt c ra rb f2)
    all_goals
      intros
      simp [CountsNone, tested, hs]
  exact secondRow_cases (P := CountsNone s) (fun _ => htest) (fun _ _ => ⟨by simp, htest.2⟩) (fun _ => htest)
    fun _ => htest

/-- Only HALT ends a run in HALTED, and no instruction's rows count instructions: LATCH_IR does (R145, R147). -/
theorem exec_countsNone {i : Instr} (hi : i ≠ .halt) {t : State} (h : exec i s = .next t) : CountsNone s t := by
  cases i with
  | beq ra rb f2 => exact branch_countsNone hs .z ra rb f2 h
  | bne ra rb f2 => exact branch_countsNone hs .nz ra rb f2 h
  | bgt ra rb f2 => exact branch_countsNone hs .pos ra rb f2 h
  | blt ra rb f2 => exact branch_countsNone hs .neg ra rb f2 h
  | halt => exact absurd rfl hi
  | nop =>
    cases h
    exact retRow_cases (fun _ => ⟨hs, rfl⟩) (fun _ _ => ⟨by simp, rfl⟩) fun _ => ⟨hs, rfl⟩
  | jump f2 =>
    cases h
    exact commitRow_cases (fun _ => ⟨hs, rfl⟩) (fun _ _ => ⟨by simp, rfl⟩) fun _ => ⟨hs, rfl⟩
  | addReg | subReg | mulReg | andReg => cases h; exact aluRegister_countsNone hs ..
  | addImm | subImm | mulImm | andImm => cases h; exact aluImmediate_countsNone hs ..
  | loadReg rd ra =>
    cases h
    exact selLeftRow_countsNone hs fun a ha => loadRow_countsNone hs (selLeft_of_reg ha)
  | loadAddr rd f2 => cases h; exact loadRow_countsNone hs (selLeftAddr_eq f2 s)
  | writeReg rs ra =>
    cases h
    exact selLeftRow_countsNone hs fun a ha => storeRow_countsNone hs (selLeft_of_reg ha)
  | writeAddr rs f2 => cases h; exact storeRow_countsNone hs (selLeftAddr_eq f2 s)

end Counts

/-- What a step from a boundary has counted when its instruction goes on, and when it halts. -/
def CycleCounts (i : Instr) (s t : State) : Prop :=
  (t.status = .running → t.tick = s.tick + rowsOf i ∧ t.icount = s.icount + 1) ∧
  (t.status = .halted → i = .halt ∧ t.tick = s.tick + 3 ∧ t.icount = s.icount + 1)

theorem exec_fetched_counts {s t : State} {w : InstrWord} {i : Instr} (hs : s.status = .running)
    (hi : decode s.params.opc w = .ok i) (h : exec i (fetched w i.entryLine s) = .next t) : CycleCounts i s t := by
  have hticks : t.status = .running → t.tick = s.tick + rowsOf i := by
    cases (exec_fetched hi).symm.trans h
    intro ht
    have hrows := three_le_rowsOf i
    have htick := runTicks_tick ht
    rw [show (fetched w i.entryLine s).tick = s.tick + 3 from rfl] at htick
    omega
  by_cases hhalt : i = .halt
  · subst hhalt
    cases h
    refine runRow_cases (fun hended => absurd hs hended) (fun _ _ => by simp [CycleCounts]) fun hrun => ?_
    rw [haltRow_run hrun]
    exact ⟨by simp, fun _ => ⟨rfl, rfl, rfl⟩⟩
  · obtain ⟨hstatus, hicount⟩ := exec_countsNone (by simp [fetched, hs]) hhalt h
    exact ⟨fun ht => ⟨hticks ht, hicount⟩, fun ht => absurd ht hstatus⟩

/-- Settles O54: a fetch that ends the run leaves it neither running nor HALTED; otherwise the instruction's rows count. -/
theorem ticksOfAnInstruction : Obligations.TicksOfAnInstruction := by
  intro s t i hs hrow hstride hi h
  refine step_boundary_cases (P := fun o => o = .next t → CycleCounts i s t) hs hrow hstride ?_ ?_ h
  · rintro t' - hrunning hhalted ⟨⟩
    exact ⟨fun ht => absurd ht hrunning, fun ht => absurd ht hhalted⟩
  · intro w j hw hj _ hexec
    have hij : i = j := Option.some_injective _ (hi.symm.trans (instrAt_of_decode hw hj))
    subst hij
    exact exec_fetched_counts hs hj hexec

end Sys2Proof.Machine
end

section
/-! PROOF. The control invariant (R174, R177, R179): from a state that meets it every tick ends in a state that meets it, and a
fault of that tick is one that the spec lists; row by row of the ROM. -/

namespace Sys2Proof.Machine

/-! ### The invariant -/

theorem romInv_iff {s : State} (hs : s.status = .running) :
    s.romInv = true ↔ s.stride = .one ∧ (s.mpc < 2 ∨ ∃ o, s.opr = some o) ∧
      (s.mpc = 2 → ∃ row ∈ entryLines, s.ir = some row) := by
  cases hir : s.ir <;>
    simp [State.romInv, hs, hir, Option.isSome_iff_exists, or_iff_not_imp_left, and_assoc]

/-- The control invariant, and no fault that the spec does not list (R179). -/
def Safe (s : State) : Prop := s.romInv = true ∧ ∀ r, s.status = .faulted r → reachableFault r.kind = true

theorem safe_of_running {s : State} (hs : s.status = .running) (hstride : s.stride = .one)
    (hopr : s.mpc < 2 ∨ ∃ o, s.opr = some o) (hir : s.mpc = 2 → ∃ row ∈ entryLines, s.ir = some row) : Safe s :=
  ⟨(romInv_iff hs).mpr ⟨hstride, hopr, hir⟩, fun r hr => by simp [hs] at hr⟩

/-- Back at row 0 with a single stride nothing more is asked. -/
theorem safe_of_row_zero {s : State} (hs : s.status = .running) (hstride : s.stride = .one) (hrow : s.mpc = 0) : Safe s :=
  safe_of_running hs hstride (.inl (by simp [hrow])) (by simp [hrow])

@[simp] theorem safe_timeout (s : State) : Safe { s with status := .timeout } := ⟨rfl, by simp⟩

@[simp] theorem safe_halted (s : State) : Safe { s with status := .halted } := ⟨rfl, by simp⟩

theorem safe_takeFault {k : Fault} (hk : reachableFault k = true) (row : RomRow) (e : RomEntry) (s : State) :
    Safe (takeFault row e k s) := by
  refine ⟨rfl, fun r hr => ?_⟩
  cases hr
  exact hk

/-! ### The faults of the rows -/

/-- A register that holds no value is not `r0` (R21). -/
theorem reachable_of_reg_none {i : RegIdx} {s : State} (h : s.reg i = none) :
    reachableFault (.uninitialisedRead (.register i)) = true := by
  have hi : i ≠ 0#4 := fun hi => by simp [hi] at h
  simp [reachableFault, hi]

theorem reachable_of_memRead_error {a : Int} {k : Fault} {s : State} (h : memRead a s = .error k) :
    reachableFault k = true := by
  unfold memRead inPop at h
  split at h
  · split at h <;> cases h
    rfl
  split at h
  · cases h; rfl
  split at h
  · cases h; rfl
  · split at h <;> cases h
    exact decide_eq_true (by omega)

theorem reachable_of_memWrite_error {a v : Int} {k : Fault} {s : State} (h : memWrite a v s = .error k) :
    reachableFault k = true := by
  unfold memWrite at h
  split at h
  · cases h; rfl
  split at h
  · cases h
  split at h <;> cases h
  rfl

theorem reachable_of_imemRead_error {a : Nat} {k : Fault} {s : State} (h : imemRead a s = .error k) :
    reachableFault k = true := by
  unfold imemRead at h
  split at h
  · cases h; rfl
  · split at h <;> cases h
    rfl

/-- LATCH_IR latches an entry line of the decode table, or raises a listed fault in the state it found (R145). -/
theorem latchIr_cases (s : State) :
    (∃ w r, imemRead s.pc.toNat s = .ok w ∧ r ∈ decodeTable ∧ decodeEntry s.params.opc w = .ok r.entry) ∨
    ∃ k, latchIr s = .raised k s ∧ reachableFault k = true := by
  cases hw : imemRead s.pc.toNat s with
  | error k => exact .inr ⟨k, latchIr_of_imemRead_error hw, reachable_of_imemRead_error hw⟩
  | ok w =>
    cases hr : lookupRow s.params.opc (opcodeField w) (flagField w) with
    | none => exact .inr ⟨_, latchIr_of_decodeEntry_error hw (decode_of_lookupRow_none hr).2, rfl⟩
    | some r => exact .inl ⟨w, r, rfl, (mem_of_lookupRow hr).1, (decode_of_lookupRow hr).2⟩

/-! ### Rows of instructions -/

section Rows

variable {s : State} (hs : s.status = .running) (hstride : s.stride = .one)
include hs hstride

theorem retRow_safe (row : RomRow) : Safe (runRow row (ret row) s) :=
  retRow_cases (fun h => absurd hs h) (fun _ _ => safe_timeout s) fun _ => safe_of_row_zero hs hstride rfl

theorem commitRow_safe (row : RomRow) (f2 : BitVec 16) : Safe (commitRow row f2 s) :=
  commitRow_cases (fun h => absurd hs h) (fun _ _ => safe_timeout s) fun _ => safe_of_row_zero hs hstride rfl

theorem aluRegister_safe (row : RomRow) (op : AluOp) (rd rs1 : RegIdx) (f2 : BitVec 16) :
    Safe (aluRegister row op rd rs1 f2 s) := by
  apply aluRegister_cases
  case hended => exact fun h => absurd hs h
  case hlimit => exact fun _ _ => safe_timeout s
  case hleft => exact fun _ h => safe_takeFault (reachable_of_reg_none h) ..
  case hright => exact fun _ _ h => safe_takeFault (reachable_of_reg_none h) ..
  case hindex | hzero => intros; exact safe_takeFault rfl ..
  case hrun => exact fun _ _ _ _ => safe_of_row_zero (by simp [hs]) (by simp [hstride]) rfl

theorem aluImmediate_safe (row : RomRow) (op : AluOp) (rd rs1 : RegIdx) (f2 : BitVec 16) :
    Safe (aluImmediate row op rd rs1 f2 s) := by
  apply aluImmediate_cases
  case hended => exact fun h => absurd hs h
  case hlimit => exact fun _ _ => safe_timeout s
  case hnone => exact fun _ h => safe_takeFault (reachable_of_reg_none h) ..
  case hzero => exact fun _ _ _ _ => safe_takeFault rfl ..
  case hrun => exact fun _ _ _ _ => safe_of_row_zero (by simp [hs]) (by simp [hstride]) rfl

omit hstride in
/-- A row that starts with a left select, whatever the rest does once a value is on the wire. -/
theorem selLeftRow_safe {row : RomRow} {e : RomEntry} {i : RegIdx} {ops : List RowOp}
    (hsome : ∀ a, s.reg i = some a → Safe (runRow row (⟨e, selLeft i⟩ :: ops) s)) :
    Safe (runRow row (⟨e, selLeft i⟩ :: ops) s) :=
  selLeftRow_cases (fun h => absurd hs h) (fun _ _ => safe_timeout s)
    (fun _ h => safe_takeFault (reachable_of_reg_none h) ..) hsome

theorem loadRow_safe {row : RomRow} {e : RomEntry} {sel : State → SignalResult} {rd : RegIdx} {a : Int}
    (hsel : sel s = .done { s with left := some a }) : Safe (runRow row (⟨e, sel⟩ :: loadTail row rd) s) := by
  apply loadRow_cases hsel
  case hended => exact fun h => absurd hs h
  case hlimit => exact fun _ _ => safe_timeout s
  case herror => exact fun _ _ h => safe_takeFault (reachable_of_memRead_error h) ..
  case hzero => exact fun _ _ _ _ _ => safe_takeFault rfl ..
  case hrun => exact fun _ _ _ _ _ => safe_of_row_zero (by simp [hs]) (by simp [hstride]) rfl

theorem storeRow_safe {row : RomRow} {e : RomEntry} {sel : State → SignalResult} {rs : RegIdx} {a : Int}
    (hsel : sel s = .done { s with left := some a }) : Safe (runRow row (⟨e, sel⟩ :: storeTail row rs) s) := by
  apply storeRow_cases hsel
  case hended => exact fun h => absurd hs h
  case hlimit => exact fun _ _ => safe_timeout s
  case hnone => exact fun _ h => safe_takeFault (reachable_of_reg_none h) ..
  case herror => exact fun _ _ _ h => safe_takeFault (reachable_of_memWrite_error h) ..
  case hrun => exact fun _ _ _ _ => safe_of_row_zero hs hstride rfl

omit hstride in
theorem testRow_safe {row : RomRow} (h3 : 3 ≤ row) (hlt : row.val + 2 < 30) (c : Cond) (ra rb : RegIdx) {o : BitVec 24}
    (ho : s.opr = some o) : Safe (testRow row c ra rb s) := by
  have hnext (n : RomRow) (hn : n = 1 ∨ n = 2) : row + n ≠ 2 := by
    revert row n
    decide
  apply testRow_cases hlt
  case hended => exact fun h => absurd hs h
  case hlimit => exact fun _ _ => safe_timeout s
  case hleft => exact fun _ h => safe_takeFault (reachable_of_reg_none h) ..
  case hright => exact fun _ _ h => safe_takeFault (reachable_of_reg_none h) ..
  case hrun =>
    exact fun a b _ => safe_of_running hs rfl (.inr ⟨o, ho⟩) fun h => absurd h (hnext _ (by split <;> simp))

/-! ### The rows of the ROM (R173) -/

omit hs hstride in
theorem rom_families : ∀ row : RomRow, 3 ≤ row →
    rom row = romRet ∨ rom row = [.signal .halt] ∨ rom row = romTake ∨
    (∃ op ∈ [AluOp.add, .sub, .mul, .and], rom row = romAluReg op ∨ rom row = romAluImm op) ∨
    rom row = [.selLeftOp 1, .signal .memRead, .signal .selDataMem, .latchOp 0] ++ romRet ∨
    rom row = [.signal .selLeftAddr, .signal .memRead, .signal .selDataMem, .latchOp 0] ++ romRet ∨
    rom row = [.selLeftOp 1, .selRightOp 0, .signal .memWrite] ++ romRet ∨
    rom row = [.signal .selLeftAddr, .selRightOp 0, .signal .memWrite] ++ romRet ∨
    ((row.val + 2 < 30) ∧ ∃ c ∈ [Cond.z, .nz, .pos, .neg], rom row = romTest c) := by
  decide

/-- A tick in an instruction's row. -/
theorem runTick_safe_of_three_le {o : BitVec 24} (ho : s.opr = some o) (h3 : 3 ≤ s.mpc) : Safe (runTick s) := by
  rw [runTick_eq_opsOn ho rfl h3]
  rcases rom_families s.mpc h3 with h | h | h | ⟨op, -, h | h⟩ | h | h | h | h | ⟨hlt, c, -, h⟩ <;> rw [h]
  · exact retRow_safe hs hstride _
  · exact runRow_cases (fun h => absurd hs h) (fun _ _ => safe_timeout s) fun hrun => haltRow_run hrun _ _ ▸ safe_halted s
  · exact commitRow_safe hs hstride _ (oprF2 o)
  · exact aluRegister_safe hs hstride _ op (oprRb o) (oprR1 o) (oprF2 o)
  · exact aluImmediate_safe hs hstride _ op (oprRb o) (oprR1 o) (oprF2 o)
  · exact selLeftRow_safe hs fun a ha => loadRow_safe hs hstride (rd := oprRb o) (selLeft_of_reg ha)
  · exact loadRow_safe hs hstride (rd := oprRb o) (selLeftAddr_eq (oprF2 o) s)
  · exact selLeftRow_safe hs fun a ha => storeRow_safe hs hstride (rs := oprRb o) (selLeft_of_reg ha)
  · exact storeRow_safe hs hstride (rs := oprRb o) (selLeftAddr_eq (oprF2 o) s)
  · exact testRow_safe hs h3 hlt c (oprRb o) (oprR1 o) ho

/-! ### The fetch rows (R174-R176) -/

theorem runTick_safe_row_zero (hrow : s.mpc = 0) : Safe (runTick s) := by
  by_cases ht : s.tick = s.params.tickLimit
  · exact runTick_of_limit hs ht ▸ safe_timeout s
  · rw [runTick_row_zero ⟨hs, ht⟩ hrow hstride]
    exact safe_of_running hs hstride (.inl (by simp)) (by simp)

theorem runTick_safe_row_one (hrow : s.mpc = 1) : Safe (runTick s) := by
  by_cases ht : s.tick = s.params.tickLimit
  · exact runTick_of_limit hs ht ▸ safe_timeout s
  rcases latchIr_cases s with ⟨w, r, hw, hr, he⟩ | ⟨k, hk, hreach⟩
  · rw [runTick_row_one ⟨hs, ht⟩ hrow hstride hw he]
    exact safe_of_running hs hstride (.inr ⟨_, rfl⟩) fun _ => ⟨_, List.mem_map_of_mem hr, rfl⟩
  · exact runTick_row_one_raised ⟨hs, ht⟩ hrow hk ▸ safe_takeFault hreach ..

omit hs hstride in
theorem three_le_of_mem_entryLines : ∀ row ∈ entryLines, 3 ≤ row := by
  decide

theorem runTick_safe_row_two {o : BitVec 24} {entry : RomRow} (hrow : s.mpc = 2) (ho : s.opr = some o)
    (hir : s.ir = some entry) (hentry : entry ∈ entryLines) : Safe (runTick s) := by
  by_cases ht : s.tick = s.params.tickLimit
  · exact runTick_of_limit hs ht ▸ safe_timeout s
  · rw [runTick_row_two ⟨hs, ht⟩ hrow hir]
    refine safe_of_running hs hstride (.inr ⟨o, ho⟩) fun h => ?_
    have h3 := three_le_of_mem_entryLines entry hentry
    rw [show entry = 2 from h] at h3
    exact absurd h3 (by decide)

end Rows

/-! ### Ticks and steps -/

/-- A row number is 0, 1, 2 or that of an instruction's row. -/
theorem row_cases : ∀ row : RomRow, row = 0 ∨ row = 1 ∨ row = 2 ∨ 3 ≤ row := by
  decide

theorem runTick_safe {s : State} (hs : s.status = .running) (h : s.romInv = true) : Safe (runTick s) := by
  obtain ⟨hstride, hopr, hir⟩ := (romInv_iff hs).mp h
  have hoperand (h2 : 2 ≤ s.mpc) : ∃ o, s.opr = some o := hopr.resolve_left (not_lt.mpr h2)
  rcases row_cases s.mpc with hrow | hrow | hrow | h3
  · exact runTick_safe_row_zero hs hstride hrow
  · exact runTick_safe_row_one hs hstride hrow
  · obtain ⟨o, ho⟩ := hoperand hrow.ge
    obtain ⟨entry, hentry, hlatched⟩ := hir hrow
    exact runTick_safe_row_two hs hstride hrow ho hlatched hentry
  · obtain ⟨o, ho⟩ := hoperand (le_trans (by decide) h3)
    exact runTick_safe_of_three_le hs hstride ho h3

theorem runTicks_safe {s : State} (h : Safe s) (n : Nat) : Safe (runTicks n s) := by
  induction n with
  | zero => exact h
  | succ n ih =>
    rw [runTicks_succ]
    by_cases hs : (runTicks n s).status = .running
    · exact runTick_safe hs ih.1
    · rwa [runTick_of_ended hs]

theorem step_safe {s t : State} (hs : s.status = .running) (h : s.romInv = true) (hstep : step s = .next t) : Safe t := by
  cases (stepIsTheMicrocode s).symm.trans hstep
  exact runTicks_safe ⟨h, fun r hr => by simp [hs] at hr⟩ _

/-- Settles O28: a tick of a run that goes on ends in a safe state, a step is ticks, and an ended run stays as it is. -/
theorem controlInvariantIsKept : Obligations.ControlInvariantIsKept := by
  refine ⟨fun s h => ?_, fun s t h hstep => ?_⟩
  · by_cases hs : s.status = .running
    · exact (runTick_safe hs h).1
    · rwa [runTick_of_ended hs]
  · by_cases hs : s.status = .running
    · exact (step_safe hs h hstep).1
    · cases (step_of_ended hs).symm.trans hstep
      exact h

/-- Settles O29: the state after a step is safe, so a fault in it is a listed one. -/
theorem onlyListedFaultsAreRaised : Obligations.OnlyListedFaultsAreRaised :=
  fun _ _ r h hs hstep hfault => (step_safe hs h hstep).2 r hfault

end Sys2Proof.Machine
end

section
/-! PROOF. The data invariant (R5, R26, R60, R63): every ROM entry keeps it, so every tick and every step does; and a launch
meets it. -/

namespace Sys2Proof.Machine

/-- The data invariant, part by part. -/
structure DataInv (s : State) : Prop where
  fits : s.params.minNumber ≤ -32768 ∧ 65535 ≤ s.params.maxNumber
  regs : ∀ x ∈ s.regs, heldInRange s.params x = true
  left : heldInRange s.params s.left = true
  right : heldInRange s.params s.right = true
  aluResult : heldInRange s.params s.aluResult = true
  memOut : heldInRange s.params s.memOut = true
  cells : ∀ c ∈ s.dmem, inRange s.params c.2 = true
  inbuf : ∀ v ∈ s.inbuf, inRange s.params v = true
  outbuf : ∀ v ∈ s.outbuf, inRange s.params v = true
  wf : s.dmem.wf = true
  below : ∀ c ∈ s.dmem, c.1 < s.params.dmemSize
  flags : flagsExclusive s = true

theorem inv_iff {s : State} : s.inv = true ↔ DataInv s := by
  simp only [State.inv, fitsFields, valuesInRange, memoryWf, Bool.and_eq_true, decide_eq_true_eq, List.all_eq_true,
    Vector.mem_toList_iff]
  constructor
  · rintro ⟨⟨⟨hfits, ⟨⟨⟨⟨⟨⟨hregs, hleft⟩, hright⟩, halu⟩, hmem⟩, hcells⟩, hin⟩, hout⟩, hwf, hbelow⟩, hflags⟩
    exact ⟨hfits, hregs, hleft, hright, halu, hmem, hcells, hin, hout, hwf, hbelow, hflags⟩
  · rintro ⟨hfits, hregs, hleft, hright, halu, hmem, hcells, hin, hout, hwf, hbelow, hflags⟩
    exact ⟨⟨⟨hfits, ⟨⟨⟨⟨⟨⟨hregs, hleft⟩, hright⟩, halu⟩, hmem⟩, hcells⟩, hin⟩, hout⟩, hwf, hbelow⟩, hflags⟩

theorem heldInRange_some {p : Params} {x : Option Int} {v : Int} (hx : heldInRange p x = true) (hv : x = some v) :
    inRange p v = true := by
  subst hv
  exact hx

section Values

variable {s : State} (h : DataInv s)
include h

/-- Every value from the least to the greatest of an immediate is a word value (R93). -/
theorem DataInv.inRange_of_field {v : Int} (hmin : -32768 ≤ v) (hmax : v ≤ 65535) : inRange s.params v = true :=
  inRange_iff.mpr ⟨h.fits.1.trans hmin, hmax.trans h.fits.2⟩

theorem DataInv.inRange_wrap (v : Int) : inRange s.params (wrap s.params v) = true :=
  inRange_iff.mpr (wrap_range (h.fits.1.trans (le_trans (by decide) h.fits.2)) v)

theorem DataInv.inRange_reg {i : RegIdx} {v : Int} (hv : s.reg i = some v) : inRange s.params v = true := by
  unfold State.reg at hv
  split at hv
  · cases hv
    exact h.inRange_of_field (by decide) (by decide)
  · exact heldInRange_some (h.regs _ (Vector.getElem_mem _)) hv

theorem DataInv.inRange_dataSource {i : RegIdx} {v : Int} (hv : dataSource i s = .ok v) : inRange s.params v = true := by
  unfold dataSource at hv
  split at hv
  · split at hv <;> cases hv
    exact heldInRange_some h.aluResult ‹_›
  · split at hv <;> cases hv
    exact heldInRange_some h.memOut ‹_›
  · cases hv

/-! ### Signals -/

theorem DataInv.selLeft (i : RegIdx) : DataInv (selLeft i s).state := by
  rw [selLeft_eq]
  cases hv : s.reg i with
  | none => exact h
  | some v => exact { h with left := h.inRange_reg hv }

theorem DataInv.selRight (i : RegIdx) : DataInv (selRight i s).state := by
  rw [selRight_eq]
  cases hv : s.reg i with
  | none => exact h
  | some v => exact { h with right := h.inRange_reg hv }

theorem DataInv.setReg {v : Int} (i : RegIdx) (hv : inRange s.params v = true) : DataInv (s.setReg i v) := by
  unfold State.setReg
  split
  · exact h
  · have hi : i.toNat - 1 < 15 := by omega
    refine { h with regs := fun x hx => ?_ }
    rcases Vector.mem_or_eq_of_mem_set (hi := hi) hx with hx | rfl
    · exact h.regs x hx
    · exact hv

theorem DataInv.latchReg (i : RegIdx) : DataInv (latchReg i s).state := by
  unfold Machine.latchReg
  split
  · exact h
  · split
    · exact h.setReg i (h.inRange_dataSource ‹_›)
    · exact h

theorem DataInv.alu (op : AluOp) : DataInv (alu op s).state := by
  unfold Machine.alu
  split
  · exact h
  · exact h
  · refine { h with aluResult := h.inRange_wrap _, flags := ?_ }
    simpa [flagsExclusive, imp_iff_not_or] using flagsOf_exclusive (aluValue s.params op _ _)

theorem DataInv.memReadSignal : DataInv (memReadSignal s).state := by
  unfold Machine.memReadSignal
  split
  · exact h
  · split
    · rename_i v t hm
      rcases memRead_ok hm with ⟨-, hin, ht⟩ | ⟨-, -, hcell, rfl⟩
      · have hv : ∀ x ∈ v :: t.inbuf, inRange s.params x = true := hin ▸ h.inbuf
        obtain ⟨hhead, htail⟩ := List.forall_mem_cons.mp hv
        rw [ht]
        exact { h with memOut := hhead, inbuf := htail }
      · exact { h with memOut := h.cells _ (mem_of_read hcell) }
    · exact h

theorem DataInv.memWriteSignal : DataInv (memWriteSignal s).state := by
  unfold Machine.memWriteSignal
  split
  · exact h
  · exact h
  · rename_i a v ha hv
    have hvalue := heldInRange_some h.right hv
    split
    · rename_i t hm
      rcases memWrite_ok hm with ⟨-, rfl⟩ | ⟨h2, hsize, rfl⟩
      · refine { h with outbuf := fun x hx => ?_ }
        rcases List.mem_append.mp hx with hx | hx
        · exact h.outbuf x hx
        · rw [List.mem_singleton.mp hx]
          exact hvalue
      · refine { h with wf := wf_write v (by omega) h.wf, cells := fun c hc => ?_, below := fun c hc => ?_ }
        · rcases mem_write hc with rfl | hc
          · exact hvalue
          · exact h.cells c hc
        · rcases mem_write hc with rfl | hc
          · change a.toNat < s.params.dmemSize
            omega
          · exact h.below c hc
    · exact h

/-! ### Entries, ticks and steps -/

theorem DataInv.resolve {f : RegIdx → State → SignalResult} (hf : ∀ i, DataInv (f i s).state) (k : Nat) :
    DataInv (resolve k f s).state := by
  rcases resolve_eq k f s with hr | ⟨i, hr⟩
  · rwa [hr]
  · rw [hr]
    exact hf i

theorem DataInv.withF2 {f : BitVec 16 → State → SignalResult} (hf : ∀ f2, DataInv (f f2 s).state) :
    DataInv (withF2 f s).state := by
  rcases withF2_eq f s with hr | ⟨f2, hr⟩
  · rwa [hr]
  · rw [hr]
    exact hf f2

theorem DataInv.selLeftAddr (f2 : BitVec 16) : DataInv (selLeftAddr f2 s).state := by
  obtain ⟨hmin, hmax⟩ := zext16_range f2
  exact { h with left := h.inRange_of_field (le_trans (by decide) hmin) hmax }

theorem DataInv.selRightNum (f2 : BitVec 16) : DataInv (selRightNum f2 s).state := by
  obtain ⟨hmin, hmax⟩ := immExt_range s.params f2
  exact { h with right := h.inRange_of_field hmin hmax }

/-- No entry of the ROM breaks the invariant; the entries of the last case write no data. -/
theorem DataInv.execEntry (e : RomEntry) : DataInv (execEntry e s).state := by
  cases e with
  | selLeftOp k => exact h.resolve h.selLeft k
  | selRightOp k => exact h.resolve h.selRight k
  | latchOp k => exact h.resolve h.latchReg k
  | signal sig =>
    cases sig with
    | latchR i => exact h.latchReg i
    | selLeftR i => exact h.selLeft i
    | selRightR i => exact h.selRight i
    | alu op => exact h.alu op
    | selLeftAddr => exact h.withF2 h.selLeftAddr
    | selRightNum => exact h.withF2 h.selRightNum
    | memRead => exact h.memReadSignal
    | memWrite => exact h.memWriteSignal
    | _ =>
      rw [execEntry_frame]
      exact { h with }

theorem DataInv.runTick : DataInv (runTick s) := by
  refine runRow_keeps (P := DataInv) ?_ (fun _ _ _ _ _ _ _ ht => { ht with }) (fun _ ht => { ht with })
    (fun _ ht => { ht with }) h
  intro op hop u hu
  obtain ⟨e, -, rfl⟩ := List.mem_map.mp hop
  exact hu.execEntry e

theorem DataInv.runTicks (n : Nat) : DataInv (runTicks n s) := by
  induction n with
  | zero => exact h
  | succ n ih =>
    rw [runTicks_succ]
    exact ih.runTick

end Values

/-- Settles O57: a step is ticks, and every tick keeps every part of the invariant. -/
theorem dataInvariantIsKept : Obligations.DataInvariantIsKept := by
  intro s t h hstep
  cases (stepIsTheMicrocode s).symm.trans hstep
  exact inv_iff.mpr ((inv_iff.mp h).runTicks _)

/-! ### Launch and reset -/

theorem risingFrom_dataCells {low a : Nat} (h : low < a) (vs : List Int) : (dataCells a vs).risingFrom low = true := by
  induction vs generalizing low a with
  | nil => rfl
  | cons v vs ih => simp [dataCells, Memory.risingFrom, h, ih]

theorem mem_dataCells {a : Nat} {vs : List Int} {c : Nat × Int} (h : c ∈ dataCells a vs) :
    c.1 < a + vs.length ∧ c.2 ∈ vs := by
  induction vs generalizing a with
  | nil => simp [dataCells] at h
  | cons v vs ih =>
    rw [List.length_cons]
    rcases List.mem_cons.mp h with rfl | h
    · exact ⟨by omega, List.mem_cons_self⟩
    · obtain ⟨hlt, hmem⟩ := ih h
      exact ⟨by omega, List.mem_cons_of_mem _ hmem⟩

theorem initial_dataInv {l : Launch} (hall : ∀ p, premiseHolds l p = true) (hfits : fitsFields l.params = true) :
    DataInv (Launch.initial l) := by
  obtain ⟨hmin, hmax⟩ : l.params.minNumber ≤ -32768 ∧ 65535 ≤ l.params.maxNumber := by simpa [fitsFields] using hfits
  obtain ⟨hdata, hinput, hpreload⟩ := valuesInRange_holds_iff.mp (hall .valuesInRange)
  have hlength := dataImageLength_holds_iff.mp (hall .dataImageLength)
  exact {
    fits := ⟨hmin, hmax⟩
    regs := fun x hx => by
      obtain ⟨i, rfl⟩ : ∃ i : Fin 15, l.preload[i.val + 1] = x := by simpa [Launch.initial] using hx
      exact heldInRange_iff.mpr (hpreload _ _)
    left := rfl
    right := rfl
    aluResult := rfl
    memOut := rfl
    cells := fun c hc => inRange_iff.mpr (hdata _ (mem_dataCells hc).2)
    inbuf := fun v hv => by
      rcases List.mem_append.mp hv with hv | hv
      · exact inRange_iff.mpr (hinput v hv)
      · rw [List.mem_singleton.mp hv]
        exact inRange_iff.mpr ⟨hmin.trans (by decide), le_trans (by decide) hmax⟩
    outbuf := by simp [Launch.initial, State.reset]
    wf := risingFrom_dataCells (by decide) _
    below := fun c hc => by
      have hlt := (mem_dataCells hc).1
      change c.1 < l.params.dmemSize
      omega
    flags := rfl }

/-- Settles O58: the premises bound what a launch places; every other element holds no value, and the next row is row 0. -/
theorem launchMeetsTheInvariants : Obligations.LaunchMeetsTheInvariants := by
  intro l s h hfits
  obtain ⟨hall, rfl⟩ := launch_eq_next_iff.mp h
  exact ⟨inv_iff.mpr (initial_dataInv hall hfits), rfl⟩

/-- Settles O59: both invariants are evaluated. -/
theorem resetMeetsTheInvariants : Obligations.ResetMeetsTheInvariants :=
  ⟨by decide, by decide⟩

end Sys2Proof.Machine
end

section
/-! PROOF. Arithmetic laws (R133), memory ordering (R73), the stride conditions (R142), and that no instruction reads the flags
it finds (R26). -/

namespace Sys2Proof.Machine

/-! ### Arithmetic (R133) -/

theorem aluValue_of_mem_range {p : Params} {op : AluOp} {l r : Int} (hmin : p.minNumber ≤ aluExact op l r)
    (hmax : aluExact op l r ≤ p.maxNumber) : aluValue p op l r = aluExact op l r :=
  wrap_of_mem_range hmin hmax

/-- Settles O11: in range `wrap` leaves the exact result; 0 is in range; the two examples are evaluated. -/
theorem arithmeticLaws : Obligations.ArithmeticLaws := by
  refine ⟨fun p op l r hmin hmax => ?_, fun op s l r hl hr => ⟨_, alu_of_wires hl hr op, rfl⟩, fun p x hmin hmax => ?_,
    fun p x => ?_, by decide, by decide⟩
  · have hexact := aluValue_of_mem_range hmin hmax
    exact ⟨hexact, by rw [flagsOf_n_iff, hexact]⟩
  · have hzero : wrap p 0 = 0 := wrap_of_mem_range hmin hmax
    have hmul : aluValue p .mul x 0 = 0 := by rw [aluValue, aluExact, mul_zero, hzero]
    refine ⟨hmul, ?_, flagsOf_z_iff.mpr hmul, ?_⟩
    · rw [aluValue, aluExact, zero_mul, hzero]
    · rw [aluValue, aluExact, sub_self, hzero]
  · rw [aluValue, aluExact, pow_two]

/-! ### Memory ordering (R73) -/

/-- A read of a general cell completes exactly where the cell is in the memory and holds the value, and changes nothing. -/
theorem memRead_cell_iff {s : State} {a v : Int} (h2 : 2 ≤ a) :
    memRead a s = .ok (v, s) ↔ a < s.params.dmemSize ∧ s.cell a.toNat = some v := by
  refine ⟨fun h => ?_, fun ⟨hsize, hc⟩ => memRead_cell h2 hsize hc⟩
  obtain ⟨h0, -, -⟩ | ⟨-, hsize, hc, -⟩ := memRead_ok h
  · omega
  · exact ⟨hsize, hc⟩

/-- Settles O20: a write of a general cell changes that cell alone. -/
theorem loadSeesLastStore : Obligations.LoadSeesLastStore := by
  intro a v s t h2 h
  obtain ⟨h1, -⟩ | ⟨-, hsize, rfl⟩ := memWrite_ok h
  · omega
  refine ⟨(memRead_cell_iff h2).mpr ⟨hsize, read_write_self ..⟩, fun b x hb hba => ?_⟩
  have hcell : (s.dmem.write a.toNat v).read b.toNat = s.dmem.read b.toNat := read_write_of_ne (by omega) v s.dmem
  rw [memRead_cell_iff hb, memRead_cell_iff hb]
  simp only [State.cell, hcell]

/-! ### The stride conditions (R142) -/

/-- Settles O17: each condition is the test of the flags that the rule gives. -/
theorem strideConditions : Obligations.StrideConditions := by
  refine fun s => ⟨fun h c => by simp [execSignal, strideIf, h], fun f h => ⟨strideIf_of_flags h .z, ?_, ?_,
    strideIf_of_flags h .neg⟩⟩
  · simp [execSignal, strideIf_of_flags h, condHolds]
  · simp [execSignal, strideIf_of_flags h, condHolds]

/-! ### Signals and the flags they find (R26) -/

/-- The result with other flags in its state. -/
def SignalResult.withFlags (f : Option Flags) : SignalResult → SignalResult
  | .done t => .done { t with flags := f }
  | .raised k t => .raised k { t with flags := f }

/-- From states that differ in the flags only, the signal gives results that differ in the flags at most. -/
def IgnoresFlags (g : State → SignalResult) : Prop :=
  ∀ (s : State) (f : Option Flags), ∃ f', g { s with flags := f } = (g s).withFlags f'

@[simp] theorem ignoresFlags_selLeft (i : RegIdx) : IgnoresFlags (selLeft i) := by
  intro s f
  cases hv : s.reg i with
  | none => exact ⟨f, by rw [selLeft_of_none hv, selLeft_of_none (by exact hv)]; rfl⟩
  | some v => exact ⟨f, by rw [selLeft_of_reg hv, selLeft_of_reg (by exact hv)]; rfl⟩

@[simp] theorem ignoresFlags_selRight (i : RegIdx) : IgnoresFlags (selRight i) := by
  intro s f
  cases hv : s.reg i with
  | none => exact ⟨f, by rw [selRight_of_none hv, selRight_of_none (by exact hv)]; rfl⟩
  | some v => exact ⟨f, by rw [selRight_of_reg hv, selRight_of_reg (by exact hv)]; rfl⟩

@[simp] theorem ignoresFlags_withIndex_selRight (n : Nat) : IgnoresFlags (withIndex n selRight) := by
  intro s f
  rcases Nat.lt_or_ge 15 n with hn | hn
  · exact ⟨f, by rw [withIndex_of_lt hn, withIndex_of_lt hn]; rfl⟩
  · rw [withIndex_of_le hn, withIndex_of_le hn]
    exact ignoresFlags_selRight _ s f

@[simp] theorem ignoresFlags_selLeftAddr (f2 : BitVec 16) : IgnoresFlags (selLeftAddr f2) := fun _ f => ⟨f, rfl⟩

@[simp] theorem ignoresFlags_selRightNum (f2 : BitVec 16) : IgnoresFlags (selRightNum f2) := fun _ f => ⟨f, rfl⟩

@[simp] theorem ignoresFlags_selPc (sel : PcSel) : IgnoresFlags (selPc sel) := fun _ f => ⟨f, rfl⟩

@[simp] theorem ignoresFlags_selData (sel : DataSel) : IgnoresFlags (selData sel) := fun _ f => ⟨f, rfl⟩

@[simp] theorem ignoresFlags_selMpc (sel : MpcSel) : IgnoresFlags (selMpc sel) := fun _ f => ⟨f, rfl⟩

@[simp] theorem ignoresFlags_haltSignal : IgnoresFlags haltSignal := fun _ f => ⟨f, rfl⟩

/-- An ALU signal replaces the flags where it completes. -/
@[simp] theorem ignoresFlags_alu (op : AluOp) : IgnoresFlags (alu op) := by
  intro s f
  rcases Option.eq_none_or_eq_some s.left with hl | ⟨l, hl⟩
  · exact ⟨f, by rw [alu_of_left_none hl, alu_of_left_none (by exact hl)]; rfl⟩
  rcases Option.eq_none_or_eq_some s.right with hr | ⟨r, hr⟩
  · exact ⟨f, by rw [alu_of_right_none hl hr, alu_of_right_none (by exact hl) (by exact hr)]; rfl⟩
  · exact ⟨_, by rw [alu_of_wires hl hr, alu_of_wires (by exact hl) (by exact hr)]; rfl⟩

@[simp] theorem ignoresFlags_latchPc (f2 : Option (BitVec 16)) : IgnoresFlags (latchPc f2) := by
  intro s f
  refine ⟨f, ?_⟩
  simp only [latchPc]
  split
  · rfl
  · cases f2 <;> rfl
  · rfl

@[simp] theorem ignoresFlags_latchReg (i : RegIdx) : IgnoresFlags (latchReg i) := by
  intro s f
  refine ⟨f, ?_⟩
  by_cases hi : i = 0#4
  · rw [hi, latchReg_zero, latchReg_zero]
    rfl
  have hsource : dataSource i { s with flags := f } = dataSource i s := rfl
  cases hd : dataSource i s with
  | error k => rw [latchReg_of_error hi hd, latchReg_of_error hi (hsource.trans hd)]; rfl
  | ok v =>
    rw [latchReg_of_ok hi hd, latchReg_of_ok hi (hsource.trans hd), setReg_of_ne hi, setReg_of_ne hi]
    rfl

@[simp] theorem ignoresFlags_latchMpc (row : RomRow) : IgnoresFlags (latchMpc row) := by
  intro s f
  refine ⟨f, ?_⟩
  simp only [latchMpc, gotoRow]
  split
  · split <;> rfl
  · split <;> rfl
  · rfl
  · rfl

/-- A data read does not see the flags. -/
theorem memRead_flags (a : Int) (s : State) (f : Option Flags) :
    memRead a { s with flags := f } = (memRead a s).map fun r => (r.1, { r.2 with flags := f }) := by
  simp only [memRead, inPop, State.cell]
  split
  · cases s.inbuf <;> rfl
  split
  · rfl
  split
  · rfl
  · cases s.dmem.read a.toNat <;> rfl

/-- A data write does not see the flags. -/
theorem memWrite_flags (a v : Int) (s : State) (f : Option Flags) :
    memWrite a v { s with flags := f } = (memWrite a v s).map fun t => { t with flags := f } := by
  simp only [memWrite, outPush]
  split
  · rfl
  split
  · rfl
  split <;> rfl

@[simp] theorem ignoresFlags_memReadSignal : IgnoresFlags memReadSignal := by
  intro s f
  refine ⟨f, ?_⟩
  rcases Option.eq_none_or_eq_some s.left with ha | ⟨a, ha⟩
  · rw [memReadSignal_of_left_none ha, memReadSignal_of_left_none (by exact ha)]
    rfl
  have hread := memRead_flags a s f
  cases hm : memRead a s with
  | error k =>
    rw [memReadSignal_error ha hm, memReadSignal_error (by exact ha) (hread.trans (by rw [hm]; rfl))]
    rfl
  | ok r =>
    rw [memReadSignal_ok ha hm, memReadSignal_ok (by exact ha) (hread.trans (by rw [hm]; rfl))]
    rfl

@[simp] theorem ignoresFlags_memWriteSignal : IgnoresFlags memWriteSignal := by
  intro s f
  refine ⟨f, ?_⟩
  rcases Option.eq_none_or_eq_some s.left with ha | ⟨a, ha⟩
  · rw [memWriteSignal_of_left_none ha, memWriteSignal_of_left_none (by exact ha)]
    rfl
  rcases Option.eq_none_or_eq_some s.right with hv | ⟨v, hv⟩
  · rw [memWriteSignal_of_right_none ha hv, memWriteSignal_of_right_none (by exact ha) (by exact hv)]
    rfl
  have hwrite := memWrite_flags a v s f
  cases hm : memWrite a v s with
  | error k =>
    rw [memWriteSignal_error ha hv hm, memWriteSignal_error (by exact ha) (by exact hv) (hwrite.trans (by rw [hm]; rfl))]
    rfl
  | ok t =>
    rw [memWriteSignal_ok ha hv hm, memWriteSignal_ok (by exact ha) (by exact hv) (hwrite.trans (by rw [hm]; rfl))]
    rfl

/-! ### Rows and the flags they find -/

/-- `t` differs from `s` in the flags at most. -/
def SameButFlags (s t : State) : Prop := ∃ f, t = { s with flags := f }

theorem runOps_sameButFlags {row : RomRow} {ops : List RowOp} (hops : ∀ op ∈ ops, IgnoresFlags op.run) {s t : State}
    (h : SameButFlags s t) : SameButFlags (runOps row ops s) (runOps row ops t) := by
  obtain ⟨f, rfl⟩ := h
  induction ops generalizing s f with
  | nil => exact ⟨f, rfl⟩
  | cons op ops ih =>
    obtain ⟨hop, hrest⟩ := List.forall_mem_cons.mp hops
    obtain ⟨f', hrun⟩ := hop s f
    simp only [runOps, hrun]
    cases op.run s with
    | raised k u => exact ⟨f', rfl⟩
    | done u =>
      simp only [SignalResult.withFlags]
      split
      · exact ⟨f', rfl⟩
      · exact ih hrest f'

/-- Where a row runs no signal, the flags are as they were. -/
theorem runRow_sameButFlags_of_canRun {row : RomRow} {ops : List RowOp} {s : State} {f : Option Flags}
    (hrun : s.canRun → SameButFlags (runRow row ops s) (runRow row ops { s with flags := f })) :
    SameButFlags (runRow row ops s) (runRow row ops { s with flags := f }) := by
  by_cases hs : s.status = .running
  · by_cases ht : s.tick = s.params.tickLimit
    · rw [runRow_of_limit hs ht, runRow_of_limit (by exact hs) (by exact ht)]
      exact ⟨f, rfl⟩
    · exact hrun ⟨hs, ht⟩
  · rw [runRow_of_ended hs, runRow_of_ended (by exact hs)]
    exact ⟨f, rfl⟩

theorem runRow_sameButFlags {row : RomRow} {ops : List RowOp} (hops : ∀ op ∈ ops, IgnoresFlags op.run) {s t : State}
    (h : SameButFlags s t) : SameButFlags (runRow row ops s) (runRow row ops t) := by
  obtain ⟨f, rfl⟩ := h
  refine runRow_sameButFlags_of_canRun fun hrun => ?_
  rw [runRow_of_canRun hrun, runRow_of_canRun (by exact hrun)]
  exact runOps_sameButFlags hops ⟨f, rfl⟩

/-- The test row reads only the flags that its own ALU signal wrote. -/
theorem testRow_sameButFlags {row : RomRow} (hrow : row.val + 2 < 30) (c : Cond) (ra rb : RegIdx) (s : State)
    (f : Option Flags) : SameButFlags (testRow row c ra rb s) (testRow row c ra rb { s with flags := f }) := by
  refine runRow_sameButFlags_of_canRun fun hrun => ?_
  change SameButFlags (testRow row c ra rb s) (testRow row c ra rb { s with flags := f })
  have hrun' : ({ s with flags := f } : State).canRun := hrun
  cases ha : s.reg ra with
  | none =>
    rw [testRow_of_left_none hrun ha, testRow_of_left_none hrun' ha]
    exact ⟨f, rfl⟩
  | some a =>
    cases hb : s.reg rb with
    | none =>
      rw [testRow_of_right_none hrun ha hb, testRow_of_right_none hrun' ha hb]
      exact ⟨f, rfl⟩
    | some b =>
      rw [testRow_eq_tested hrun ha hb hrow, testRow_eq_tested hrun' ha hb hrow]
      exact ⟨_, rfl⟩

theorem secondRow_sameButFlags {s t : State} (h : SameButFlags s t) (row : RomRow) (f2 : BitVec 16) :
    SameButFlags (secondRow row f2 s) (secondRow row f2 t) := by
  have hmpc : t.mpc = s.mpc := by
    obtain ⟨f, rfl⟩ := h
    rfl
  unfold secondRow
  rw [hmpc]
  split
  · exact runRow_sameButFlags (by simp [ret]) h
  · exact runRow_sameButFlags (by simp [ret]) h

/-! ### Instructions -/

theorem exec_sameButFlags {i : Instr} {s t u : State} {f : Option Flags} (ht : exec i s = .next t)
    (hu : exec i { s with flags := f } = .next u) : SameButFlags t u := by
  have hbranch (c : Cond) (ra rb : RegIdx) (f2 : BitVec 16) (ht : exec (branchInstr c ra rb f2) s = .next t)
      (hu : exec (branchInstr c ra rb f2) { s with flags := f } = .next u) : SameButFlags t u := by
    rw [exec_branchInstr] at ht hu
    cases ht
    cases hu
    exact secondRow_sameButFlags (testRow_sameButFlags (entryLine_branchInstr_lt ..) c ra rb s f) _ f2
  cases i with
  | beq ra rb f2 => exact hbranch .z ra rb f2 ht hu
  | bne ra rb f2 => exact hbranch .nz ra rb f2 ht hu
  | bgt ra rb f2 => exact hbranch .pos ra rb f2 ht hu
  | blt ra rb f2 => exact hbranch .neg ra rb f2 ht hu
  | _ =>
    cases ht
    cases hu
    exact runRow_sameButFlags (by simp [aluTail, loadTail, storeTail, ret]) ⟨f, rfl⟩

/-- Settles O53: the two states after the instruction differ in the flags at most. -/
theorem flagsOfEarlierInstructionsAreNotRead : Obligations.FlagsOfEarlierInstructionsAreNotRead := by
  intro i s t u f ht hu
  obtain ⟨f', rfl⟩ := exec_sameButFlags ht hu
  rfl

end Sys2Proof.Machine
end
